-- ==== Sys2Proof/Word.lean ====
section
/-! DEFINITION. The words of the block: bytes of plane memory, 32-bit registers and sample containers, 64-bit register slots
(10_state.md R22, 20_memory.md R60, R63). -/

namespace Sys2Proof

/-- One byte of plane memory (20_memory.md R60). -/
abbrev Byte := BitVec 8

/-- A 32-bit register or a sample container read with zero extension (10_state.md R22, 20_memory.md R65). -/
abbrev Word := BitVec 32

/-- A 64-bit register slot, address or pitch (10_state.md R22). -/
abbrev Slot := BitVec 64

end Sys2Proof
end

