-- ==== Sys2Proof/Syntax.lean ====
section
/-! DEFINITION. The operations of the block, one constructor per row of spec/opcode_table.json, and the requests (encoded
operations) they are decoded from (30_encoding.md R100, R101, R110). -/

namespace Sys2Proof

/-- The planes of a frame: index 0 luma Y, 1 chroma U, 2 chroma V, 3 alpha A (10_state.md R22). -/
inductive PlaneId where
  | y | u | v | a
deriving DecidableEq, Repr

/-- The capability levels Scalar < Tier1 < Tier2 < Tier3 (00_scope.md R4), codes 0 to 3 (30_encoding.md R103). -/
inductive Tier where
  | scalar | tier1 | tier2 | tier3
deriving DecidableEq, Repr

/-- The sample domains: U8, U16(b) for b in 10, 12, 14, 16, and F32 (00_scope.md R3, 40_numeric_domain.md R140). -/
inductive Domain where
  | u8 | u16b10 | u16b12 | u16b14 | u16b16 | f32
deriving DecidableEq, Repr

/-- The operations, in the table's order. Operands: a slot's byte offset and data (R101), a plane, a row (u32). -/
inductive Instr where
  /-- CONFIGURE: a write of code 1 to CMD (43_dispatch.md R230). -/
  | configure
  /-- FRAME: a write of code 2 to CMD (43_dispatch.md R240). -/
  | frame
  /-- RESET: the reset input (70_reset_and_hazards.md R300). -/
  | reset
  /-- WR: the triple (W, offset, data) (10_state.md R22, 30_encoding.md R101). -/
  | wr (offset data : Slot)
  /-- RD: the pair (R, offset) (10_state.md R22, 30_encoding.md R101). -/
  | rd (offset : Slot)
  /-- UNTOUCHED(p): mode value 1 (43_dispatch.md R246). -/
  | untouched (p : PlaneId)
  /-- COPY(p): mode value 2 (43_dispatch.md R245). -/
  | copy (p : PlaneId)
  /-- PROCESS(p): mode value 3 (43_dispatch.md R243). -/
  | process (p : PlaneId)
  /-- ALPHA.COPY: plane index 3 with FMT.HAS_ALPHA = 1 (43_dispatch.md R247). -/
  | alphaCopy
  /-- CAP.AUTO: request value -1 (30_encoding.md R106, 43_dispatch.md R235). -/
  | capAuto
  /-- CAP.SCALAR: request value 0. -/
  | capScalar
  /-- CAP.TIER1: request value 1. -/
  | capTier1
  /-- CAP.TIER2: request value 2. -/
  | capTier2
  /-- CAP.TIER3: request value 3. -/
  | capTier3
  /-- PIX.U8 (41_threshold_kernel.md R174), on the sample latches. -/
  | pixU8
  /-- PIX.U16 with b = 10 (41_threshold_kernel.md R175). -/
  | pixU16b10
  /-- PIX.U16 with b = 12. -/
  | pixU16b12
  /-- PIX.U16 with b = 14. -/
  | pixU16b14
  /-- PIX.U16 with b = 16. -/
  | pixU16b16
  /-- PIX.F32 (41_threshold_kernel.md R178). -/
  | pixF32
  /-- ROW.SCALAR(p, y) (41_threshold_kernel.md R182). -/
  | rowScalar (p : PlaneId) (y : Word)
  /-- ROW.T1(p, y) (42_vector_backends.md R216). -/
  | rowT1 (p : PlaneId) (y : Word)
  /-- ROW.T2(p, y). -/
  | rowT2 (p : PlaneId) (y : Word)
  /-- ROW.T3(p, y). -/
  | rowT3 (p : PlaneId) (y : Word)
  /-- VALIDATE (43_dispatch.md R231). -/
  | validate
  /-- RESOLVE (43_dispatch.md R235). -/
  | resolve
  /-- DERIVE (40_numeric_domain.md R148). -/
  | derive
  /-- KERNEL(p) (41_threshold_kernel.md R184). -/
  | kernel (p : PlaneId)
  /-- ZROW(p, y) (41_threshold_kernel.md R183). -/
  | zrow (p : PlaneId) (y : Word)
  /-- VPIX, on the vector registers (42_vector_backends.md R215). -/
  | vpix
deriving DecidableEq, Repr

/-- The operations that have no selecting bit pattern (30_encoding.md R110 (c), (g)): they are requested by name
(DESIGN CHOICE, unsafe: the spec gives them no code; entry 6). -/
inductive FixedOp where
  | alphaCopy | validate | resolve | derive | kernel | zrow | vpix
deriving DecidableEq, Repr

/-- An encoded operation. The host's are the triples of 30_encoding.md R101 and the reset input; the others are the
selecting register words of R110 with the plane and row they act on (entries 4 and 6). -/
inductive Request where
  /-- (W, offset, data): a write of one whole slot (R101). -/
  | write (offset data : Slot)
  /-- (R, offset): a read of one whole slot (R101). -/
  | read (offset : Slot)
  /-- An access that is not one whole slot (10_state.md R34): `bytes` bytes at `offset`. -/
  | narrow (offset : Slot) (bytes : Nat)
  /-- The reset input RST asserted (70_reset_and_hazards.md R300). -/
  | rst
  /-- The register at `offset` holds `word` and selects an operation by it (R110 (c) to (f)). -/
  | select (offset : Slot) (word : Word) (p : PlaneId) (y : Word)
  /-- An operation without a selecting field, performed at a fixed point (R110 (g)). -/
  | fixed (op : FixedOp) (p : PlaneId) (y : Word)
deriving DecidableEq, Repr

/-- Why a request selects no operation: the decoder's refusals, by name. -/
inductive DecodeError where
  /-- The offset is not one of the 48 slots (10_state.md R34, U15). -/
  | outsideRegisterSpace
  /-- The access is not a whole aligned slot (10_state.md R34, U15). -/
  | partialSlotAccess
  /-- The selecting field holds a value no operation is listed for (30_encoding.md R111). -/
  | noOperationSelected
  /-- The operation acts on planes 0 to 2 only, and plane 3 was named (43_dispatch.md R247, R248). -/
  | notAColourPlane
deriving DecidableEq, Repr

end Sys2Proof
end

