-- ==== Sys2Proof/Config.lean ====
section
/-! DEFINITION. What the implementation fixes (00_scope.md R9, R10) and the free values (00_scope.md R13 `draw`). -/

namespace Sys2Proof.Config

/-- The first address that plane memory does not have: 2^AW with AW = 64 (20_memory.md R60, decision D11). -/
def planeMemoryEnd : Nat := 2 ^ 64

/-- The byte an address of plane memory holds that nothing has written. DESIGN CHOICE, unsafe: plane memory has no reset
value (10_state.md R51); entry 2. -/
def unwrittenByte : Byte := 0

/-- The strap HWCAP of the machine after reset. DESIGN CHOICE, unsafe: the spec leaves the strap open (D28); entry 1. -/
def resetHwcap : Tier := .scalar

/-- The strap THREAD_CLASS of the machine after reset. DESIGN CHOICE, unsafe: the spec leaves the strap open (D31); entry 1. -/
def resetThreadClass : BitVec 1 := 0

/-- `draw(u32)` of the pixel computed in lane `lane` at draw number `draw`: the output of a pixel with a non-finite or huge
sample (41_threshold_kernel.md R180), and in its top bit the sign of a zero ramp result (40_numeric_domain.md R162).
A free value: it has no body; entry 8. -/
opaque freeWord (draw lane : Nat) : Word

/-- `draw(u8)` of the byte at an address at draw number `draw`: a destination byte read during BUSY (20_memory.md R75 M3)
or left by a reset during BUSY (70_reset_and_hazards.md R301). A free value: it has no body; entry 8. -/
opaque freeByte (draw addr : Nat) : Byte

/-- The content of row cursor `which` after a reset event: unspecified (70_reset_and_hazards.md R302). A free value; entry 9. -/
opaque freeCursor (draw which : Nat) : Slot

/-- The content of vector register `which` after a reset event: unspecified (70_reset_and_hazards.md R302). A free value;
entry 9. -/
opaque freeLanes (draw which : Nat) : List Word

end Sys2Proof.Config
end

