-- ==== Sys2Proof/Machine/State.lean ====
section
/-! DEFINITION. The state of one instance: the register file, the sequencer's position and working registers, plane memory,
and the model's own fields (INVENTORY.md, State). Plain data. -/

namespace Sys2Proof.Machine

/-- STATUS.STATE (10_state.md R24, R45), codes 0 to 3 in this order. -/
inductive RunState where
  | unconfigured | ready | busy | error
deriving DecidableEq, Repr

/-- The plane descriptor of one plane: six registers (10_state.md R22, R32). -/
structure Desc where
  /-- SRC_BASE: the read pointer. -/
  srcBase : Slot
  /-- DST_BASE: the write pointer. -/
  dstBase : Slot
  /-- SRC_PITCH: the source stride in bytes. -/
  srcPitch : Slot
  /-- DST_PITCH: the destination stride in bytes. -/
  dstPitch : Slot
  /-- WIDTH in samples. -/
  width : Word
  /-- HEIGHT in rows. -/
  height : Word
deriving DecidableEq, Repr

/-- The sequencer position (p, y, x) (10_state.md R40); IDLE is `none`. -/
structure Pos where
  plane : PlaneId
  row : Nat
  col : Nat
deriving DecidableEq, Repr

/-- What the host does at the block: an encoded operation, or a read or write of one byte of the plane memory it owns
(10_state.md R20, R44; 20_memory.md R77). -/
inductive HostEvent where
  | request (r : Request)
  | memWrite (addr : Nat) (b : Byte)
  | memRead (addr : Nat)
deriving DecidableEq, Repr

/-- A pending host event and how many sequencer steps pass before it (the model's own; entry 3). -/
structure Pending where
  gap : Nat
  event : HostEvent
deriving DecidableEq, Repr

/-- The state of one instance. -/
structure State where
  /-- STATUS.STATE (10_state.md R24, R45). -/
  run : RunState
  /-- STATUS.BACKEND (R24). -/
  backend : Tier
  /-- STATUS.ERRCODE (R24). -/
  errCode : BitVec 4
  /-- CAPS.HWCAP, a strap (R25). -/
  hwcap : Tier
  /-- CAPS.THREAD_CLASS, a strap (R25). -/
  threadClass : BitVec 1
  /-- THR_LOW (R26). -/
  thrLow : Word
  /-- THR_HIGH (R27). -/
  thrHigh : Word
  /-- MODE_Y (R28). -/
  modeY : Word
  /-- MODE_U (R28). -/
  modeU : Word
  /-- MODE_V (R28). -/
  modeV : Word
  /-- CAP_REQ (R29). -/
  capReq : Word
  /-- FMT (R30). -/
  fmt : Word
  /-- PEAK (R31). -/
  peak : Word
  /-- SCALE (R31). -/
  scale : Word
  /-- SHIFT (R31). -/
  shift : Word
  /-- LOW_S (R31). -/
  lowS : Word
  /-- HIGH_S (R31). -/
  highS : Word
  /-- The descriptor of plane 0 (R32). -/
  descY : Desc
  /-- The descriptor of plane 1. -/
  descU : Desc
  /-- The descriptor of plane 2. -/
  descV : Desc
  /-- The descriptor of plane 3. -/
  descA : Desc
  /-- pos (R40); `none` is IDLE. -/
  pos : Option Pos
  /-- The row cursor UP (R36). -/
  curUp : Slot
  /-- The row cursor MID (R36). -/
  curMid : Slot
  /-- The row cursor LO (R36). -/
  curLo : Slot
  /-- The output cursor OUT (R36). -/
  curOut : Slot
  /-- The sample u of the pixel in hand (00_scope.md R14). -/
  smpU : Word
  /-- The sample m of the pixel in hand. -/
  smpM : Word
  /-- The sample l of the pixel in hand. -/
  smpL : Word
  /-- The sample a PIX operation returned (41_threshold_kernel.md R174, R175, R178). -/
  smpOut : Word
  /-- The vector register U of a tier (10_state.md R43, 42_vector_backends.md R215). -/
  vecU : List Word
  /-- The vector register M. -/
  vecM : List Word
  /-- The vector register Lo. -/
  vecLo : List Word
  /-- The vector register Out: the results of VPIX. -/
  vecOut : List Word
  /-- Plane memory (10_state.md R44 (b)): address and byte pairs in the canonical form of `Memory.wf`. -/
  mem : List Host.Cell
  /-- The model's own: the value the last value-returning operation returned to its issuer (entry 7). -/
  result : Slot
  /-- The model's own: the host's pending events, the next one first (entry 3). -/
  inbox : List Pending
  /-- The model's own: the number of the next draw of free values (entry 8). -/
  draws : Nat
deriving DecidableEq, Repr

/-- How the machine stops with a fault. The block itself raises none (60_exceptions.md R282); its configuration errors are
states (R280). -/
inductive Fault where
  /-- Raised by a host access to a byte of plane memory at or above 2^64, which does not exist (20_memory.md R60 to R62).
  Safe. -/
  | outsidePlaneMemory (addr : Nat)
deriving DecidableEq, Repr

/-- Why a step has no meaning. Each is safe: nothing can be proved of a run past it. -/
inductive Refusal where
  /-- Raised by exec for an operation that has no meaning yet. Safe. -/
  | notModelled (mnemonic : String)
  /-- Raised by step, WR and RD: the offset is not one of the 48 slots (10_state.md R34, U15). Safe. -/
  | outsideRegisterSpace
  /-- Raised by step: the access is not a whole aligned slot (R34, U15). Safe. -/
  | partialSlotAccess
  /-- Raised by step: the selecting field's value selects no operation (30_encoding.md R111). Safe. -/
  | noOperationSelected
  /-- Raised by step and the colour-plane operations: plane 3 (43_dispatch.md R247, R248). Safe. -/
  | notAColourPlane
  /-- Raised by FRAME, the plane operations and the sequencer: a descriptor breaks V1 to V4 (20_memory.md R70, R71, U5).
  Safe. -/
  | descriptorOutsideContract
  /-- Raised by the plane operations, VPIX and the sequencer: FMT selects no sample domain (30_encoding.md R108). Safe. -/
  | noSampleDomain
  /-- Raised by the row operations: the row is not one the operation takes (41_threshold_kernel.md R182, R183). Safe. -/
  | rowOutOfRange
  /-- Raised by a host write to a source footprint of the running FRAME (20_memory.md R77, U6). Safe. -/
  | sourceWrittenWhileBusy
  /-- Raised by a host write to a destination footprint of the running FRAME (20_memory.md R77; entry 17). Safe. -/
  | destinationWrittenWhileBusy
deriving DecidableEq, Repr

/-- A descriptor with every register 0 (10_state.md R50). -/
def Desc.zero : Desc :=
  { srcBase := 0, dstBase := 0, srcPitch := 0, dstPitch := 0, width := 0, height := 0 }

/-- The machine right after reset (10_state.md R50): every register 0, pos IDLE, STATE UNCONFIGURED, nothing in plane
memory. The straps (entry 1), the internal working registers (entry 9) and the model's own fields (entries 3, 7, 8) hold
the values those entries name. -/
def State.reset : State :=
  { run := .unconfigured, backend := .scalar, errCode := 0
    hwcap := Config.resetHwcap, threadClass := Config.resetThreadClass
    thrLow := 0, thrHigh := 0, modeY := 0, modeU := 0, modeV := 0, capReq := 0, fmt := 0
    peak := 0, scale := 0, shift := 0, lowS := 0, highS := 0
    descY := Desc.zero, descU := Desc.zero, descV := Desc.zero, descA := Desc.zero
    pos := none
    curUp := 0, curMid := 0, curLo := 0, curOut := 0
    smpU := 0, smpM := 0, smpL := 0, smpOut := 0
    vecU := [], vecM := [], vecLo := [], vecOut := []
    mem := [], result := 0, inbox := [], draws := 0 }

end Sys2Proof.Machine
end

