-- ==== Sys2Proof/Machine/Float32.lean ====
section
/-! DEFINITION. IEEE 754 binary32 as the F32 domain uses it: exact integers and rationals in units of 2^-149, one rounding
to nearest, ties to even, per operation (00_scope.md R12, 40_numeric_domain.md R159). The format's details and the results of
operations on infinities, NaNs and signed zeros are IEEE's (PRESUMED, 93_implementation_defined.md G1; entry 19). -/

namespace Sys2Proof.Machine

/-- The sign bit. -/
def f32Sign (w : Word) : Bool := w.getLsbD 31

/-- The exponent field, bits 30..23. -/
def f32Exp (w : Word) : Nat := (w.extractLsb' 23 8).toNat

/-- The fraction field, bits 22..0. -/
def f32Frac (w : Word) : Nat := (w.extractLsb' 0 23).toNat

/-- The pattern without its sign: ordered as the magnitudes are. -/
def f32MagBits (w : Word) : Nat := (w.extractLsb' 0 31).toNat

/-- The pattern of +infinity. -/
def f32InfBits : Nat := 0x7F800000

/-- A NaN: exponent field all ones, fraction not zero. -/
def f32IsNaN (w : Word) : Bool := f32InfBits < f32MagBits w

/-- An infinity of either sign. -/
def f32IsInf (w : Word) : Bool := f32MagBits w == f32InfBits

/-- The magnitude of a finite value, in units of 2^-149 (exact). -/
def f32Mag (w : Word) : Nat :=
  if f32Exp w = 0 then f32Frac w else (2 ^ 23 + f32Frac w) * 2 ^ (f32Exp w - 1)

/-- A finite value in units of 2^-149 (exact). -/
def f32Units (w : Word) : Int := if f32Sign w then -(f32Mag w : Int) else f32Mag w

/-- n / d rounded to the nearest integer, ties to the even one. -/
def roundHalfEven (n d : Nat) : Nat :=
  if 2 * (n % d) < d then n / d
  else if d < 2 * (n % d) then n / d + 1
  else n / d + n / d % 2

/-- The magnitude pattern of n / d units of 2^-149 rounded to nearest, ties to even, subnormals honoured, to infinity
above the largest finite value. The bits of the exponent and the fraction carry into each other, so the sum below is the
pattern also when the significand rounds up to a power of two. -/
def f32RoundMag (n d : Nat) : Nat :=
  let k := Nat.log2 (n / d) - 23
  min (k * 2 ^ 23 + roundHalfEven n (d * 2 ^ k)) f32InfBits

/-- A pattern from its sign and its magnitude pattern. -/
def f32Pack (neg : Bool) (mag : Nat) : Word := BitVec.ofNat 32 (mag + if neg then 2 ^ 31 else 0)

/-- The NaN an invalid operation gives; its pattern never reaches plane memory (41_threshold_kernel.md R180 takes such a
pixel first). PRESUMED, entry 19. -/
def f32NaN : Word := 0x7FC00000

/-- fsub(a, b) (00_scope.md R12). -/
def fsub (a b : Word) : Word :=
  if f32IsNaN a || f32IsNaN b then f32NaN
  else if f32IsInf a then (if f32IsInf b && f32Sign a == f32Sign b then f32NaN else a)
  else if f32IsInf b then f32Pack (!f32Sign b) f32InfBits
  else
    let z := f32Units a - f32Units b
    if z = 0 then f32Pack (f32Sign a && !f32Sign b) 0
    else f32Pack (decide (z < 0)) (f32RoundMag z.natAbs 1)

/-- fmul(a, b) (00_scope.md R12). -/
def fmul (a b : Word) : Word :=
  let neg := f32Sign a != f32Sign b
  if f32IsNaN a || f32IsNaN b then f32NaN
  else if f32IsInf a || f32IsInf b then
    (if f32MagBits a = 0 ∨ f32MagBits b = 0 then f32NaN else f32Pack neg f32InfBits)
  else f32Pack neg (f32RoundMag (f32Mag a * f32Mag b) (2 ^ 149))

/-- fdiv(a, b) (00_scope.md R12). -/
def fdiv (a b : Word) : Word :=
  let neg := f32Sign a != f32Sign b
  if f32IsNaN a || f32IsNaN b then f32NaN
  else if f32IsInf a then (if f32IsInf b then f32NaN else f32Pack neg f32InfBits)
  else if f32IsInf b then f32Pack neg 0
  else if f32MagBits b = 0 then (if f32MagBits a = 0 then f32NaN else f32Pack neg f32InfBits)
  else f32Pack neg (f32RoundMag (f32Mag a * 2 ^ 149) (f32Mag b))

/-- The order of the values that are not NaN: the magnitude pattern with the sign; both zeros at 0. -/
def f32Key (w : Word) : Int := if f32Sign w then -(f32MagBits w : Int) else f32MagBits w

/-- flt(a, b): a < b, false with a NaN (00_scope.md R12, 40_numeric_domain.md R160). -/
def flt (a b : Word) : Bool := !f32IsNaN a && !f32IsNaN b && decide (f32Key a < f32Key b)

/-- fgt(a, b): a > b, false with a NaN. -/
def fgt (a b : Word) : Bool := flt b a

/-- f32(i) of a natural below 2^24 (00_scope.md R12); exact there. -/
def f32OfNat (i : Nat) : Word := f32Pack false (f32RoundMag (i * 2 ^ 149) 1)

/-- 1.0f (00_scope.md R12). -/
def f32One : Word := 0x3F800000

/-- 255.0f (00_scope.md R12). -/
def f32TwoFiftyFive : Word := 0x437F0000

/-- fclamp01 (40_numeric_domain.md R161). -/
def fclamp01 (w : Word) : Word := if flt w 0 then 0 else if fgt w f32One then f32One else w

/-- A sample outside the input the kernel is given a meaning for: a NaN, an infinity, or a finite value of magnitude above
2^126 (pattern 0x7E800000) (41_threshold_kernel.md R180). -/
def f32OutOfDomain (w : Word) : Bool := 0x7E800000 < f32MagBits w

end Sys2Proof.Machine
end

