-- ==== Sys2Proof/Machine/Flags.lean ====
section
/-! DEFINITION. The status and format words and their fields. The block has no condition flags (10_state.md R42): STATUS,
CAPS and FMT are its only words with fields (30_encoding.md R100). -/

namespace Sys2Proof.Machine

/-- The code of a capability level (30_encoding.md R103, R104). -/
def tierCode : Tier → Nat
  | .scalar => 0
  | .tier1 => 1
  | .tier2 => 2
  | .tier3 => 3

/-- The code of STATUS.STATE (30_encoding.md R103). -/
def runCode : RunState → Nat
  | .unconfigured => 0
  | .ready => 1
  | .busy => 2
  | .error => 3

/-- The STATUS word: ERRCODE bits 7..4, BACKEND bits 3..2, STATE bits 1..0, the rest 0 (10_state.md R24). -/
def statusWord (s : State) : Word :=
  BitVec.ofNat 32 (runCode s.run + 4 * tierCode s.backend + 16 * s.errCode.toNat)

/-- The CAPS word: THREAD_CLASS bit 2, HWCAP bits 1..0, the rest 0 (10_state.md R25). -/
def capsWord (s : State) : Word :=
  BitVec.ofNat 32 (tierCode s.hwcap + 4 * s.threadClass.toNat)

/-- FMT.BITS, bits 7..0 (10_state.md R30). -/
def fmtBits (w : Word) : Nat := (w.extractLsb' 0 8).toNat

/-- FMT.FLOAT, bit 8. -/
def fmtFloat (w : Word) : Bool := w.getLsbD 8

/-- FMT.LAYOUT, bits 10..9. -/
def fmtLayout (w : Word) : Nat := (w.extractLsb' 9 2).toNat

/-- FMT.HAS_CHROMA, bit 11. -/
def fmtHasChroma (w : Word) : Bool := w.getLsbD 11

/-- FMT.HAS_ALPHA, bit 12. -/
def fmtHasAlpha (w : Word) : Bool := w.getLsbD 12

/-- What a write stores in FMT: bits 12..0; the reserved bits 31..13 are ignored and read 0 (10_state.md R30, R116). -/
def fmtStored (data : Slot) : Word := (data.extractLsb' 0 13).setWidth 32

/-- The sample domain that (FLOAT, BITS) selects, if any (30_encoding.md R108). -/
def domainOfFmt (w : Word) : Option Domain :=
  if fmtFloat w then
    (if fmtBits w = 32 then some .f32 else none)
  else if fmtBits w = 8 then some .u8
  else if fmtBits w = 10 then some .u16b10
  else if fmtBits w = 12 then some .u16b12
  else if fmtBits w = 14 then some .u16b14
  else if fmtBits w = 16 then some .u16b16
  else none

/-- ES, the element size in bytes (40_numeric_domain.md R144). -/
def elemSize : Domain → Nat
  | .u8 => 1
  | .f32 => 4
  | .u16b10 | .u16b12 | .u16b14 | .u16b16 => 2

/-- The bit depth b of an integer domain (40_numeric_domain.md R140); 32 for F32 (30_encoding.md R108). -/
def bitDepth : Domain → Nat
  | .u8 => 8
  | .u16b10 => 10
  | .u16b12 => 12
  | .u16b14 => 14
  | .u16b16 => 16
  | .f32 => 32

/-- SCALE of an integer domain (40_numeric_domain.md R142, R148); F32 has none and holds 0 (R31). -/
def scaleOf : Domain → Nat
  | .u8 => 1
  | .u16b10 => 4
  | .u16b12 => 16
  | .u16b14 => 64
  | .u16b16 => 257
  | .f32 => 0

/-- VBYTES of a tier, and of the scalar backend one element (42_vector_backends.md R213). -/
def vbytes (t : Tier) (d : Domain) : Nat :=
  match t with
  | .scalar => elemSize d
  | .tier1 => 16
  | .tier2 => 32
  | .tier3 => 64

/-- L, the number of lanes: VBYTES / ES (42_vector_backends.md R213). -/
def laneCount (t : Tier) (d : Domain) : Nat := vbytes t d / elemSize d

end Sys2Proof.Machine
end

