-- ==== Sys2Proof/Machine/Ops.lean ====
section
/-! DEFINITION. The named operations: plane memory in its one canonical form, the updates of the state, and the error entry
that CONFIGURE takes. -/

namespace Sys2Proof.Machine

/-! Plane memory (20_memory.md R60 to R62). -/

/-- The byte at an address: the one last written, or what an unwritten address holds (entry 2). -/
def memByte : List Host.Cell → Nat → Byte
  | [], _ => Config.unwrittenByte
  | (k, b) :: rest, a => if k = a then b else memByte rest a

/-- Entries from address `lo` on, strictly rising, inside plane memory, none equal to what an unlisted address reads as. -/
def memWfFrom : Nat → List Host.Cell → Bool
  | _, [] => true
  | lo, (a, b) :: rest =>
    decide (lo ≤ a) && decide (a < Config.planeMemoryEnd) && b != Config.unwrittenByte && memWfFrom (a + 1) rest

/-- The canonical form of plane memory. -/
def Memory.wf (m : List Host.Cell) : Bool := memWfFrom 0 m

/-- An entry for a byte that differs from what an unlisted address reads as, else nothing. -/
def memEntry (a : Nat) (b : Byte) (rest : List Host.Cell) : List Host.Cell :=
  if b = Config.unwrittenByte then rest else (a, b) :: rest

/-- The entries of the other addresses. -/
def memErase (m : List Host.Cell) (a : Nat) : List Host.Cell := m.filter fun cell => cell.1 != a

/-- Store one byte: the address's entry is replaced and no other byte changes (20_memory.md R60). It keeps the canonical
form. -/
def memSet : List Host.Cell → Nat → Byte → List Host.Cell
  | [], a, b => memEntry a b []
  | (k, c) :: rest, a, b =>
    if a = k then memSet rest a b
    else if a < k then memEntry a b ((k, c) :: memErase rest a)
    else (k, c) :: memSet rest a b

/-- MemRead(addr, n), little-endian (20_memory.md R61). -/
def memRead (m : List Host.Cell) : Nat → Nat → Nat
  | _, 0 => 0
  | a, n + 1 => (memByte m a).toNat + 256 * memRead m (a + 1) n

/-- MemWrite(addr, n, v), little-endian (20_memory.md R62). -/
def memWrite : List Host.Cell → Nat → Nat → Nat → List Host.Cell
  | m, _, 0, _ => m
  | m, a, n + 1, v => memWrite (memSet m a (BitVec.ofNat 8 v)) (a + 1) n (v / 256)

/-- Copy n bytes, one byte at a time, ascending (43_dispatch.md R245). -/
def memCopy : List Host.Cell → Nat → Nat → Nat → List Host.Cell
  | m, _, _, 0 => m
  | m, src, dst, n + 1 => memCopy (memSet m dst (memByte m src)) (src + 1) (dst + 1) n

/-- Fill n bytes with zeros, ascending (41_threshold_kernel.md R183). -/
def memZero : List Host.Cell → Nat → Nat → List Host.Cell
  | m, _, 0 => m
  | m, a, n + 1 => memZero (memSet m a 0) (a + 1) n

/-- Give n bytes free values, those that exist (70_reset_and_hazards.md R301). -/
def memDraw (draw : Nat) : List Host.Cell → Nat → Nat → List Host.Cell
  | m, _, 0 => m
  | m, a, n + 1 =>
    memDraw draw (if a < Config.planeMemoryEnd then memSet m a (Config.freeByte draw a) else m) (a + 1) n

/-- The samples of n adjacent elements of es bytes from an address, zero-extended (20_memory.md R65). -/
def loadLanes (m : List Host.Cell) (es : Nat) : Nat → Nat → List Word
  | _, 0 => []
  | a, n + 1 => BitVec.ofNat 32 (memRead m a es) :: loadLanes m es (a + es) n

/-- Store adjacent samples of es bytes from an address (20_memory.md R65). -/
def storeLanes (es : Nat) : List Host.Cell → Nat → List Word → List Host.Cell
  | m, _, [] => m
  | m, a, w :: ws => storeLanes es (memWrite m a es w.toNat) (a + es) ws

/-! Updates of the state. -/

/-- The state with other plane memory. -/
def State.withMem (s : State) (m : List Host.Cell) : State := { s with mem := m }

/-- The state with another STATUS.STATE. -/
def State.withRun (s : State) (r : RunState) : State := { s with run := r }

/-- The state with another sequencer position. -/
def State.withPos (s : State) (p : Option Pos) : State := { s with pos := p }

/-- The state with other row cursors (10_state.md R36). -/
def State.withCursors (s : State) (up mid lo out : Slot) : State :=
  { s with curUp := up, curMid := mid, curLo := lo, curOut := out }

/-- The state with other sample latches. -/
def State.withSamples (s : State) (u m l : Word) : State := { s with smpU := u, smpM := m, smpL := l }

/-- The state with the sample a PIX operation returned, and its draw used. -/
def State.withPixel (s : State) (out : Word) : State := { s with smpOut := out, draws := s.draws + 1 }

/-- The state with other vector operands (10_state.md R43). -/
def State.withLanes (s : State) (u m l : List Word) : State := { s with vecU := u, vecM := m, vecLo := l }

/-- The state with the vector VPIX returned, and its draw used. -/
def State.withVector (s : State) (out : List Word) : State := { s with vecOut := out, draws := s.draws + 1 }

/-- The state with a value returned to the issuer of an operation (entry 7). -/
def State.withResult (s : State) (v : Slot) : State := { s with result := v }

/-- The state with other pending host events (entry 3). -/
def State.withInbox (s : State) (q : List Pending) : State := { s with inbox := q }

/-- The state with one draw of free values used (entry 8). -/
def State.nextDraw (s : State) : State := { s with draws := s.draws + 1 }

/-- The state with other derived constants (10_state.md R31). -/
def State.withConsts (s : State) (peak scale shift lowS highS : Word) : State :=
  { s with peak := peak, scale := scale, shift := shift, lowS := lowS, highS := highS }

/-- The descriptor of plane p (10_state.md R32). -/
def State.desc (s : State) : PlaneId → Desc
  | .y => s.descY
  | .u => s.descU
  | .v => s.descV
  | .a => s.descA

/-- The state with another descriptor of plane p. -/
def State.withDesc (s : State) (p : PlaneId) (d : Desc) : State :=
  match p with
  | .y => { s with descY := d }
  | .u => { s with descU := d }
  | .v => { s with descV := d }
  | .a => { s with descA := d }

/-! Taking an exception. -/

/-- `raise ConfigError(code)`: STATE <- ERROR, ERRCODE <- code, and nothing else changes (60_exceptions.md R280). There is
no saved counter, no vector and no return from it: only reset leaves the ERROR state (R281, R283). -/
def raiseConfigError (code : Nat) (s : State) : State :=
  { s with run := .error, errCode := BitVec.ofNat 4 code }

end Sys2Proof.Machine
end

