-- ==== Sys2Proof/WellFormed.lean ====
section
/-! DEFINITION. Which operations have an encoding: whole aligned slots, planes 0 to 2 for the colour-plane operations, and
a CMD write only when its code is not a command's (a command's write is that command). -/

namespace Sys2Proof

/-- One of the 48 slots of the register space: a multiple of 8 below 0x180 (10_state.md R22, R34). -/
def isSlotOffset (offset : Slot) : Bool := offset.toNat % 8 == 0 && offset.toNat < 0x180

/-- The command code in data written to CMD (30_encoding.md R100 F-CMD). -/
def commandCode (data : Slot) : BitVec 8 := data.setWidth 8

/-- A write that is one of the two commands (30_encoding.md R102): it is encoded as that command. -/
def isCommandWrite (offset data : Slot) : Bool :=
  offset == 0 && (commandCode data == 1 || commandCode data == 2)

/-- A plane the kernel may be given (43_dispatch.md R248). -/
def PlaneId.isColour : PlaneId → Bool
  | .a => false
  | _ => true

/-- The operations that an encoding of 30_encoding.md exists for. -/
def WellFormed : Instr → Bool
  | .wr offset data => isSlotOffset offset && !isCommandWrite offset data
  | .rd offset => isSlotOffset offset
  | .untouched p | .copy p | .process p | .kernel p => p.isColour
  | .rowScalar p _ | .rowT1 p _ | .rowT2 p _ | .rowT3 p _ | .zrow p _ => p.isColour
  | .configure | .frame | .reset | .alphaCopy => true
  | .capAuto | .capScalar | .capTier1 | .capTier2 | .capTier3 => true
  | .pixU8 | .pixU16b10 | .pixU16b12 | .pixU16b14 | .pixU16b16 | .pixF32 => true
  | .validate | .resolve | .derive | .vpix => true

end Sys2Proof
end

