-- ==== Sys2Proof/Machine/Operands.lean ====
section
/-! DEFINITION. Operand forms: the register behind a slot offset and its access class, the planes of a frame and their modes,
sample addresses and footprints, the validity of descriptors, and the lane operands of the pixel operations. -/

namespace Sys2Proof.Machine

/-! Register slots (10_state.md R22). -/

/-- The registers of the register file, and the reserved slots. -/
inductive Reg where
  | cmd | status | caps
  | thrLow | thrHigh | modeY | modeU | modeV | capReq | fmt
  | peak | scale | shift | lowS | highS
  | reserved
  | srcBase (p : PlaneId) | dstBase (p : PlaneId) | srcPitch (p : PlaneId) | dstPitch (p : PlaneId)
  | width (p : PlaneId) | height (p : PlaneId)
deriving DecidableEq, Repr

/-- The access classes of 10_state.md R22; reserved slots behave as read-only (R34). -/
inductive Access where
  | readOnly | writeOnly | whileUnconfigured | unlessBusy
deriving DecidableEq, Repr

/-- The plane whose descriptor block has this number, (n - 16) / 8. -/
def planeOfBlock : Nat → PlaneId
  | 0 => .y
  | 1 => .u
  | 2 => .v
  | _ => .a

/-- The register in slot k of plane p's descriptor block. -/
def descReg (p : PlaneId) : Nat → Reg
  | 0 => .srcBase p
  | 1 => .dstBase p
  | 2 => .srcPitch p
  | 3 => .dstPitch p
  | 4 => .width p
  | 5 => .height p
  | _ => .reserved

/-- The register in slot n, n below 48 (10_state.md R22). -/
def regOfSlot : Nat → Reg
  | 0 => .cmd
  | 1 => .status
  | 2 => .caps
  | 3 => .thrLow
  | 4 => .thrHigh
  | 5 => .modeY
  | 6 => .modeU
  | 7 => .modeV
  | 8 => .capReq
  | 9 => .fmt
  | 10 => .peak
  | 11 => .scale
  | 12 => .shift
  | 13 => .lowS
  | 14 => .highS
  | 15 => .reserved
  | n => descReg (planeOfBlock ((n - 16) / 8)) ((n - 16) % 8)

/-- The register at a byte offset, none outside the register space (10_state.md R34). -/
def regAt (offset : Slot) : Option Reg :=
  if isSlotOffset offset then some (regOfSlot (offset.toNat / 8)) else none

/-- The access class of a register (10_state.md R22). -/
def accessOf : Reg → Access
  | .cmd => .writeOnly
  | .status | .caps | .peak | .scale | .shift | .lowS | .highS | .reserved => .readOnly
  | .thrLow | .thrHigh | .modeY | .modeU | .modeV | .capReq | .fmt => .whileUnconfigured
  | .srcBase _ | .dstBase _ | .srcPitch _ | .dstPitch _ | .width _ | .height _ => .unlessBusy

/-- What a read of a register returns, zero-extended; CMD and reserved slots read 0 (10_state.md R22, R34). -/
def readReg (s : State) : Reg → Slot
  | .cmd => 0
  | .status => (statusWord s).setWidth 64
  | .caps => (capsWord s).setWidth 64
  | .thrLow => s.thrLow.setWidth 64
  | .thrHigh => s.thrHigh.setWidth 64
  | .modeY => s.modeY.setWidth 64
  | .modeU => s.modeU.setWidth 64
  | .modeV => s.modeV.setWidth 64
  | .capReq => s.capReq.setWidth 64
  | .fmt => s.fmt.setWidth 64
  | .peak => s.peak.setWidth 64
  | .scale => s.scale.setWidth 64
  | .shift => s.shift.setWidth 64
  | .lowS => s.lowS.setWidth 64
  | .highS => s.highS.setWidth 64
  | .reserved => 0
  | .srcBase p => (s.desc p).srcBase
  | .dstBase p => (s.desc p).dstBase
  | .srcPitch p => (s.desc p).srcPitch
  | .dstPitch p => (s.desc p).dstPitch
  | .width p => (s.desc p).width.setWidth 64
  | .height p => (s.desc p).height.setWidth 64

/-- Store the low bits of the data in a register a host can write (10_state.md R22); the others keep their value. -/
def storeReg (s : State) (data : Slot) : Reg → State
  | .thrLow => { s with thrLow := data.setWidth 32 }
  | .thrHigh => { s with thrHigh := data.setWidth 32 }
  | .modeY => { s with modeY := data.setWidth 32 }
  | .modeU => { s with modeU := data.setWidth 32 }
  | .modeV => { s with modeV := data.setWidth 32 }
  | .capReq => { s with capReq := data.setWidth 32 }
  | .fmt => { s with fmt := fmtStored data }
  | .srcBase p => s.withDesc p { s.desc p with srcBase := data }
  | .dstBase p => s.withDesc p { s.desc p with dstBase := data }
  | .srcPitch p => s.withDesc p { s.desc p with srcPitch := data }
  | .dstPitch p => s.withDesc p { s.desc p with dstPitch := data }
  | .width p => s.withDesc p { s.desc p with width := data.setWidth 32 }
  | .height p => s.withDesc p { s.desc p with height := data.setWidth 32 }
  | .cmd | .status | .caps | .peak | .scale | .shift | .lowS | .highS | .reserved => s

/-- A slot write to a register other than CMD: stored where the access class and STATUS.STATE allow it, else ignored
(10_state.md R22, R33, R34). -/
def writeReg (s : State) (r : Reg) (data : Slot) : State :=
  match accessOf r with
  | .readOnly | .writeOnly => s
  | .whileUnconfigured => if s.run = .unconfigured then storeReg s data r else s
  | .unlessBusy => if s.run = .busy then s else storeReg s data r

/-! Planes and modes. -/

/-- The planes in the order the sequencer handles them (10_state.md R41). -/
def allPlanes : List PlaneId := [.y, .u, .v, .a]

/-- present(p) (43_dispatch.md R241). -/
def isPresent (s : State) : PlaneId → Bool
  | .y => true
  | .u | .v => fmtHasChroma s.fmt
  | .a => fmtHasAlpha s.fmt

/-- effmode(p) (43_dispatch.md R242). -/
def effMode (s : State) : PlaneId → Int
  | .y => s.modeY.toInt
  | .u => s.modeU.toInt
  | .v => s.modeV.toInt
  | .a => 2

/-- A present plane whose effective mode is Process or Copy: one a FRAME accesses (20_memory.md R70). -/
def isAccessed (s : State) (p : PlaneId) : Bool :=
  isPresent s p && (effMode s p == 2 || effMode s p == 3)

/-- The planes a FRAME accesses, in order. -/
def accessedPlanes (s : State) : List PlaneId := allPlanes.filter (isAccessed s)

/-- The configured sample domain (30_encoding.md R108). -/
def domainOf (s : State) : Option Domain := domainOfFmt s.fmt

/-! Sample addresses and footprints (20_memory.md R64, R66). -/

/-- SRC(p, y, x) of a descriptor, exact. -/
def srcAddr (d : Domain) (ds : Desc) (y x : Nat) : Nat :=
  ds.srcBase.toNat + y * ds.srcPitch.toNat + x * elemSize d

/-- DST(p, y, x) of a descriptor, exact. -/
def dstAddr (d : Domain) (ds : Desc) (y x : Nat) : Nat :=
  ds.dstBase.toNat + y * ds.dstPitch.toNat + x * elemSize d

/-- A footprint: `rows` rows of `len` bytes, `pitch` apart. -/
structure Foot where
  base : Nat
  pitch : Nat
  len : Nat
  rows : Nat
deriving DecidableEq, Repr

/-- The source footprint of a descriptor (20_memory.md R66). -/
def srcFoot (d : Domain) (ds : Desc) : Foot :=
  { base := ds.srcBase.toNat, pitch := ds.srcPitch.toNat, len := ds.width.toNat * elemSize d, rows := ds.height.toNat }

/-- The destination footprint of a descriptor (20_memory.md R66). -/
def dstFoot (d : Domain) (ds : Desc) : Foot :=
  { base := ds.dstBase.toNat, pitch := ds.dstPitch.toNat, len := ds.width.toNat * elemSize d, rows := ds.height.toNat }

/-- A byte address inside a footprint. -/
def Foot.contains (f : Foot) (a : Nat) : Bool :=
  (List.range f.rows).any fun y => decide (f.base + y * f.pitch ≤ a) && decide (a < f.base + y * f.pitch + f.len)

/-- Two byte ranges without a common byte. -/
def rangesApart (a la b lb : Nat) : Bool :=
  la == 0 || lb == 0 || decide (a + la ≤ b) || decide (b + lb ≤ a)

/-- Two footprints without a common byte. -/
def Foot.apart (f g : Foot) : Bool :=
  (List.range f.rows).all fun y => (List.range g.rows).all fun z =>
    rangesApart (f.base + y * f.pitch) f.len (g.base + z * g.pitch) g.len

/-- V1, V2 and V3 of 20_memory.md R70: pitches not below the row, no wrap past plane memory, natural alignment (R69). -/
def descInRange (d : Domain) (ds : Desc) : Bool :=
  let es := elemSize d
  let len := ds.width.toNat * es
  decide (len ≤ ds.srcPitch.toNat) && decide (len ≤ ds.dstPitch.toNat) &&
  (ds.height.toNat == 0 || ds.width.toNat == 0 ||
    (decide (ds.srcBase.toNat + (ds.height.toNat - 1) * ds.srcPitch.toNat + len ≤ Config.planeMemoryEnd) &&
     decide (ds.dstBase.toNat + (ds.height.toNat - 1) * ds.dstPitch.toNat + len ≤ Config.planeMemoryEnd))) &&
  ds.srcBase.toNat % es == 0 && ds.dstBase.toNat % es == 0 &&
  ds.srcPitch.toNat % es == 0 && ds.dstPitch.toNat % es == 0

/-- What 20_memory.md R70 asks of one plane by itself: V1 to V3, and V4 between its own source and destination. -/
def descValid (d : Domain) (ds : Desc) : Bool := descInRange d ds && (dstFoot d ds).apart (srcFoot d ds)

/-- V1 to V4 of 20_memory.md R70 for every plane the FRAME accesses. -/
def frameValid (d : Domain) (s : State) : Bool :=
  (accessedPlanes s).all fun p =>
    descInRange d (s.desc p) &&
    (accessedPlanes s).all fun q =>
      (dstFoot d (s.desc p)).apart (srcFoot d (s.desc q)) &&
      (p == q || (dstFoot d (s.desc p)).apart (dstFoot d (s.desc q)))

/-- A byte of a source footprint of the running FRAME. -/
def inSource (s : State) (a : Nat) : Bool :=
  match domainOf s with
  | none => false
  | some d => (accessedPlanes s).any fun p => (srcFoot d (s.desc p)).contains a

/-- A byte of a destination footprint of the running FRAME. -/
def inDestination (s : State) (a : Nat) : Bool :=
  match domainOf s with
  | none => false
  | some d => (accessedPlanes s).any fun p => (dstFoot d (s.desc p)).contains a

/-! Lane operands. -/

/-- The row cursors at row y of plane p (10_state.md R36). -/
def aimCursors (d : Domain) (p : PlaneId) (y : Nat) (s : State) : State :=
  s.withCursors (BitVec.ofNat 64 (srcAddr d (s.desc p) (y - 1) 0)) (BitVec.ofNat 64 (srcAddr d (s.desc p) y 0))
    (BitVec.ofNat 64 (srcAddr d (s.desc p) (y + 1) 0)) (BitVec.ofNat 64 (dstAddr d (s.desc p) y 0))

/-- The sample of column x of the row a cursor points to (20_memory.md R65). -/
def sampleAt (d : Domain) (s : State) (cursor : Slot) (x : Nat) : Word :=
  BitVec.ofNat 32 (memRead s.mem (cursor.toNat + x * elemSize d) (elemSize d))

/-- Read u, m and l of column x into the sample latches (41_threshold_kernel.md R171). -/
def fetchSamples (d : Domain) (x : Nat) (s : State) : State :=
  s.withSamples (sampleAt d s s.curUp x) (sampleAt d s s.curMid x) (sampleAt d s s.curLo x)

/-- Store the returned sample in column x of the output row (20_memory.md R65). -/
def storeSample (d : Domain) (x : Nat) (s : State) : State :=
  s.withMem (memWrite s.mem (s.curOut.toNat + x * elemSize d) (elemSize d) s.smpOut.toNat)

/-- Read n columns from x into the vector registers (42_vector_backends.md R216). -/
def fetchLanes (d : Domain) (x n : Nat) (s : State) : State :=
  s.withLanes (loadLanes s.mem (elemSize d) (s.curUp.toNat + x * elemSize d) n)
    (loadLanes s.mem (elemSize d) (s.curMid.toNat + x * elemSize d) n)
    (loadLanes s.mem (elemSize d) (s.curLo.toNat + x * elemSize d) n)

/-- Store the result vector from column x of the output row on (42_vector_backends.md R216). -/
def storeVector (d : Domain) (x : Nat) (s : State) : State :=
  s.withMem (storeLanes (elemSize d) s.mem (s.curOut.toNat + x * elemSize d) s.vecOut)

end Sys2Proof.Machine
end

