-- ==== Sys2Proof/Machine/Configure.lean ====
section
/-! DEFINITION. CONFIGURE and its parts VALIDATE, RESOLVE with its five request forms, and DERIVE (43_dispatch.md R230 to R236,
40_numeric_domain.md R148, 60_exceptions.md R270 to R281). -/

namespace Sys2Proof.Machine

/-- A mode value of {1, 2, 3} (30_encoding.md R105). -/
def isMode (v : Int) : Bool := v == 1 || v == 2 || v == 3

/-- A threshold in 0 .. 255 (60_exceptions.md R272). -/
def isThreshold (v : Int) : Bool := decide (0 ≤ v) && decide (v ≤ 255)

/-- What a capability request resolves to on a detected level: a backend, or the code of its error
(43_dispatch.md R235, R236). -/
def resolveRequest (req : Int) (hw : Tier) : Except Nat Tier :=
  if req = -1 then .ok hw
  else if req = 0 then .ok .scalar
  else if req = 1 then (if 1 ≤ tierCode hw then .ok .tier1 else .error 7)
  else if req = 2 then (if 2 ≤ tierCode hw then .ok .tier2 else .error 7)
  else if req = 3 then (if 3 ≤ tierCode hw then .ok .tier3 else .error 7)
  else .error 6

/-- The lowest code whose check fails, 0 when every check passes (43_dispatch.md R231, 60_exceptions.md R271 to R278). -/
def validateCode (s : State) : Nat :=
  if fmtLayout s.fmt ≠ 0 then 1
  else if !(isMode s.modeY.toInt && isMode s.modeU.toInt && isMode s.modeV.toInt) then 2
  else if !(isThreshold s.thrLow.toInt && isThreshold s.thrHigh.toInt) then 3
  else if s.thrHigh.toInt < s.thrLow.toInt then 4
  else match domainOf s with
    | none => 5
    | some _ =>
      match resolveRequest s.capReq.toInt s.hwcap with
      | .error code => code
      | .ok _ => 0

/-- The comparison bound of a threshold: threshold * SCALE, or the pattern of threshold / 255 (40_numeric_domain.md R145,
R146). -/
def boundOf (d : Domain) (threshold : Word) : Word :=
  match d with
  | .f32 => fdiv (f32OfNat threshold.toNat) f32TwoFiftyFive
  | .u8 | .u16b10 | .u16b12 | .u16b14 | .u16b16 => BitVec.ofNat 32 (threshold.toNat * scaleOf d)

/-- PEAK as the register holds it (40_numeric_domain.md R141, 10_state.md R31). -/
def peakOf (d : Domain) : Word :=
  match d with
  | .f32 => f32One
  | .u8 | .u16b10 | .u16b12 | .u16b14 | .u16b16 => BitVec.ofNat 32 (2 ^ bitDepth d - 1)

/-- SHIFT as the register holds it (40_numeric_domain.md R143, 10_state.md R31). -/
def shiftOf (d : Domain) : Word :=
  match d with
  | .f32 => 0
  | .u8 | .u16b10 | .u16b12 | .u16b14 | .u16b16 => BitVec.ofNat 32 (bitDepth d - 8)

/-- DERIVE on a validated configuration of domain d (40_numeric_domain.md R148). -/
def deriveConsts (d : Domain) (s : State) : State :=
  s.withConsts (peakOf d) (BitVec.ofNat 32 (scaleOf d)) (shiftOf d) (boundOf d s.thrLow) (boundOf d s.thrHigh)

/-- The end of a successful CONFIGURE: BACKEND, the constants, READY (43_dispatch.md R230). -/
def enterReady (d : Domain) (t : Tier) (s : State) : State :=
  { deriveConsts d s with backend := t, run := .ready }

/-- CONFIGURE (43_dispatch.md R230): ignored outside UNCONFIGURED (30_encoding.md R117); an invalid configuration takes the
configuration error; a valid one becomes READY. -/
def configureOp (s : State) : State :=
  if s.run = .unconfigured then
    (if validateCode s = 0 then
      match domainOf s, resolveRequest s.capReq.toInt s.hwcap with
      | some d, .ok t => enterReady d t s
      | _, _ => s
    else raiseConfigError (validateCode s) s)
  else s

/-- A part of CONFIGURE requested by itself is ignored outside UNCONFIGURED, as CONFIGURE is (30_encoding.md R117; DESIGN
CHOICE, unsafe: the spec performs the parts only inside CONFIGURE; entry 10). -/
def whileUnconfigured (op : State → State) (s : State) : Host.Outcome State Fault Refusal :=
  .next (if s.run = .unconfigured then op s else s)

/-- A capability request: it returns the level, or takes the configuration error (43_dispatch.md R235, R236,
60_exceptions.md R275, R276; entry 11). -/
def resolveOp (req : Int) (s : State) : State :=
  match resolveRequest req s.hwcap with
  | .ok t => s.withResult (BitVec.ofNat 64 (tierCode t))
  | .error code => raiseConfigError code s

/-- DERIVE requested by itself: on a configuration that fails VALIDATE the spec states no constants, and the five registers
take free values (40_numeric_domain.md R148; entry 10). -/
def deriveOp (s : State) : State :=
  match domainOf s, validateCode s with
  | some d, 0 => deriveConsts d s
  | _, _ =>
    (s.withConsts (Config.freeWord s.draws 0) (Config.freeWord s.draws 1) (Config.freeWord s.draws 2)
      (Config.freeWord s.draws 3) (Config.freeWord s.draws 4)).nextDraw

/-- CONFIGURE (43_dispatch.md R230). -/
def execConfigure (s : State) : Host.Outcome State Fault Refusal := .next (configureOp s)

/-- VALIDATE: it returns the code and changes no register (43_dispatch.md R231). -/
def execValidate (s : State) : Host.Outcome State Fault Refusal :=
  whileUnconfigured (fun t => t.withResult (BitVec.ofNat 64 (validateCode t))) s

/-- RESOLVE with the request of CAP_REQ (43_dispatch.md R235). -/
def execResolve (s : State) : Host.Outcome State Fault Refusal := whileUnconfigured (resolveOp s.capReq.toInt) s

/-- DERIVE (40_numeric_domain.md R148). -/
def execDerive (s : State) : Host.Outcome State Fault Refusal := whileUnconfigured deriveOp s

/-- CAP.AUTO (43_dispatch.md R235). -/
def execCapAuto (s : State) : Host.Outcome State Fault Refusal := whileUnconfigured (resolveOp (-1)) s

/-- CAP.SCALAR (43_dispatch.md R235). -/
def execCapScalar (s : State) : Host.Outcome State Fault Refusal := whileUnconfigured (resolveOp 0) s

/-- CAP.TIER1 (43_dispatch.md R235). -/
def execCapTier1 (s : State) : Host.Outcome State Fault Refusal := whileUnconfigured (resolveOp 1) s

/-- CAP.TIER2 (43_dispatch.md R235). -/
def execCapTier2 (s : State) : Host.Outcome State Fault Refusal := whileUnconfigured (resolveOp 2) s

/-- CAP.TIER3 (43_dispatch.md R235). -/
def execCapTier3 (s : State) : Host.Outcome State Fault Refusal := whileUnconfigured (resolveOp 3) s

end Sys2Proof.Machine
end

