-- ==== Sys2Proof/Machine/Pixel.lean ====
section
/-! DEFINITION. The pixel operations PIX.U8, PIX.U16 and PIX.F32 and the lane-group operation VPIX (40_numeric_domain.md R150
to R163, 41_threshold_kernel.md R172 to R180, 42_vector_backends.md R215). -/

namespace Sys2Proof.Machine

/-- asr(a, k) = floor(a / 2^k) (00_scope.md R11). -/
def asr (a : Int) (k : Nat) : Int := a / 2 ^ k

/-- clamp(v, lo, hi) (00_scope.md R11). -/
def clampInt (v lo hi : Int) : Int := min (max v lo) hi

/-- The exact scaled product of a pixel of the integer domains: asr((u - m)(l - m), SHIFT) (40_numeric_domain.md R150 to
R152). -/
def prodInt (shift : Nat) (u m l : Nat) : Int :=
  asr (((u : Int) - m) * ((l : Int) - m)) shift

/-- The three-way select of the integer domains, tested in this order, both comparisons strict: ZERO, PEAK, RAMP
(41_threshold_kernel.md R172, 40_numeric_domain.md R153, R154). -/
def selectInt (peak low high prod : Int) : Int :=
  if prod < low then 0 else if high < prod then peak else asr prod 8

/-- PIX of an integer domain of depth b on container values: PEAK = 2^b - 1, SHIFT = b - 8 (41_threshold_kernel.md R174,
R175; U8 is b = 8, 40_numeric_domain.md R140), closed by sat_peak (40_numeric_domain.md R156). -/
def pixInt (b low high u m l : Nat) : Nat :=
  let peak : Int := 2 ^ b - 1
  (clampInt (selectInt peak low high (prodInt (b - 8) u m l)) 0 peak).toNat

/-- PIX.F32 of samples in the domain of 41_threshold_kernel.md R178. `free` supplies the one open bit: the sign of a ramp
result whose product is -0.0 (40_numeric_domain.md R162, U3; entry 8). -/
def pixFloat (low high u m l free : Word) : Word :=
  let prod := fmul (fmul (fsub u m) (fsub l m)) f32TwoFiftyFive
  if flt prod low then 0
  else if fgt prod high then f32One
  else if prod = 0x80000000 then (if free.getLsbD 31 then 0x80000000 else 0)
  else fclamp01 (fdiv prod f32TwoFiftyFive)

/-- PIX.F32: a pixel whose neighbourhood holds a NaN, an infinity or a magnitude above 2^126 stores a free value
(41_threshold_kernel.md R180, U2; entry 8). -/
def pixF32Value (low high u m l free : Word) : Word :=
  if f32OutOfDomain u || f32OutOfDomain m || f32OutOfDomain l then free else pixFloat low high u m l free

/-- The pixel operation of a domain on samples as read: the containers are 1, 2 or 4 bytes wide, not masked to b bits
(20_memory.md R65, 41_threshold_kernel.md R176). -/
def pix (d : Domain) (low high u m l free : Word) : Word :=
  match d with
  | .f32 => pixF32Value low high u m l free
  | .u8 | .u16b10 | .u16b12 | .u16b14 | .u16b16 =>
    let width := 2 ^ (8 * elemSize d)
    BitVec.ofNat 32
      (pixInt (bitDepth d) low.toNat high.toNat (u.toNat % width) (m.toNat % width) (l.toNat % width))

/-- A pixel operation on the sample latches, with the bounds LOW_S and HIGH_S; it returns its sample in smpOut. -/
def pixOp (d : Domain) (s : State) : State :=
  s.withPixel (pix d s.lowS s.highS s.smpU s.smpM s.smpL (Config.freeWord s.draws 0))

/-- PIX in every lane, independently (42_vector_backends.md R215); lane j draws free value j. -/
def pixLanes (d : Domain) (low high : Word) (draw : Nat) : Nat → List Word → List Word → List Word → List Word
  | j, u :: us, m :: ms, l :: ls =>
    pix d low high u m l (Config.freeWord draw j) :: pixLanes d low high draw (j + 1) us ms ls
  | _, _, _, _ => []

/-- VPIX on the vector registers. -/
def vpixOp (d : Domain) (s : State) : State :=
  s.withVector (pixLanes d s.lowS s.highS s.draws 0 s.vecU s.vecM s.vecLo)

/-- PIX.U8 (41_threshold_kernel.md R174). -/
def execPixU8 (s : State) : Host.Outcome State Fault Refusal := .next (pixOp .u8 s)

/-- PIX.U16 with b = 10 (41_threshold_kernel.md R175). -/
def execPixU16b10 (s : State) : Host.Outcome State Fault Refusal := .next (pixOp .u16b10 s)

/-- PIX.U16 with b = 12 (41_threshold_kernel.md R175). -/
def execPixU16b12 (s : State) : Host.Outcome State Fault Refusal := .next (pixOp .u16b12 s)

/-- PIX.U16 with b = 14 (41_threshold_kernel.md R175). -/
def execPixU16b14 (s : State) : Host.Outcome State Fault Refusal := .next (pixOp .u16b14 s)

/-- PIX.U16 with b = 16 (41_threshold_kernel.md R175). -/
def execPixU16b16 (s : State) : Host.Outcome State Fault Refusal := .next (pixOp .u16b16 s)

/-- PIX.F32 (41_threshold_kernel.md R178, R180). -/
def execPixF32 (s : State) : Host.Outcome State Fault Refusal := .next (pixOp .f32 s)

/-- VPIX with the pixel operation of the configured domain (42_vector_backends.md R215). -/
def execVpix (s : State) : Host.Outcome State Fault Refusal :=
  match domainOf s with
  | none => .refused .noSampleDomain
  | some d => .next (vpixOp d s)

end Sys2Proof.Machine
end

