-- ==== Sys2Proof/Machine/Row.lean ====
section
/-! DEFINITION. One row and one plane of the threshold kernel: ROW.SCALAR, ROW.T1 to ROW.T3, ZROW, KERNEL
(41_threshold_kernel.md R182 to R186, 42_vector_backends.md R213 to R219). -/

namespace Sys2Proof.Machine

/-- Column x of interior row y: read u, m, l, apply PIX, write (41_threshold_kernel.md R182). -/
def maskPixel (d : Domain) (p : PlaneId) (y x : Nat) (s : State) : State :=
  storeSample d x (pixOp d (fetchSamples d x (aimCursors d p y s)))

/-- The lane group of n columns from x of interior row y (42_vector_backends.md R216). -/
def maskGroup (d : Domain) (p : PlaneId) (y x n : Nat) (s : State) : State :=
  storeVector d x (vpixOp d (fetchLanes d x n (aimCursors d p y s)))

/-- n columns from x on, one sample at a time, ascending. -/
def maskPixels (d : Domain) (p : PlaneId) (y : Nat) : Nat → Nat → State → State
  | _, 0, s => s
  | x, n + 1, s => maskPixels d p y (x + 1) n (maskPixel d p y x s)

/-- k lane groups of n columns from x on, ascending. -/
def maskGroups (d : Domain) (p : PlaneId) (y n : Nat) : Nat → Nat → State → State
  | _, 0, s => s
  | x, k + 1, s => maskGroups d p y n (x + n) k (maskGroup d p y x n s)

/-- The row operation of a backend: full lane groups, then the remainder on the scalar path (41_threshold_kernel.md R182,
42_vector_backends.md R214, R216, R217). -/
def rowOp (t : Tier) (d : Domain) (p : PlaneId) (y : Nat) (s : State) : State :=
  let w := (s.desc p).width.toNat
  match t with
  | .scalar => maskPixels d p y 0 w s
  | .tier1 | .tier2 | .tier3 =>
    let n := laneCount t d
    maskPixels d p y (w / n * n) (w % n) (maskGroups d p y n 0 (w / n) s)

/-- ZROW: every destination sample of the row is zero (41_threshold_kernel.md R183). -/
def zrowOp (d : Domain) (p : PlaneId) (y : Nat) (s : State) : State :=
  s.withMem (memZero s.mem (dstAddr d (s.desc p) y 0) ((s.desc p).width.toNat * elemSize d))

/-- n interior rows from y on, ascending, with the resolved backend (41_threshold_kernel.md R184). -/
def maskRows (d : Domain) (p : PlaneId) : Nat → Nat → State → State
  | _, 0, s => s
  | y, n + 1, s => maskRows d p (y + 1) n (rowOp s.backend d p y s)

/-- KERNEL of a plane with H >= 1 and W >= 1 (41_threshold_kernel.md R184, R186). -/
def kernelOp (d : Domain) (p : PlaneId) (s : State) : State :=
  let h := (s.desc p).height.toNat
  let interior := maskRows d p 1 (h - 2) (zrowOp d p 0 s)
  if 2 ≤ h then zrowOp d p (h - 1) interior else interior

/-- An operation on a plane: no access when the plane is empty (41_threshold_kernel.md R186); otherwise it needs a sample
domain (30_encoding.md R108) and a valid descriptor (20_memory.md R70, R71). It does not ask whether the plane is present: that
COPY, PROCESS, KERNEL, ZROW and the row forms requested by themselves run on an absent plane's descriptor, to which R64 gives no
addresses and which 43_dispatch.md R241 never reads, is the model's choice (DESIGN CHOICE, entry 30). -/
def onPlane (p : PlaneId) (op : Domain → Host.Outcome State Fault Refusal) (s : State) : Host.Outcome State Fault Refusal :=
  if (s.desc p).width = 0 ∨ (s.desc p).height = 0 then .next s
  else match domainOf s with
    | none => .refused .noSampleDomain
    | some d => if descValid d (s.desc p) then op d else .refused .descriptorOutsideContract

/-- An operation on a plane the kernel may be given (43_dispatch.md R248). -/
def onColourPlane (p : PlaneId) (op : Domain → Host.Outcome State Fault Refusal) (s : State) :
    Host.Outcome State Fault Refusal :=
  if p.isColour then onPlane p op s else .refused .notAColourPlane

/-- A row form on an interior row, 1 <= y <= H - 2 (41_threshold_kernel.md R182). -/
def rowForm (t : Tier) (p : PlaneId) (y : Word) (s : State) : Host.Outcome State Fault Refusal :=
  onColourPlane p
    (fun d =>
      if 1 ≤ y.toNat ∧ y.toNat + 2 ≤ (s.desc p).height.toNat then .next (rowOp t d p y.toNat s)
      else .refused .rowOutOfRange) s

/-- ROW.SCALAR (41_threshold_kernel.md R182). -/
def execRowScalar (p : PlaneId) (y : Word) (s : State) : Host.Outcome State Fault Refusal := rowForm .scalar p y s

/-- ROW.T1 (42_vector_backends.md R216). -/
def execRowT1 (p : PlaneId) (y : Word) (s : State) : Host.Outcome State Fault Refusal := rowForm .tier1 p y s

/-- ROW.T2 (42_vector_backends.md R216). -/
def execRowT2 (p : PlaneId) (y : Word) (s : State) : Host.Outcome State Fault Refusal := rowForm .tier2 p y s

/-- ROW.T3 (42_vector_backends.md R216). -/
def execRowT3 (p : PlaneId) (y : Word) (s : State) : Host.Outcome State Fault Refusal := rowForm .tier3 p y s

/-- ZROW on a border row, row 0 or row H - 1 (41_threshold_kernel.md R183). -/
def execZrow (p : PlaneId) (y : Word) (s : State) : Host.Outcome State Fault Refusal :=
  onColourPlane p
    (fun d =>
      if y = 0 ∨ y.toNat + 1 = (s.desc p).height.toNat then .next (zrowOp d p y.toNat s)
      else .refused .rowOutOfRange) s

/-- KERNEL (41_threshold_kernel.md R184; on an absent chroma plane: entry 30). -/
def execKernel (p : PlaneId) (s : State) : Host.Outcome State Fault Refusal :=
  onColourPlane p (fun d => .next (kernelOp d p s)) s

end Sys2Proof.Machine
end

