-- ==== Sys2Proof/Machine/Plane.lean ====
section
/-! DEFINITION. The plane operations PROCESS, COPY, UNTOUCHED and ALPHA.COPY (43_dispatch.md R243 to R248). -/

namespace Sys2Proof.Machine

/-- Copy row y of a plane, WIDTH * ES bytes, byte by byte (43_dispatch.md R245). -/
def copyRow (d : Domain) (p : PlaneId) (y : Nat) (s : State) : State :=
  s.withMem (memCopy s.mem (srcAddr d (s.desc p) y 0) (dstAddr d (s.desc p) y 0) ((s.desc p).width.toNat * elemSize d))

/-- Copy n rows from y on, ascending. -/
def copyRows (d : Domain) (p : PlaneId) : Nat → Nat → State → State
  | _, 0, s => s
  | y, n + 1, s => copyRows d p (y + 1) n (copyRow d p y s)

/-- COPY of a plane (43_dispatch.md R245). -/
def copyOp (d : Domain) (p : PlaneId) (s : State) : State := copyRows d p 0 (s.desc p).height.toNat s

/-- PROCESS: KERNEL of the plane (43_dispatch.md R243; on an absent chroma plane: entry 30). -/
def execProcess (p : PlaneId) (s : State) : Host.Outcome State Fault Refusal :=
  onColourPlane p (fun d => .next (kernelOp d p s)) s

/-- COPY (43_dispatch.md R245; on an absent plane: entry 30). -/
def execCopy (p : PlaneId) (s : State) : Host.Outcome State Fault Refusal :=
  onPlane p (fun d => .next (copyOp d p s)) s

/-- UNTOUCHED: no access to the plane; its descriptor is not read (43_dispatch.md R246; UNTOUCHED_POLICY is LEAVE, entry
18). Alpha can never be left untouched (R247). -/
def execUntouched (p : PlaneId) (s : State) : Host.Outcome State Fault Refusal :=
  if p.isColour then .next s else .refused .notAColourPlane

/-- ALPHA.COPY: COPY(3) when the alpha plane is present, no access when it is not (43_dispatch.md R241, R247;
DEDUCED, entry 30). -/
def execAlphaCopy (s : State) : Host.Outcome State Fault Refusal :=
  if isPresent s .a then onPlane .a (fun d => .next (copyOp d .a s)) s else .next s

end Sys2Proof.Machine
end

