-- ==== Sys2Proof/Machine/Frame.lean ====
section
/-! DEFINITION. The FRAME command and the sequencer that runs it, one lane group, border group or copied row a step
(10_state.md R40, R41, R45; 43_dispatch.md R240 to R250; 70_reset_and_hazards.md R307). -/

namespace Sys2Proof.Machine

/-- The planes after p, in order (10_state.md R41). -/
def planesAfter : PlaneId → List PlaneId
  | .y => [.u, .v, .a]
  | .u => [.v, .a]
  | .v => [.a]
  | .a => []

/-- A plane that a FRAME accesses and that is not empty (41_threshold_kernel.md R186, 43_dispatch.md R245). -/
def hasWork (s : State) (p : PlaneId) : Bool :=
  isAccessed s p && (s.desc p).width != 0 && (s.desc p).height != 0

/-- The first position of the first of these planes that has work; none when the FRAME has nothing more to do. -/
def firstPos (s : State) (planes : List PlaneId) : Option Pos :=
  ((planes.filter (hasWork s)).head?).map fun p => { plane := p, row := 0, col := 0 }

/-- Go to a position: BUSY there, or the FRAME is complete, pos IDLE and STATE READY (10_state.md R41, R45). -/
def goTo (s : State) (next : Option Pos) : State :=
  (s.withPos next).withRun (if next.isSome then .busy else .ready)

/-- FRAME (43_dispatch.md R240): ignored outside READY (30_encoding.md R117). The acceptance and BUSY are one step
(70_reset_and_hazards.md R307); a FRAME with nothing to do is complete at once (entry 14). Descriptors that break V1 to V4
put it outside the contract (20_memory.md R71). -/
def frameOp (s : State) : Host.Outcome State Fault Refusal :=
  if s.run = .ready then
    match domainOf s with
    | none => .refused .noSampleDomain
    | some d =>
      if frameValid d s then .next (goTo s (firstPos s allPlanes)) else .refused .descriptorOutsideContract
  else .next s

/-- FRAME (43_dispatch.md R240). -/
def execFrame (s : State) : Host.Outcome State Fault Refusal := frameOp s

/-- How many columns the sequencer handles at column x: a full lane group where one fits, else one (10_state.md R41,
42_vector_backends.md R214). -/
def groupWidth (t : Tier) (d : Domain) (w x : Nat) : Nat :=
  if x + laneCount t d ≤ w then laneCount t d else 1

/-- The n columns from x of row y of a plane in Process mode: zeros on a border row, the pixel operation elsewhere, by lane
group where it is one (41_threshold_kernel.md R183, R184; 42_vector_backends.md R216, R219). -/
def processGroup (d : Domain) (p : PlaneId) (y x n : Nat) (s : State) : State :=
  if y = 0 ∨ y + 1 = (s.desc p).height.toNat then
    s.withMem (memZero s.mem (dstAddr d (s.desc p) y x) (n * elemSize d))
  else if s.backend = .scalar ∨ n = 1 then maskPixels d p y x n s
  else maskGroup d p y x n s

/-- The position after row y of plane p. -/
def afterRow (s : State) (p : PlaneId) (y : Nat) : Option Pos :=
  if y + 1 < (s.desc p).height.toNat then some { plane := p, row := y + 1, col := 0 }
  else firstPos s (planesAfter p)

/-- The position after n columns from x of row y of plane p. -/
def afterColumns (s : State) (p : PlaneId) (y x n : Nat) : Option Pos :=
  if x + n < (s.desc p).width.toNat then some { plane := p, row := y, col := x + n } else afterRow s p y

/-- One step of the sequencer at a position (10_state.md R40, R41). A plane that is not accessed, or a position past the
plane's end (neither is ever reached), moves on without an access. -/
def sequencerAt (d : Domain) (q : Pos) (s : State) : State :=
  let p := q.plane
  let w := (s.desc p).width.toNat
  if q.row < (s.desc p).height.toNat ∧ q.col < w ∧ effMode s p = 3 then
    let n := groupWidth s.backend d w q.col
    goTo (processGroup d p q.row q.col n s) (afterColumns s p q.row q.col n)
  else if q.row < (s.desc p).height.toNat ∧ effMode s p = 2 then
    goTo (copyRow d p q.row s) (afterRow s p q.row)
  else goTo s (firstPos s (planesAfter p))

/-- One step of the sequencer: nothing unless BUSY. Every position is checked to lie in plane memory (20_memory.md R61, R62,
R71); the descriptors were checked when the FRAME was accepted and are locked since (70_reset_and_hazards.md R312). -/
def sequencerStep (s : State) : Host.Outcome State Fault Refusal :=
  if s.run = .busy then
    match s.pos, domainOf s with
    | none, _ => .next (goTo s none)
    | some _, none => .refused .noSampleDomain
    | some q, some d =>
      if descInRange d (s.desc q.plane) then .next (sequencerAt d q s) else .refused .descriptorOutsideContract
  else .next s

end Sys2Proof.Machine
end

