-- ==== Sys2Proof/Machine/Registers.lean ====
section
/-! DEFINITION. The register accesses WR and RD (10_state.md R22, R23, R33, R34; 30_encoding.md R101, R117). -/

namespace Sys2Proof.Machine

/-- A write to CMD: the two commands; every other code is ignored (10_state.md R23, 30_encoding.md R117). -/
def writeCommand (data : Slot) (s : State) : Host.Outcome State Fault Refusal :=
  if commandCode data = 1 then .next (configureOp s)
  else if commandCode data = 2 then frameOp s
  else .next s

/-- WR (10_state.md R22). -/
def execWr (offset data : Slot) (s : State) : Host.Outcome State Fault Refusal :=
  match regAt offset with
  | none => .refused .outsideRegisterSpace
  | some .cmd => writeCommand data s
  | some r => .next (writeReg s r data)

/-- RD: the value goes to the host and no register changes (10_state.md R22, R34). -/
def execRd (offset : Slot) (s : State) : Host.Outcome State Fault Refusal :=
  match regAt offset with
  | none => .refused .outsideRegisterSpace
  | some r => .next (s.withResult (readReg s r))

end Sys2Proof.Machine
end

