-- ==== Sys2Proof/Machine/Reset.lean ====
section
/-! DEFINITION. The RESET event (70_reset_and_hazards.md R300 to R303). -/

namespace Sys2Proof.Machine

/-- Free values for n rows of a footprint from row y on. -/
def drawRows (draw : Nat) (f : Foot) : Nat → Nat → List Host.Cell → List Host.Cell
  | _, 0, m => m
  | y, n + 1, m => drawRows draw f (y + 1) n (memDraw draw m (f.base + y * f.pitch) f.len)

/-- Free values for every byte of these footprints. -/
def drawFoots (draw : Nat) : List Foot → List Host.Cell → List Host.Cell
  | [], m => m
  | f :: fs, m => drawFoots draw fs (drawRows draw f 0 f.rows m)

/-- Plane memory after reset: a FRAME in progress leaves every byte of its destination footprints open; all other memory
is unchanged (70_reset_and_hazards.md R301, R302). -/
def memAfterReset (s : State) : List Host.Cell :=
  match s.run, domainOf s with
  | .busy, some d => drawFoots s.draws ((accessedPlanes s).map fun p => dstFoot d (s.desc p)) s.mem
  | _, _ => s.mem

/-- The state after the reset input: every register 0, pos IDLE, UNCONFIGURED; the straps are kept, the internal working
registers are unspecified (free values, entry 9), and the host's own fields go on (70_reset_and_hazards.md R300 to R302). -/
def resetOp (s : State) : State :=
  { State.reset with
    hwcap := s.hwcap, threadClass := s.threadClass
    curUp := Config.freeCursor s.draws 0, curMid := Config.freeCursor s.draws 1
    curLo := Config.freeCursor s.draws 2, curOut := Config.freeCursor s.draws 3
    smpU := Config.freeWord s.draws 0, smpM := Config.freeWord s.draws 1
    smpL := Config.freeWord s.draws 2, smpOut := Config.freeWord s.draws 3
    vecU := Config.freeLanes s.draws 0, vecM := Config.freeLanes s.draws 1
    vecLo := Config.freeLanes s.draws 2, vecOut := Config.freeLanes s.draws 3
    mem := memAfterReset s
    result := s.result, inbox := s.inbox, draws := s.draws + 1 }

/-- RESET (70_reset_and_hazards.md R300). -/
def execReset (s : State) : Host.Outcome State Fault Refusal := .next (resetOp s)

end Sys2Proof.Machine
end

