-- ==== Sys2Proof/Machine/Dispatch.lean ====
section
/-! DEFINITION. One arm per constructor of Instr, each one direct call of its meaning. -/

namespace Sys2Proof.Machine

def exec (i : Instr) (s : State) : Host.Outcome State Fault Refusal :=
  match i with
  | .configure => Sys2Proof.Machine.execConfigure s
  | .frame => Sys2Proof.Machine.execFrame s
  | .reset => Sys2Proof.Machine.execReset s
  | .wr offset data => Sys2Proof.Machine.execWr offset data s
  | .rd offset => Sys2Proof.Machine.execRd offset s
  | .untouched p => Sys2Proof.Machine.execUntouched p s
  | .copy p => Sys2Proof.Machine.execCopy p s
  | .process p => Sys2Proof.Machine.execProcess p s
  | .alphaCopy => Sys2Proof.Machine.execAlphaCopy s
  | .capAuto => Sys2Proof.Machine.execCapAuto s
  | .capScalar => Sys2Proof.Machine.execCapScalar s
  | .capTier1 => Sys2Proof.Machine.execCapTier1 s
  | .capTier2 => Sys2Proof.Machine.execCapTier2 s
  | .capTier3 => Sys2Proof.Machine.execCapTier3 s
  | .pixU8 => Sys2Proof.Machine.execPixU8 s
  | .pixU16b10 => Sys2Proof.Machine.execPixU16b10 s
  | .pixU16b12 => Sys2Proof.Machine.execPixU16b12 s
  | .pixU16b14 => Sys2Proof.Machine.execPixU16b14 s
  | .pixU16b16 => Sys2Proof.Machine.execPixU16b16 s
  | .pixF32 => Sys2Proof.Machine.execPixF32 s
  | .rowScalar p y => Sys2Proof.Machine.execRowScalar p y s
  | .rowT1 p y => Sys2Proof.Machine.execRowT1 p y s
  | .rowT2 p y => Sys2Proof.Machine.execRowT2 p y s
  | .rowT3 p y => Sys2Proof.Machine.execRowT3 p y s
  | .validate => Sys2Proof.Machine.execValidate s
  | .resolve => Sys2Proof.Machine.execResolve s
  | .derive => Sys2Proof.Machine.execDerive s
  | .kernel p => Sys2Proof.Machine.execKernel p s
  | .zrow p y => Sys2Proof.Machine.execZrow p y s
  | .vpix => Sys2Proof.Machine.execVpix s

end Sys2Proof.Machine
end

