-- ==== Sys2Proof/Decode.lean ====
section
/-! DEFINITION. The decoder, total on requests and rejecting by name (30_encoding.md R110, R111), the encoder of the
well-formed operations, and the request a word of spec/opcode_table.json stands for. -/

namespace Sys2Proof

/-- Plane operations: a mode value compared as a signed 32-bit integer (30_encoding.md R105). -/
def decodeMode (p : PlaneId) (word : Word) : Except DecodeError Instr :=
  if word.toInt = 1 then .ok (.untouched p)
  else if word.toInt = 2 then .ok (.copy p)
  else if word.toInt = 3 then .ok (.process p)
  else .error .noOperationSelected

/-- Capability request forms (30_encoding.md R106). -/
def decodeCap (word : Word) : Except DecodeError Instr :=
  if word.toInt = -1 then .ok .capAuto
  else if word.toInt = 0 then .ok .capScalar
  else if word.toInt = 1 then .ok .capTier1
  else if word.toInt = 2 then .ok .capTier2
  else if word.toInt = 3 then .ok .capTier3
  else .error .noOperationSelected

/-- Pixel operations: FMT bits 8 to 0, FLOAT and BITS, whatever LAYOUT holds (30_encoding.md R108, R110 (e); the opcode table's
wider mask: entry 28). -/
def decodePixel (word : Word) : Except DecodeError Instr :=
  match (word.setWidth 9).toNat with
  | 0x008 => .ok .pixU8
  | 0x00A => .ok .pixU16b10
  | 0x00C => .ok .pixU16b12
  | 0x00E => .ok .pixU16b14
  | 0x010 => .ok .pixU16b16
  | 0x120 => .ok .pixF32
  | _ => .error .noOperationSelected

/-- Row forms: STATUS.BACKEND, bits 3 and 2 (30_encoding.md R110 (f)). -/
def decodeRow (word : Word) (p : PlaneId) (y : Word) : Except DecodeError Instr :=
  if p.isColour then
    match (word.extractLsb' 2 2).toNat with
    | 0 => .ok (.rowScalar p y)
    | 1 => .ok (.rowT1 p y)
    | 2 => .ok (.rowT2 p y)
    | _ => .ok (.rowT3 p y)
  else .error .notAColourPlane

/-- The five small tables of 30_encoding.md R111, keyed by the selecting register's offset. -/
def decodeSelect (offset : Slot) (word : Word) (p : PlaneId) (y : Word) : Except DecodeError Instr :=
  match offset.toNat with
  | 0x008 => decodeRow word p y
  | 0x028 => decodeMode .y word
  | 0x030 => decodeMode .u word
  | 0x038 => decodeMode .v word
  | 0x040 => decodeCap word
  | 0x048 => decodePixel word
  | _ => .error .noOperationSelected

/-- The operations without a selecting field (30_encoding.md R110 (g)). -/
def decodeFixed (op : FixedOp) (p : PlaneId) (y : Word) : Except DecodeError Instr :=
  match op with
  | .alphaCopy => .ok .alphaCopy
  | .validate => .ok .validate
  | .resolve => .ok .resolve
  | .derive => .ok .derive
  | .vpix => .ok .vpix
  | .kernel => if p.isColour then .ok (.kernel p) else .error .notAColourPlane
  | .zrow => if p.isColour then .ok (.zrow p y) else .error .notAColourPlane

/-- A slot write; a command code in CMD is the command (30_encoding.md R102, R120). -/
def decodeWrite (offset data : Slot) : Except DecodeError Instr :=
  if isSlotOffset offset then
    if isCommandWrite offset data then
      (if commandCode data = 1 then .ok .configure else .ok .frame)
    else .ok (.wr offset data)
  else .error .outsideRegisterSpace

/-- The decoder: one operation or a refusal for every request. -/
def decode : Request → Except DecodeError Instr
  | .write offset data => decodeWrite offset data
  | .read offset => if isSlotOffset offset then .ok (.rd offset) else .error .outsideRegisterSpace
  | .narrow _ _ => .error .partialSlotAccess
  | .rst => .ok .reset
  | .select offset word p y => decodeSelect offset word p y
  | .fixed op p y => decodeFixed op p y

/-- The mode register that selects plane p's operation; alpha has none (10_state.md R28). -/
def modeOffset : PlaneId → Slot
  | .y => 0x028
  | .u => 0x030
  | .v => 0x038
  | .a => 0x180

/-- The request of a well-formed operation, from the encodings of 30_encoding.md R101 to R108. -/
def encode : Instr → Request
  | .configure => .write 0x000 0x01
  | .frame => .write 0x000 0x02
  | .reset => .rst
  | .wr offset data => .write offset data
  | .rd offset => .read offset
  | .untouched p => .select (modeOffset p) 1 p 0
  | .copy p => .select (modeOffset p) 2 p 0
  | .process p => .select (modeOffset p) 3 p 0
  | .alphaCopy => .fixed .alphaCopy .a 0
  | .capAuto => .select 0x040 0xFFFFFFFF .y 0
  | .capScalar => .select 0x040 0 .y 0
  | .capTier1 => .select 0x040 1 .y 0
  | .capTier2 => .select 0x040 2 .y 0
  | .capTier3 => .select 0x040 3 .y 0
  | .pixU8 => .select 0x048 0x008 .y 0
  | .pixU16b10 => .select 0x048 0x00A .y 0
  | .pixU16b12 => .select 0x048 0x00C .y 0
  | .pixU16b14 => .select 0x048 0x00E .y 0
  | .pixU16b16 => .select 0x048 0x010 .y 0
  | .pixF32 => .select 0x048 0x120 .y 0
  | .rowScalar p y => .select 0x008 0x0 p y
  | .rowT1 p y => .select 0x008 0x4 p y
  | .rowT2 p y => .select 0x008 0x8 p y
  | .rowT3 p y => .select 0x008 0xC p y
  | .validate => .fixed .validate .y 0
  | .resolve => .fixed .resolve .y 0
  | .derive => .fixed .derive .y 0
  | .kernel p => .fixed .kernel p 0
  | .zrow p y => .fixed .zrow p y
  | .vpix => .fixed .vpix .y 0

/-- A request the host can make (43_dispatch.md R252): a register access or reset. -/
def Request.isHost : Request → Bool
  | .write _ _ | .read _ | .narrow _ _ | .rst => true
  | .select _ _ _ _ | .fixed _ _ _ => false

/-- The request that a word of spec/opcode_table.json stands for. The table's words belong to different selecting
registers and carry no register number: 8-bit words are CMD codes 1 and 2, else STATUS words; 16-bit words are FMT words;
wider words are mode values 1 to 3 (of MODE_Y), else CAP_REQ words. The words of CAP.TIER1 to CAP.TIER3 are those of the
mode values and read as such here (DESIGN CHOICE, unsafe; entry 5). Operands the table gives no bits are 0. -/
def tableRequest (nbits w : Nat) : Request :=
  if nbits ≤ 8 then
    (if w = 1 ∨ w = 2 then .write 0x000 (BitVec.ofNat 64 w) else .select 0x008 (BitVec.ofNat 32 w) .y 0)
  else if nbits ≤ 16 then .select 0x048 (BitVec.ofNat 32 w) .y 0
  else if w = 1 ∨ w = 2 ∨ w = 3 then .select 0x028 (BitVec.ofNat 32 w) .y 0
  else .select 0x040 (BitVec.ofNat 32 w) .y 0

/-- The operation the decoder reads from a word of spec/opcode_table.json. -/
def decodeTableWord (nbits w : Nat) : Option Instr := (decode (tableRequest nbits w)).toOption

end Sys2Proof
end

