-- ==== Sys2Proof/Machine/HostPort.lean ====
section
/-! DEFINITION. What the host does beside the operations: it reads and writes bytes of the plane memory it owns
(20_memory.md R60, R75, R77), and its requests that select no operation are refused by name. -/

namespace Sys2Proof.Machine

/-- The refusal of a request the decoder refuses. -/
def refusalOf : DecodeError → Refusal
  | .outsideRegisterSpace => .outsideRegisterSpace
  | .partialSlotAccess => .partialSlotAccess
  | .noOperationSelected => .noOperationSelected
  | .notAColourPlane => .notAColourPlane

/-- The host writes a byte of plane memory. While BUSY a byte of the running FRAME's footprints is not its to write
(20_memory.md R77, U6; entry 17). -/
def hostWrite (addr : Nat) (b : Byte) (s : State) : Host.Outcome State Fault Refusal :=
  if Config.planeMemoryEnd ≤ addr then .fault (.outsidePlaneMemory addr)
  else if s.run = .busy ∧ inSource s addr then .refused .sourceWrittenWhileBusy
  else if s.run = .busy ∧ inDestination s addr then .refused .destinationWrittenWhileBusy
  else .next (s.withMem (memSet s.mem addr b))

/-- The host reads a byte of plane memory. While BUSY a byte of a destination footprint reads as a free value, and the
FRAME goes on (20_memory.md R75 M3, U7); every other byte reads as last written. -/
def hostRead (addr : Nat) (s : State) : Host.Outcome State Fault Refusal :=
  if Config.planeMemoryEnd ≤ addr then .fault (.outsidePlaneMemory addr)
  else if s.run = .busy ∧ inDestination s addr then
    .next ((s.withResult ((Config.freeByte s.draws addr).setWidth 64)).nextDraw)
  else .next (s.withResult ((memByte s.mem addr).setWidth 64))

end Sys2Proof.Machine
end

