-- ==== Sys2Proof/Machine/Step.lean ====
section
/-! DEFINITION. One step of the machine. Two agents act, the host and the sequencer (10_state.md R20), and the state's own data
says which moves next (entry 3): with no pending host event, or with one that still has steps to wait, the sequencer moves
(when it is idle, time passes); otherwise the host's event happens. -/

namespace Sys2Proof.Machine

/-- One host event: an encoded operation is decoded and run; a byte of plane memory is read or written. -/
def hostStep (e : HostEvent) (s : State) : Host.Outcome State Fault Refusal :=
  match e with
  | .request r =>
    match decode r with
    | .ok i => exec i s
    | .error why => .refused (refusalOf why)
  | .memWrite addr b => hostWrite addr b s
  | .memRead addr => hostRead addr s

/-- One step of the machine. -/
def step (s : State) : Host.Outcome State Fault Refusal :=
  match s.inbox with
  | [] => sequencerStep s
  | { gap := 0, event := e } :: rest => hostStep e (s.withInbox rest)
  | { gap := n + 1, event := e } :: rest => sequencerStep (s.withInbox ({ gap := n, event := e } :: rest))

/-- The state in which the very next step runs the operation of a word of spec/opcode_table.json: its request stands first
in the inbox (entry 5). -/
def State.withFetchWord (s : State) (nbits w : Nat) : State :=
  s.withInbox ({ gap := 0, event := .request (tableRequest nbits w) } :: s.inbox)

end Sys2Proof.Machine
end

