-- ==== Sys2Proof/Machine/Notation.lean ====
section
/-! DEFINITION. The host notation and pseudo-operations as lists of requests, and the named FMT values (30_encoding.md R120 to
R122). `wait` is the host's own loop of STATUS reads and has no fixed expansion. -/

namespace Sys2Proof.Machine

/-- The byte offset of slot n (10_state.md R22). -/
def slotOffset (n : Nat) : Slot := BitVec.ofNat 64 (8 * n)

/-- The number of a plane's descriptor block. -/
def planeIndex : PlaneId → Nat
  | .y => 0
  | .u => 1
  | .v => 2
  | .a => 3

/-- The byte offset of register k of plane p's descriptor (10_state.md R22). -/
def descOffset (p : PlaneId) (k : Nat) : Slot := slotOffset (16 + 8 * planeIndex p + k)

/-- The data of a signed option: its 32-bit pattern in the low half of the slot (30_encoding.md R101). -/
def optionData (v : Int) : Slot := (BitVec.ofInt 32 v).setWidth 64

/-- `configure low, high, my, mu, mv, cap, fmt` (30_encoding.md R121). -/
def configureRequests (low high my mu mv cap : Int) (fmt : Nat) : List Request :=
  [.write 0x018 (optionData low), .write 0x020 (optionData high), .write 0x028 (optionData my),
   .write 0x030 (optionData mu), .write 0x038 (optionData mv), .write 0x040 (optionData cap),
   .write 0x048 (BitVec.ofNat 64 fmt), .write 0x000 1]

/-- `plane p, src, dst, spitch, dpitch, w, h` (30_encoding.md R121). -/
def planeRequests (p : PlaneId) (src dst spitch dpitch w h : Nat) : List Request :=
  [.write (descOffset p 0) (BitVec.ofNat 64 src), .write (descOffset p 1) (BitVec.ofNat 64 dst),
   .write (descOffset p 2) (BitVec.ofNat 64 spitch), .write (descOffset p 3) (BitVec.ofNat 64 dpitch),
   .write (descOffset p 4) (BitVec.ofNat 64 w), .write (descOffset p 5) (BitVec.ofNat 64 h)]

/-- `cmd FRAME` (30_encoding.md R120). -/
def frameRequest : Request := .write 0x000 2

/-- `rd STATUS` (30_encoding.md R120). -/
def statusRequest : Request := .read 0x008

/-- Requests one after the other, with no sequencer step between them. -/
def asPending (rs : List Request) : List Pending := rs.map fun r => { gap := 0, event := .request r }

/-- FMT_Y8 (30_encoding.md R122). -/
def fmtY8 : Nat := 0x0008
/-- FMT_YUV8. -/
def fmtYUV8 : Nat := 0x0808
/-- FMT_YUVA8. -/
def fmtYUVA8 : Nat := 0x1808
/-- FMT_YUV10. -/
def fmtYUV10 : Nat := 0x080A
/-- FMT_Y10. -/
def fmtY10 : Nat := 0x000A
/-- FMT_YUV12. -/
def fmtYUV12 : Nat := 0x080C
/-- FMT_YUV14. -/
def fmtYUV14 : Nat := 0x080E
/-- FMT_YUV16. -/
def fmtYUV16 : Nat := 0x0810
/-- FMT_Y16. -/
def fmtY16 : Nat := 0x0010
/-- FMT_YF32. -/
def fmtYF32 : Nat := 0x0120
/-- FMT_YUVF32. -/
def fmtYUVF32 : Nat := 0x0920
/-- FMT_RGB8: LAYOUT = 1, rejected. -/
def fmtRGB8 : Nat := 0x0208
/-- FMT_PACKED8: LAYOUT = 2, rejected. -/
def fmtPacked8 : Nat := 0x0408

end Sys2Proof.Machine
end

