-- ==== Sys2Proof/Safety.lean ====
section
/-! DEFINITION. The terms in which claims are stated: what the spec calls a valid configuration, what a plane holds after an
operation, what an operation leaves alone, and the invariant of an instance. -/

namespace Sys2Proof.Machine

/-! Configurations (43_dispatch.md R231, 60_exceptions.md R270). -/

/-- The three mode registers hold 1, 2 or 3 (60_exceptions.md R271). -/
def ModesInRange (s : State) : Prop :=
  (1 ≤ s.modeY.toInt ∧ s.modeY.toInt ≤ 3) ∧ (1 ≤ s.modeU.toInt ∧ s.modeU.toInt ≤ 3) ∧
    (1 ≤ s.modeV.toInt ∧ s.modeV.toInt ≤ 3)

/-- Both thresholds are in 0 .. 255 (60_exceptions.md R272). -/
def ThresholdsInRange (s : State) : Prop :=
  (0 ≤ s.thrLow.toInt ∧ s.thrLow.toInt ≤ 255) ∧ (0 ≤ s.thrHigh.toInt ∧ s.thrHigh.toInt ≤ 255)

/-- CAP_REQ holds one of -1, 0, 1, 2, 3 (60_exceptions.md R275). -/
def RequestKnown (s : State) : Prop := -1 ≤ s.capReq.toInt ∧ s.capReq.toInt ≤ 3

/-- The request does not exceed the detected level (60_exceptions.md R276). -/
def RequestSupported (s : State) : Prop := s.capReq.toInt ≤ tierCode s.hwcap

/-- A configuration that passes every check, with the domain it selects (43_dispatch.md R231). -/
def ValidConfig (s : State) (d : Domain) : Prop :=
  fmtLayout s.fmt = 0 ∧ ModesInRange s ∧ ThresholdsInRange s ∧ s.thrLow.toInt ≤ s.thrHigh.toInt ∧
    domainOf s = some d ∧ RequestKnown s ∧ RequestSupported s

/-- The backend an accepted request resolves to: auto takes HWCAP, an explicit level is taken as it is (43_dispatch.md
R235). -/
def ResolvesTo (s : State) (t : Tier) : Prop :=
  (s.capReq.toInt = -1 ∧ t = s.hwcap) ∨ s.capReq.toInt = tierCode t

/-! What an operation leaves alone. -/

/-- Everything but plane memory, the sequencer's working registers (row cursors, sample latches, vector registers) and the
draw counter is unchanged. -/
def OnlyDatapath (s t : State) : Prop :=
  t = { s with
    mem := t.mem
    curUp := t.curUp, curMid := t.curMid, curLo := t.curLo, curOut := t.curOut
    smpU := t.smpU, smpM := t.smpM, smpL := t.smpL, smpOut := t.smpOut
    vecU := t.vecU, vecM := t.vecM, vecLo := t.vecLo, vecOut := t.vecOut
    draws := t.draws }

/-- Every byte outside a footprint reads as before. -/
def SameOutside (f : Foot) (m m' : List Host.Cell) : Prop :=
  ∀ a, f.contains a = false → memByte m' a = memByte m a

/-- Every byte outside the `len` bytes from `base` reads as before. -/
def SameOutsideRange (base len : Nat) (m m' : List Host.Cell) : Prop :=
  ∀ a, a < base ∨ base + len ≤ a → memByte m' a = memByte m a

/-! What a plane holds. -/

/-- The source sample at row y, column x (20_memory.md R65). -/
def srcSample (d : Domain) (ds : Desc) (m : List Host.Cell) (y x : Nat) : Word :=
  BitVec.ofNat 32 (memRead m (srcAddr d ds y x) (elemSize d))

/-- The container stored at row y, column x of the destination. -/
def dstSample (d : Domain) (ds : Desc) (m : List Host.Cell) (y x : Nat) : Nat :=
  memRead m (dstAddr d ds y x) (elemSize d)

/-- PIX of the neighbourhood of row y, column x (41_threshold_kernel.md R171, R189), with a free value for what the spec
leaves open (R180, 40_numeric_domain.md R162). -/
def maskSample (d : Domain) (low high : Word) (ds : Desc) (m : List Host.Cell) (y x : Nat) (free : Word) : Word :=
  pix d low high (srcSample d ds m (y - 1) x) (srcSample d ds m y x) (srcSample d ds m (y + 1) x) free

/-- Row y of the destination in m' holds the mask of the source in m: zero on a border row, PIX elsewhere
(41_threshold_kernel.md R189). -/
def RowHoldsMask (d : Domain) (low high : Word) (ds : Desc) (m m' : List Host.Cell) (y : Nat) : Prop :=
  ∀ x, x < ds.width.toNat →
    if y = 0 ∨ y + 1 = ds.height.toNat then dstSample d ds m' y x = 0
    else ∃ free, dstSample d ds m' y x = (maskSample d low high ds m y x free).toNat

/-- The destination footprint in m' holds MASK of the source footprint in m (41_threshold_kernel.md R189). -/
def HoldsMask (d : Domain) (low high : Word) (ds : Desc) (m m' : List Host.Cell) : Prop :=
  ∀ y, y < ds.height.toNat → RowHoldsMask d low high ds m m' y

/-- The destination footprint in m' holds the bytes of the source footprint in m, row by row (43_dispatch.md R245). -/
def HoldsCopy (d : Domain) (ds : Desc) (m m' : List Host.Cell) : Prop :=
  ∀ y i, y < ds.height.toNat → i < ds.width.toNat * elemSize d →
    memByte m' (dstAddr d ds y 0 + i) = memByte m (srcAddr d ds y 0 + i)

/-- A plane with at least one sample. -/
def PlaneNotEmpty (ds : Desc) : Prop := ds.width ≠ 0 ∧ ds.height ≠ 0

/-! Register slots and operations by number. -/

/-- RD of slot n returns v and changes no register (10_state.md R22, R34). -/
def ReadsAs (s : State) (n : Nat) (v : Slot) : Prop := exec (.rd (slotOffset n)) s = .next (s.withResult v)

/-- WR of data to slot n leads from s to t. -/
def WritesTo (s : State) (n : Nat) (data : Slot) (t : State) : Prop := exec (.wr (slotOffset n) data) s = .next t

/-- The slot of register k of plane p's descriptor block: 16 + 8p + k (10_state.md R22). -/
def descSlot (p : PlaneId) (k : Nat) : Nat := 16 + 8 * planeIndex p + k

/-- The pixel operation of a domain (30_encoding.md R110 (e)). -/
def pixInstr : Domain → Instr
  | .u8 => .pixU8
  | .u16b10 => .pixU16b10
  | .u16b12 => .pixU16b12
  | .u16b14 => .pixU16b14
  | .u16b16 => .pixU16b16
  | .f32 => .pixF32

/-- The row operation of a backend (30_encoding.md R110 (f)). -/
def rowInstr (p : PlaneId) (y : Word) : Tier → Instr
  | .scalar => .rowScalar p y
  | .tier1 => .rowT1 p y
  | .tier2 => .rowT2 p y
  | .tier3 => .rowT3 p y

/-- The request form of an explicit level (30_encoding.md R110 (d)). -/
def capInstr : Tier → Instr
  | .scalar => .capScalar
  | .tier1 => .capTier1
  | .tier2 => .capTier2
  | .tier3 => .capTier3

/-! The seven checks of VALIDATE, each by itself (60_exceptions.md R271 to R277). -/

/-- FMT.LAYOUT, FMT.FLOAT and FMT.BITS as numbers (10_state.md R30). -/
def fmtField (s : State) (lo width : Nat) : Nat := s.fmt.toNat / 2 ^ lo % 2 ^ width

/-- The check of this code fails. -/
def CheckFails (s : State) : Nat → Prop
  | 1 => fmtField s 9 2 ≠ 0
  | 2 => ¬ModesInRange s
  | 3 => ¬ThresholdsInRange s
  | 4 => ThresholdsInRange s ∧ s.thrHigh.toInt < s.thrLow.toInt
  | 5 => ¬((fmtField s 8 1 = 0 ∧ fmtField s 0 8 ∈ [8, 10, 12, 14, 16]) ∨ (fmtField s 8 1 = 1 ∧ fmtField s 0 8 = 32))
  | 6 => ¬RequestKnown s
  | 7 => RequestKnown s ∧ ¬RequestSupported s
  | _ => False

/-! Binary32 (00_scope.md R12). -/

/-- The value of a magnitude pattern in units of 2^-149; infinity's pattern stands for 2^128, the first value that rounds
to infinity alone. -/
def f32Value (p : Nat) : Nat := if p < 2 ^ 23 then p else (2 ^ 23 + p % 2 ^ 23) * 2 ^ (p / 2 ^ 23 - 1)

/-- The distance of num / den from the value of a pattern, times den. -/
def f32Distance (num den p : Nat) : Nat := ((num : Int) - den * f32Value p).natAbs

/-- p is num / den rounded to nearest, ties to even, among the patterns up to infinity's. -/
def NearestEven (num den p : Nat) : Prop :=
  p ≤ f32InfBits ∧ ∀ q, q ≤ f32InfBits → q ≠ p →
    f32Distance num den p < f32Distance num den q ∨ (f32Distance num den p = f32Distance num den q ∧ p % 2 = 0)

/-- A finite binary32 value. -/
def f32Finite (w : Word) : Bool := decide (f32MagBits w < f32InfBits)

/-! Footprints as sets of bytes (20_memory.md R66). -/

/-- A byte of the source footprint. -/
def SrcByte (d : Domain) (ds : Desc) (a : Nat) : Prop :=
  ∃ y x i, y < ds.height.toNat ∧ x < ds.width.toNat ∧ i < elemSize d ∧ a = srcAddr d ds y x + i

/-- A byte of the destination footprint. -/
def DstByte (d : Domain) (ds : Desc) (a : Nat) : Prop :=
  ∃ y x i, y < ds.height.toNat ∧ x < ds.width.toNat ∧ i < elemSize d ∧ a = dstAddr d ds y x + i

/-- Every source sample of the plane is one PIX.F32 has a meaning for (41_threshold_kernel.md R180). -/
def SourceInDomain (ds : Desc) (m : List Host.Cell) : Prop :=
  ∀ y x, y < ds.height.toNat → x < ds.width.toNat → f32OutOfDomain (srcSample .f32 ds m y x) = false

/-! The invariant of an instance. -/

/-- An event the host of the spec can cause (43_dispatch.md R252; 20_memory.md R77): not an internal operation (entry 4). -/
def HostEvent.isHost : HostEvent → Bool
  | .request r => r.isHost
  | .memWrite _ _ | .memRead _ => true

/-- Only the host's own events are pending. -/
def HostOnly (s : State) : Bool := s.inbox.all fun e => e.event.isHost

/-- The derived constants are those of domain d and the thresholds (40_numeric_domain.md R147, R148). -/
def ConstsDerived (s : State) (d : Domain) : Prop :=
  s.peak = peakOf d ∧ s.scale = BitVec.ofNat 32 (scaleOf d) ∧ s.shift = shiftOf d ∧
    s.lowS = boundOf d s.thrLow ∧ s.highS = boundOf d s.thrHigh

/-- The derived constants are all 0 (10_state.md R31). -/
def ConstsZero (s : State) : Prop :=
  s.peak = 0 ∧ s.scale = 0 ∧ s.shift = 0 ∧ s.lowS = 0 ∧ s.highS = 0

/-- The sequencer stands at a sample of a plane the FRAME accesses (10_state.md R40, R41). -/
def PosInPlane (s : State) (q : Pos) : Prop :=
  hasWork s q.plane = true ∧ q.row < (s.desc q.plane).height.toNat ∧ q.col < (s.desc q.plane).width.toNat

/-- What holds of an instance at reset and after every step. -/
structure InstanceInv (s : State) : Prop where
  /-- Plane memory keeps its canonical form. -/
  memory : Memory.wf s.mem = true
  /-- Reserved bits of FMT read 0 (10_state.md R30, 30_encoding.md R116). -/
  fmtReserved : s.fmt.toNat < 2 ^ 13
  /-- ERRCODE is 0 unless STATE = ERROR, and then one of the codes 1 to 7 (10_state.md R24). -/
  errCode : if s.run = .error then 1 ≤ s.errCode.toNat ∧ s.errCode.toNat ≤ 7 else s.errCode = 0
  /-- No backend and no constants before a successful CONFIGURE or after a failed one (10_state.md R24, R31). -/
  unconfigured : s.run = .unconfigured ∨ s.run = .error → s.backend = .scalar ∧ ConstsZero s
  /-- READY and BUSY hold a valid configuration, its constants and its backend (10_state.md R45, R24). -/
  configured : s.run = .ready ∨ s.run = .busy → ∃ d, ValidConfig s d ∧ ConstsDerived s d ∧ ResolvesTo s s.backend
  /-- pos is IDLE whenever STATE is not BUSY (10_state.md R40). -/
  idle : s.run ≠ .busy → s.pos = none
  /-- BUSY stands at a sample, with descriptors inside the contract (10_state.md R40, 20_memory.md R70). -/
  busy : s.run = .busy → ∃ q d, s.pos = some q ∧ domainOf s = some d ∧ frameValid d s = true ∧ PosInPlane s q
  /-- Only host events are pending. -/
  hostOnly : HostOnly s = true

/-- The configuration and what CONFIGURE made of it: the RW-U registers, the derived constants and BACKEND (10_state.md R31,
R33). -/
def SameConfiguration (s t : State) : Prop :=
  t.thrLow = s.thrLow ∧ t.thrHigh = s.thrHigh ∧ t.modeY = s.modeY ∧ t.modeU = s.modeU ∧ t.modeV = s.modeV ∧
    t.capReq = s.capReq ∧ t.fmt = s.fmt ∧ t.peak = s.peak ∧ t.scale = s.scale ∧ t.shift = s.shift ∧
    t.lowS = s.lowS ∧ t.highS = s.highS ∧ t.backend = s.backend

/-- The host event that happens in this step, if one does. -/
def eventNow (s : State) : Option HostEvent :=
  match s.inbox with
  | { gap := 0, event := e } :: _ => some e
  | _ => none

end Sys2Proof.Machine
end

