-- ==== Sys2Proof/Certificates/Slice0/Obligations.lean ====
section
/-! DEFINITION. The statements for the provers, family by family. Each docstring names the rule of spec/ it formalises, or says that
the statement rests on a choice of the model and names its log entry. -/

open Sys2Proof Sys2Proof.Machine

/-! Encodings (30_encoding.md). -/

/-- Decode and encode agree for every well-formed operation, whatever its offset, data, plane and row (R101 to R111; how the
operations without a bit pattern are requested is the model's choice, entry 6). -/
def Obligations.DecodeEncode : Prop :=
  ∀ i : Instr, WellFormed i = true → decode (encode i) = .ok i

/-- The decoder never gives an ill-formed operation. -/
def Obligations.DecodedIsWellFormed : Prop :=
  ∀ (r : Request) (i : Instr), decode r = .ok i → WellFormed i = true

/-- A few words written out from the encodings of R101, R102, R105, R106, R110: what they decode to. -/
def Obligations.DecodeWords : Prop :=
  decode (.write 0x000 0x0000000000000001) = .ok .configure ∧
  decode (.write 0x000 0x0000000000000002) = .ok .frame ∧
  decode (.write 0x040 0x00000000FFFFFFFF) = .ok (.wr 0x040 0x00000000FFFFFFFF) ∧
  decode (.read 0x008) = .ok (.rd 0x008) ∧
  decode (.select 0x030 0x00000003 .u 0) = .ok (.process .u) ∧
  decode (.select 0x040 0xFFFFFFFF .y 0) = .ok .capAuto ∧
  decode (.select 0x048 0x00000810 .y 0) = .ok .pixU16b16 ∧
  decode (.select 0x008 0x00000009 .v 7) = .ok (.rowT2 .v 7)

/-- Mode values select the plane operations of their register's plane, and capability request values the request forms, both
compared as signed 32-bit integers; no other value selects one (R105, R106). -/
def Obligations.OptionsSelect : Prop :=
  ∀ (word y : Word) (p : PlaneId) (i : Instr),
    (∀ c ∈ [((0x028 : Slot), PlaneId.y), (0x030, .u), (0x038, .v)],
      decode (.select c.1 word p y) = .ok i ↔
        (word.toInt = 1 ∧ i = .untouched c.2) ∨ (word.toInt = 2 ∧ i = .copy c.2) ∨ (word.toInt = 3 ∧ i = .process c.2)) ∧
    (decode (.select 0x040 word p y) = .ok i ↔
      (word.toInt = -1 ∧ i = .capAuto) ∨ ∃ k : Tier, word.toInt = tierCode k ∧ i = capInstr k)

/-- The format word selects the sample domain and the element size; every other (FLOAT, BITS) pair has no domain and is
rejected by CONFIGURE (R108). -/
def Obligations.FormatSelectsDomain : Prop :=
  ∀ s : State,
    (fmtField s 8 1 = 0 → fmtField s 0 8 = 8 → domainOf s = some .u8 ∧ elemSize .u8 = 1) ∧
    (∀ c ∈ [(10, Domain.u16b10), (12, .u16b12), (14, .u16b14), (16, .u16b16)],
      fmtField s 8 1 = 0 → fmtField s 0 8 = c.1 → domainOf s = some c.2 ∧ elemSize c.2 = 2) ∧
    (fmtField s 8 1 = 1 → fmtField s 0 8 = 32 → domainOf s = some .f32 ∧ elemSize .f32 = 4) ∧
    (CheckFails s 5 → domainOf s = none ∧
      (s.run = .unconfigured → ∃ t, exec .configure s = .next t ∧ t.run = .error))

/-- FMT selects the pixel operation of its domain by FLOAT and BITS, bits 8 to 0, whatever its other bits hold, and a word without
a domain selects none (R108, R110 (e); where the opcode table's mask is wider the model follows R110, entry 28). -/
def Obligations.FormatSelectsPixel : Prop :=
  ∀ (word y : Word) (p : PlaneId) (i : Instr),
    (decode (.select 0x048 word p y) = .ok i ↔ ∃ d, domainOfFmt word = some d ∧ i = pixInstr d) ∧
    ∀ word' : Word, word'.toNat % 2 ^ 9 = word.toNat % 2 ^ 9 →
      decode (.select 0x048 word' p y) = decode (.select 0x048 word p y)

/-- A step runs the decoded operation; what selects no operation is refused by name; without a pending event that is due the
sequencer moves; and the word of an opcode-table row runs first when it is placed (the inbox is the model's way to say who
moves next, entry 3). -/
def Obligations.StepRunsDecoded : Prop :=
  ∀ (s : State) (rest : List Pending) (r : Request),
    (∀ i, s.inbox = { gap := 0, event := .request r } :: rest → decode r = .ok i → step s = exec i (s.withInbox rest)) ∧
    (∀ why, s.inbox = { gap := 0, event := .request r } :: rest → decode r = .error why →
      step s = .refused (refusalOf why)) ∧
    (∀ n e, s.inbox = { gap := n + 1, event := e } :: rest →
      step s = sequencerStep (s.withInbox ({ gap := n, event := e } :: rest))) ∧
    (s.inbox = [] → step s = sequencerStep s) ∧
    (∀ nbits w i, decodeTableWord nbits w = some i → step (s.withFetchWord nbits w) = exec i s)

/-! Registers (10_state.md). -/

/-- What a read of each of the 48 slots returns (R22): each register zero-extended from its slot. -/
def Obligations.RegisterMap : Prop :=
  ∀ s : State,
    ReadsAs s 0 0 ∧ ReadsAs s 1 ((statusWord s).setWidth 64) ∧ ReadsAs s 2 ((capsWord s).setWidth 64) ∧
    ReadsAs s 3 (s.thrLow.setWidth 64) ∧ ReadsAs s 4 (s.thrHigh.setWidth 64) ∧
    ReadsAs s 5 (s.modeY.setWidth 64) ∧ ReadsAs s 6 (s.modeU.setWidth 64) ∧ ReadsAs s 7 (s.modeV.setWidth 64) ∧
    ReadsAs s 8 (s.capReq.setWidth 64) ∧ ReadsAs s 9 (s.fmt.setWidth 64) ∧
    ReadsAs s 10 (s.peak.setWidth 64) ∧ ReadsAs s 11 (s.scale.setWidth 64) ∧ ReadsAs s 12 (s.shift.setWidth 64) ∧
    ReadsAs s 13 (s.lowS.setWidth 64) ∧ ReadsAs s 14 (s.highS.setWidth 64) ∧ ReadsAs s 15 0 ∧
    ∀ p : PlaneId,
      ReadsAs s (descSlot p 0) (s.desc p).srcBase ∧ ReadsAs s (descSlot p 1) (s.desc p).dstBase ∧
      ReadsAs s (descSlot p 2) (s.desc p).srcPitch ∧ ReadsAs s (descSlot p 3) (s.desc p).dstPitch ∧
      ReadsAs s (descSlot p 4) ((s.desc p).width.setWidth 64) ∧
      ReadsAs s (descSlot p 5) ((s.desc p).height.setWidth 64) ∧
      ReadsAs s (descSlot p 6) 0 ∧ ReadsAs s (descSlot p 7) 0

/-- STATUS is read-only; a read of it gives STATE, BACKEND and ERRCODE in their bits, BACKEND 0 in UNCONFIGURED and ERROR and
the resolved level in READY and BUSY, ERRCODE 0 unless ERROR (R24). -/
def Obligations.StatusFields : Prop :=
  ∀ s : State, InstanceInv s →
    (∀ data, WritesTo s 1 data s) ∧
    ∃ v : Slot, ReadsAs s 1 v ∧
      v.toNat % 4 = (match s.run with | .unconfigured => 0 | .ready => 1 | .busy => 2 | .error => 3) ∧
      v.toNat / 4 % 4 = (match s.backend with | .scalar => 0 | .tier1 => 1 | .tier2 => 2 | .tier3 => 3) ∧
      v.toNat / 16 % 16 = s.errCode.toNat ∧ v.toNat / 256 = 0 ∧
      (s.run = .unconfigured ∨ s.run = .error → v.toNat / 4 % 4 = 0) ∧
      (s.run = .ready ∨ s.run = .busy → ResolvesTo s s.backend) ∧
      (s.run ≠ .error → v.toNat / 16 % 16 = 0) ∧
      (s.run = .error → 1 ≤ v.toNat / 16 % 16 ∧ v.toNat / 16 % 16 ≤ 7)

/-- CAPS is read-only and shows the straps in its bits, and no step changes a strap (R25). -/
def Obligations.CapsFields : Prop :=
  ∀ s : State,
    (∀ data, WritesTo s 2 data s) ∧
    (∃ v : Slot, ReadsAs s 2 v ∧
      v.toNat % 4 = (match s.hwcap with | .scalar => 0 | .tier1 => 1 | .tier2 => 2 | .tier3 => 3) ∧
      v.toNat / 4 % 2 = s.threadClass.toNat ∧ v.toNat / 8 = 0) ∧
    ∀ t, step s = .next t → t.hwcap = s.hwcap ∧ t.threadClass = s.threadClass

/-- In UNCONFIGURED a write of a configuration register stores the low bits of the data and nothing else changes; FMT stores
bits 12 to 0 (R22, R26 to R30). -/
def Obligations.ConfigurationWritesStore : Prop :=
  ∀ (s : State) (data : Slot), s.run = .unconfigured →
    WritesTo s 3 data { s with thrLow := data.setWidth 32 } ∧
    WritesTo s 4 data { s with thrHigh := data.setWidth 32 } ∧
    WritesTo s 5 data { s with modeY := data.setWidth 32 } ∧
    WritesTo s 6 data { s with modeU := data.setWidth 32 } ∧
    WritesTo s 7 data { s with modeV := data.setWidth 32 } ∧
    WritesTo s 8 data { s with capReq := data.setWidth 32 } ∧
    WritesTo s 9 data { s with fmt := BitVec.ofNat 32 (data.toNat % 2 ^ 13) }

/-- Outside BUSY a write of a descriptor register stores the low bits of the data and nothing else changes (R22, R32). -/
def Obligations.DescriptorWritesStore : Prop :=
  ∀ (s : State) (data : Slot) (p : PlaneId), s.run ≠ .busy →
    WritesTo s (descSlot p 0) data (s.withDesc p { s.desc p with srcBase := data }) ∧
    WritesTo s (descSlot p 1) data (s.withDesc p { s.desc p with dstBase := data }) ∧
    WritesTo s (descSlot p 2) data (s.withDesc p { s.desc p with srcPitch := data }) ∧
    WritesTo s (descSlot p 3) data (s.withDesc p { s.desc p with dstPitch := data }) ∧
    WritesTo s (descSlot p 4) data (s.withDesc p { s.desc p with width := data.setWidth 32 }) ∧
    WritesTo s (descSlot p 5) data (s.withDesc p { s.desc p with height := data.setWidth 32 })

/-- A write of a configuration register in READY, BUSY or ERROR is ignored, and so is a write of a descriptor register in BUSY
(R33). -/
def Obligations.LockedWritesIgnored : Prop :=
  ∀ (s : State) (data : Slot),
    (s.run = .ready ∨ s.run = .busy ∨ s.run = .error → ∀ n ∈ [3, 4, 5, 6, 7, 8, 9], WritesTo s n data s) ∧
    (s.run = .busy → ∀ (p : PlaneId), ∀ k ∈ [0, 1, 2, 3, 4, 5], WritesTo s (descSlot p k) data s)

/-- A write to a read-only register or a reserved slot is ignored; a read of CMD or a reserved slot returns 0; an access
outside the 48 slots, or not of one whole aligned slot, is refused; no read has a side effect (R34). -/
def Obligations.RegisterSpace : Prop :=
  ∀ (s : State) (offset data : Slot),
    (∀ n ∈ [1, 2, 10, 11, 12, 13, 14, 15, 22, 23, 30, 31, 38, 39, 46, 47], WritesTo s n data s) ∧
    (∀ n ∈ [0, 15, 22, 23, 30, 31, 38, 39, 46, 47], ReadsAs s n 0) ∧
    (0x180 ≤ offset.toNat ∨ offset.toNat % 8 ≠ 0 →
      exec (.wr offset data) s = .refused .outsideRegisterSpace ∧ exec (.rd offset) s = .refused .outsideRegisterSpace ∧
      decode (.write offset data) = .error .outsideRegisterSpace ∧ decode (.read offset) = .error .outsideRegisterSpace) ∧
    (∀ bytes, decode (.narrow offset bytes) = .error .partialSlotAccess) ∧
    (offset.toNat < 0x180 → offset.toNat % 8 = 0 →
      ∃ v, exec (.rd offset) s = .next (s.withResult v))

/-- A write of 1 to CMD is CONFIGURE and a write of 2 is FRAME; every other code, CONFIGURE outside UNCONFIGURED and FRAME
outside READY change nothing; a read of CMD returns 0 (R23, R117). -/
def Obligations.CommandWrites : Prop :=
  ∀ (s : State) (data : Slot),
    (data.toNat % 256 = 1 → decode (.write 0x000 data) = .ok .configure ∧
      exec (.wr 0x000 data) s = exec .configure s) ∧
    (data.toNat % 256 = 2 → decode (.write 0x000 data) = .ok .frame ∧ exec (.wr 0x000 data) s = exec .frame s) ∧
    (data.toNat % 256 ≠ 1 → data.toNat % 256 ≠ 2 → exec (.wr 0x000 data) s = .next s) ∧
    (s.run ≠ .unconfigured → exec .configure s = .next s) ∧
    (s.run ≠ .ready → exec .frame s = .next s) ∧
    exec (.rd 0x000) s = .next (s.withResult 0)

/-! CONFIGURE and its parts (43_dispatch.md, 40_numeric_domain.md, 60_exceptions.md). -/

/-- VALIDATE returns the lowest code whose check fails, 0 when every check passes, and changes no register (R231). -/
def Obligations.ValidateReturnsLowest : Prop :=
  ∀ s : State, s.run = .unconfigured →
    (∀ c, CheckFails s c → (∀ c', c' < c → ¬CheckFails s c') →
      exec .validate s = .next (s.withResult (BitVec.ofNat 64 c))) ∧
    ((∀ c, ¬CheckFails s c) → exec .validate s = .next (s.withResult 0))

/-- The error entry: a CONFIGURE that fails moves to ERROR with the lowest failing code, nothing else changes, and no later
command has any effect (R280, with R278's lowest code). -/
def Obligations.ErrorEntry : Prop :=
  ∀ (s : State) (c : Nat), s.run = .unconfigured → CheckFails s c → (∀ c', c' < c → ¬CheckFails s c') →
    ∃ t, exec .configure s = .next t ∧ t = { s with run := .error, errCode := BitVec.ofNat 4 c } ∧
      ∀ data, exec .configure t = .next t ∧ exec .frame t = .next t ∧ exec (.wr 0x000 data) t = .next t

/-- CONFIGURE on a valid integer configuration: READY, the resolved backend and the derived constants, and nothing else
changes (R230, R148, R235). -/
def Obligations.ConfigureInteger : Prop :=
  ∀ (s : State) (t : Tier), ∀ c ∈ [(Domain.u8, 8, 1), (.u16b10, 10, 4), (.u16b12, 12, 16), (.u16b14, 14, 64),
      (.u16b16, 16, 257)],
    s.run = .unconfigured → ValidConfig s c.1 → ResolvesTo s t →
    exec .configure s = .next { s with
      run := .ready, backend := t, peak := BitVec.ofNat 32 (2 ^ c.2.1 - 1), scale := BitVec.ofNat 32 c.2.2
      shift := BitVec.ofNat 32 (c.2.1 - 8), lowS := BitVec.ofInt 32 (s.thrLow.toInt * c.2.2)
      highS := BitVec.ofInt 32 (s.thrHigh.toInt * c.2.2) }

/-- CONFIGURE on a valid float configuration: READY, the resolved backend, PEAK 1.0, SCALE and SHIFT 0, and each bound its
threshold divided by 255, rounded once, to nearest, ties to even (R230, R148, R146, R235). -/
def Obligations.ConfigureFloat : Prop :=
  ∀ (s : State) (t : Tier), s.run = .unconfigured → ValidConfig s .f32 → ResolvesTo s t →
    ∃ low high : Word,
      exec .configure s = .next { s with
        run := .ready, backend := t, peak := 0x3F800000, scale := 0, shift := 0, lowS := low, highS := high } ∧
      NearestEven (s.thrLow.toNat * 2 ^ 149) 255 low.toNat ∧ NearestEven (s.thrHigh.toNat * 2 ^ 149) 255 high.toNat

/-- The integer bounds: LOW_S = low * SCALE and HIGH_S = high * SCALE are exact, in order, and at most 255 * SCALE, whose five
values are listed (R145). -/
def Obligations.IntegerBounds : Prop :=
  ∀ (s t : State), ∀ c ∈ [(Domain.u8, 255), (.u16b10, 1020), (.u16b12, 4080), (.u16b14, 16320), (.u16b16, 65535)],
    s.run = .unconfigured → domainOf s = some c.1 → exec .configure s = .next t → t.run = .ready →
      t.lowS.toNat = s.thrLow.toNat * t.scale.toNat ∧ t.highS.toNat = s.thrHigh.toNat * t.scale.toNat ∧
      t.lowS.toNat ≤ t.highS.toNat ∧ t.highS.toNat ≤ c.2 ∧ 255 * t.scale.toNat = c.2

/-- The float bounds: in order between +0.0 and 1.0, at the ends exactly for the thresholds 0 and 255, with the listed
patterns (R146). -/
def Obligations.FloatBounds : Prop :=
  ∀ s t : State, s.run = .unconfigured → domainOf s = some .f32 → exec .configure s = .next t → t.run = .ready →
    NearestEven (s.thrLow.toNat * 2 ^ 149) 255 t.lowS.toNat ∧ NearestEven (s.thrHigh.toNat * 2 ^ 149) 255 t.highS.toNat ∧
    0 ≤ f32Key t.lowS ∧ f32Key t.lowS ≤ f32Key t.highS ∧ f32Key t.highS ≤ f32Key 0x3F800000 ∧
    (t.lowS = 0 ↔ s.thrLow = 0) ∧ (t.highS = 0x3F800000 ↔ s.thrHigh = 255) ∧
    ∀ c ∈ [((0 : Word), (0x00000000 : Word)), (1, 0x3B808081), (10, 0x3D20A0A1), (20, 0x3DA0A0A1), (30, 0x3DF0F0F1),
        (40, 0x3E20A0A1), (64, 0x3E808081), (100, 0x3EC8C8C9), (128, 0x3F008081), (200, 0x3F48C8C9),
        (254, 0x3F7EFEFF), (255, 0x3F800000)],
      (s.thrLow = c.1 → t.lowS = c.2) ∧ (s.thrHigh = c.1 → t.highS = c.2)

/-- The resolution table: the BACKEND or the error of CONFIGURE for every request and every detected level, on a configuration
whose other checks pass (R236). -/
def Obligations.ResolutionTable : Prop :=
  ∀ (s : State) (d : Domain), s.run = .unconfigured → fmtLayout s.fmt = 0 → ModesInRange s → ThresholdsInRange s →
    s.thrLow.toInt ≤ s.thrHigh.toInt → domainOf s = some d →
    ∃ t, exec .configure s = .next t ∧
      (s.capReq.toInt = -1 → t.run = .ready ∧ t.backend = s.hwcap) ∧
      (0 ≤ s.capReq.toInt → s.capReq.toInt ≤ tierCode s.hwcap →
        t.run = .ready ∧ (tierCode t.backend : Int) = s.capReq.toInt) ∧
      ((tierCode s.hwcap : Int) < s.capReq.toInt → s.capReq.toInt ≤ 3 → t = { s with run := .error, errCode := 7 }) ∧
      (s.capReq.toInt < -1 ∨ 3 < s.capReq.toInt → t = { s with run := .error, errCode := 6 })

/-- The request forms and RESOLVE performed by themselves: in UNCONFIGURED the level, or the error of R236; outside it they, and
VALIDATE and DERIVE, change nothing. That they return the level in `result`, take the error themselves and are ignored
outside UNCONFIGURED as the command is (R117) is the model's choice (entries 10 and 11). -/
def Obligations.PartsOfConfigure : Prop :=
  ∀ (s : State) (k : Tier),
    (s.run = .unconfigured →
      exec .capAuto s = .next (s.withResult (BitVec.ofNat 64 (tierCode s.hwcap))) ∧
      (tierCode k ≤ tierCode s.hwcap → exec (capInstr k) s = .next (s.withResult (BitVec.ofNat 64 (tierCode k)))) ∧
      (tierCode s.hwcap < tierCode k → exec (capInstr k) s = .next { s with run := .error, errCode := 7 }) ∧
      (ResolvesTo s k → RequestSupported s → exec .resolve s = .next (s.withResult (BitVec.ofNat 64 (tierCode k)))) ∧
      (CheckFails s 6 → exec .resolve s = .next { s with run := .error, errCode := 6 }) ∧
      (CheckFails s 7 → exec .resolve s = .next { s with run := .error, errCode := 7 })) ∧
    (s.run ≠ .unconfigured →
      ∀ i ∈ [Instr.validate, .resolve, .derive, .capAuto, .capScalar, .capTier1, .capTier2, .capTier3],
        exec i s = .next s)

/-- DERIVE performed by itself in UNCONFIGURED: the constants of R148 on a valid configuration, and nothing else changes; on an
invalid one the five registers take free values (the model's choice, entry 10). -/
def Obligations.DeriveConstants : Prop :=
  ∀ s : State, s.run = .unconfigured →
    (∀ c ∈ [(Domain.u8, 8, 1), (.u16b10, 10, 4), (.u16b12, 12, 16), (.u16b14, 14, 64), (.u16b16, 16, 257)],
      ValidConfig s c.1 → exec .derive s = .next { s with
        peak := BitVec.ofNat 32 (2 ^ c.2.1 - 1), scale := BitVec.ofNat 32 c.2.2, shift := BitVec.ofNat 32 (c.2.1 - 8)
        lowS := BitVec.ofInt 32 (s.thrLow.toInt * c.2.2), highS := BitVec.ofInt 32 (s.thrHigh.toInt * c.2.2) }) ∧
    (ValidConfig s .f32 → ∃ low high : Word,
      exec .derive s = .next { s with peak := 0x3F800000, scale := 0, shift := 0, lowS := low, highS := high } ∧
      NearestEven (s.thrLow.toNat * 2 ^ 149) 255 low.toNat ∧ NearestEven (s.thrHigh.toNat * 2 ^ 149) 255 high.toNat) ∧
    ((∀ d, ¬ValidConfig s d) → ∃ a b c e f : Word, exec .derive s = .next { s with
      peak := a, scale := b, shift := c, lowS := e, highS := f, draws := s.draws + 1 })

/-! Pixel operations (40_numeric_domain.md, 41_threshold_kernel.md, 42_vector_backends.md). -/

/-- PIX.U8 and PIX.U16: the exact product of the differences, shifted right with its sign, selects 0, PEAK or the product
shifted right by 8, closed by the clamp to PEAK; only smpOut (and the draw counter) changes (R174, R175). -/
def Obligations.PixInteger : Prop :=
  ∀ s : State, ∀ c ∈ [(Instr.pixU8, 8, 256), (.pixU16b10, 10, 65536), (.pixU16b12, 12, 65536), (.pixU16b14, 14, 65536),
      (.pixU16b16, 16, 65536)],
    let u : Int := (s.smpU.toNat % c.2.2 : Nat)
    let m : Int := (s.smpM.toNat % c.2.2 : Nat)
    let l : Int := (s.smpL.toNat % c.2.2 : Nat)
    let prod : Int := (u - m) * (l - m) / 2 ^ (c.2.1 - 8)
    let peak : Int := 2 ^ c.2.1 - 1
    let low : Int := s.lowS.toNat
    let high : Int := s.highS.toNat
    ∃ out : Word, exec c.1 s = .next { s with smpOut := out, draws := s.draws + 1 } ∧
      (prod < low → out = 0) ∧
      (low ≤ prod → high < prod → (out.toNat : Int) = peak) ∧
      (low ≤ prod → prod ≤ high → (out.toNat : Int) = min (prod / 2 ^ 8) peak)

/-- The outputs an integer domain reaches, and no others, with bounds derived from thresholds in order (R177); in the 16-bit
domain a ramp output lies between the thresholds, and a product of 257 q gives q. -/
def Obligations.ReachableOutputs : Prop :=
  (∀ v : Word, ∀ c ∈ [(Instr.pixU8, 1, 0, 255), (.pixU16b10, 4, 3, 1023), (.pixU16b12, 16, 15, 4095),
      (.pixU16b14, 64, 63, 16383), (.pixU16b16, 257, 255, 65535)],
    (∃ (s t : State) (low high : Nat), low ≤ high ∧ high ≤ 255 ∧ s.lowS.toNat = low * c.2.1 ∧
        s.highS.toNat = high * c.2.1 ∧ exec c.1 s = .next t ∧ t.smpOut = v) ↔
      v.toNat ≤ c.2.2.1 ∨ v.toNat = c.2.2.2) ∧
  ∀ (s t : State) (low high : Nat), low ≤ high → high ≤ 255 → s.lowS.toNat = low * 257 → s.highS.toNat = high * 257 →
    exec .pixU16b16 s = .next t →
    let u : Int := (s.smpU.toNat % 65536 : Nat)
    let m : Int := (s.smpM.toNat % 65536 : Nat)
    let l : Int := (s.smpL.toNat % 65536 : Nat)
    let prod : Int := (u - m) * (l - m) / 2 ^ 8
    (low * 257 : Int) ≤ prod → prod ≤ high * 257 →
      low ≤ t.smpOut.toNat ∧ t.smpOut.toNat ≤ high ∧ ∀ q : Nat, prod = q * 257 → t.smpOut.toNat = q

/-- Integer domains: larger differences of matching sign never give a smaller output for the same bounds (R181). -/
def Obligations.IntegerMonotone : Prop :=
  ∀ (s s' t t' : State) (d : Domain), d ≠ .f32 → s'.lowS = s.lowS → s'.highS = s.highS →
    exec (pixInstr d) s = .next t → exec (pixInstr d) s' = .next t' →
    let w := 256 ^ elemSize d
    let dU : Int := (s.smpU.toNat % w : Nat) - (s.smpM.toNat % w : Nat)
    let dD : Int := (s.smpL.toNat % w : Nat) - (s.smpM.toNat % w : Nat)
    let dU' : Int := (s'.smpU.toNat % w : Nat) - (s'.smpM.toNat % w : Nat)
    let dD' : Int := (s'.smpL.toNat % w : Nat) - (s'.smpM.toNat % w : Nat)
    0 ≤ dU * dD → 0 ≤ dU' * dD' → dU.natAbs ≤ dU'.natAbs → dD.natAbs ≤ dD'.natAbs →
    t.smpOut.toNat ≤ t'.smpOut.toNat

/-- Float domain: larger differences of matching sign never give a smaller output in value for the same bounds, for samples in the
domain of R178 (R181). -/
def Obligations.FloatMonotone : Prop :=
  ∀ s s' t t' : State, s'.lowS = s.lowS → s'.highS = s.highS →
    (∀ w ∈ [s.smpU, s.smpM, s.smpL, s'.smpU, s'.smpM, s'.smpL], f32OutOfDomain w = false) →
    exec .pixF32 s = .next t → exec .pixF32 s' = .next t' →
    let dU := f32Units s.smpU - f32Units s.smpM
    let dD := f32Units s.smpL - f32Units s.smpM
    let dU' := f32Units s'.smpU - f32Units s'.smpM
    let dD' := f32Units s'.smpL - f32Units s'.smpM
    0 ≤ dU * dD → 0 ≤ dU' * dD' → dU.natAbs ≤ dU'.natAbs → dD.natAbs ≤ dD'.natAbs →
    f32Key t.smpOut ≤ f32Key t'.smpOut

/-- A pixel with u = m or l = m, or with u and l on opposite sides of m, gives a zero in every domain: 0 in the integer domains; in
F32, for samples in the domain of R178 compared in value and an upper bound that is not negative, a numeric zero, since a
product may round to -0.0 (R173 (a), (b), R162). -/
def Obligations.FlatPixelsGiveZero : Prop :=
  ∀ (s : State) (d : Domain),
    let w := 256 ^ elemSize d
    let dU : Int := (s.smpU.toNat % w : Nat) - (s.smpM.toNat % w : Nat)
    let dD : Int := (s.smpL.toNat % w : Nat) - (s.smpM.toNat % w : Nat)
    (d ≠ .f32 → dU * dD ≤ 0 → exec (pixInstr d) s = .next { s with smpOut := 0, draws := s.draws + 1 }) ∧
    (d = .f32 → (f32Units s.smpU - f32Units s.smpM) * (f32Units s.smpL - f32Units s.smpM) ≤ 0 →
      f32OutOfDomain s.smpU = false → f32OutOfDomain s.smpM = false → f32OutOfDomain s.smpL = false → 0 ≤ f32Key s.highS →
      ∃ out, exec (pixInstr d) s = .next { s with smpOut := out, draws := s.draws + 1 } ∧ f32Key out = 0)

/-- PIX.F32: two subtractions, two multiplications, the select and the division, each rounded once; a ramp result of product
-0.0 may carry either sign; only smpOut (and the draw counter) changes (R178). A pixel outside the domain completes too
(R180). -/
def Obligations.PixFloat : Prop :=
  ∀ s : State,
    let prod := fmul (fmul (fsub s.smpU s.smpM) (fsub s.smpL s.smpM)) 0x437F0000
    ∃ out : Word, exec .pixF32 s = .next { s with smpOut := out, draws := s.draws + 1 } ∧
      (f32OutOfDomain s.smpU = false → f32OutOfDomain s.smpM = false → f32OutOfDomain s.smpL = false →
        (flt prod s.lowS = true → out = 0) ∧
        (flt prod s.lowS = false → fgt prod s.highS = true → out = 0x3F800000) ∧
        (flt prod s.lowS = false → fgt prod s.highS = false → prod = 0x80000000 → out = 0 ∨ out = 0x80000000) ∧
        (flt prod s.lowS = false → fgt prod s.highS = false → prod ≠ 0x80000000 →
          out = fclamp01 (fdiv prod 0x437F0000)))

/-- The binary32 operations on finite values: each result is the exact one rounded to nearest, ties to even, subnormals
honoured, with the sign of the exact result (R12, R159). -/
def Obligations.FloatOperationsRounded : Prop :=
  ∀ a b : Word, f32Finite a = true → f32Finite b = true →
    (f32Units a ≠ f32Units b → NearestEven (f32Units a - f32Units b).natAbs 1 (f32MagBits (fsub a b)) ∧
      f32Sign (fsub a b) = decide (f32Units a < f32Units b)) ∧
    (f32Units a = f32Units b → f32MagBits (fsub a b) = 0) ∧
    NearestEven (f32Mag a * f32Mag b) (2 ^ 149) (f32MagBits (fmul a b)) ∧
    f32Sign (fmul a b) = (f32Sign a != f32Sign b) ∧
    (f32Mag b ≠ 0 → NearestEven (f32Mag a * 2 ^ 149) (f32Mag b) (f32MagBits (fdiv a b)) ∧
      f32Sign (fdiv a b) = (f32Sign a != f32Sign b))

/-- VPIX: lane j of the result is PIX of lane j of the operands, in every domain; only vecOut (and the draw counter) changes; the
lanes do not interact: in the integer domains two states that agree on lane j's operands, the format and the bounds agree on
lane j's result (R215). Without a domain it is refused (R108; the model's refusal, entry 16). -/
def Obligations.VpixLanes : Prop :=
  ∀ (s : State) (n : Nat), s.vecU.length = n → s.vecM.length = n → s.vecLo.length = n →
    (∀ d, domainOf s = some d → ∃ out : List Word,
      exec .vpix s = .next { s with vecOut := out, draws := s.draws + 1 } ∧ out.length = n ∧
      ∀ (j : Nat) (u m l o : Word), s.vecU[j]? = some u → s.vecM[j]? = some m → s.vecLo[j]? = some l → out[j]? = some o →
        (∃ free, o = pix d s.lowS s.highS u m l free) ∧
        ∀ (s' t' : State), d ≠ .f32 → s'.vecU.length = n → s'.vecM.length = n → s'.vecLo.length = n →
          s'.fmt = s.fmt → s'.lowS = s.lowS → s'.highS = s.highS →
          s'.vecU[j]? = some u → s'.vecM[j]? = some m → s'.vecLo[j]? = some l →
          exec .vpix s' = .next t' → t'.vecOut[j]? = some o) ∧
    (domainOf s = none → exec .vpix s = .refused .noSampleDomain)

/-! Rows, planes and frames (41_threshold_kernel.md to 43_dispatch.md). -/

/-- Each row form on an interior row of a valid plane completes: the destination row holds PIX of the three source rows, every
byte outside that row and every register but the datapath's reads as before (R182, R216). That they do so on an absent chroma
plane too is the model's choice (entry 30). -/
def Obligations.RowFormsMask : Prop :=
  ∀ (s : State) (p : PlaneId) (y : Word) (d : Domain) (k : Tier), p.isColour = true → domainOf s = some d →
    descValid d (s.desc p) = true → (s.desc p).width ≠ 0 → 1 ≤ y.toNat → y.toNat + 2 ≤ (s.desc p).height.toNat →
    ∃ t, exec (rowInstr p y k) s = .next t ∧ OnlyDatapath s t ∧
      RowHoldsMask d s.lowS s.highS (s.desc p) s.mem t.mem y.toNat ∧
      SameOutsideRange (dstAddr d (s.desc p) y.toNat 0) ((s.desc p).width.toNat * elemSize d) s.mem t.mem

/-- The row cursors after a row operation point at rows y - 1, y and y + 1 of the source and at row y of the destination, a
pitch apart (R36). That a row form runs on an absent chroma plane's descriptor is the model's choice (entry 30). -/
def Obligations.RowCursors : Prop :=
  ∀ (s t : State) (p : PlaneId) (y : Word) (d : Domain) (k : Tier), domainOf s = some d →
    (s.desc p).width ≠ 0 → exec (rowInstr p y k) s = .next t → (s.desc p).height ≠ 0 →
      t.curUp.toNat = (s.desc p).srcBase.toNat + (y.toNat - 1) * (s.desc p).srcPitch.toNat ∧
      t.curMid.toNat = (s.desc p).srcBase.toNat + y.toNat * (s.desc p).srcPitch.toNat ∧
      t.curLo.toNat = (s.desc p).srcBase.toNat + (y.toNat + 1) * (s.desc p).srcPitch.toNat ∧
      t.curOut.toNat = (s.desc p).dstBase.toNat + y.toNat * (s.desc p).dstPitch.toNat

/-- ZROW of a border row of a valid plane completes: the row's bytes are zero, nothing else of the state changes (R183).
That it does so on an absent chroma plane too is the model's choice (entry 30). -/
def Obligations.ZrowZeroes : Prop :=
  ∀ (s : State) (p : PlaneId) (y : Word) (d : Domain), p.isColour = true → domainOf s = some d →
    descValid d (s.desc p) = true → (s.desc p).height ≠ 0 → y = 0 ∨ y.toNat + 1 = (s.desc p).height.toNat →
    ∃ m, exec (.zrow p y) s = .next (s.withMem m) ∧
      (∀ x, x < (s.desc p).width.toNat → dstSample d (s.desc p) m y.toNat x = 0) ∧
      SameOutsideRange (dstAddr d (s.desc p) y.toNat 0) ((s.desc p).width.toNat * elemSize d) s.mem m

/-- KERNEL and PROCESS of a valid plane complete, alike, with any backend: the destination footprint holds MASK of the source
footprint, every byte outside it and every register but the datapath's reads as before (R184, R189, R243). That they do
so on an absent chroma plane too is the model's choice (entry 30). -/
def Obligations.KernelComputesMask : Prop :=
  ∀ (s : State) (p : PlaneId) (d : Domain), p.isColour = true → domainOf s = some d → descValid d (s.desc p) = true →
    ∃ t, exec (.kernel p) s = .next t ∧ exec (.process p) s = .next t ∧ OnlyDatapath s t ∧
      HoldsMask d s.lowS s.highS (s.desc p) s.mem t.mem ∧ SameOutside (dstFoot d (s.desc p)) s.mem t.mem

/-- Each tier computes exactly the function of the scalar backend, for KERNEL and for a row: byte for byte in the integer
domains, sample by sample in value in the float domain (R210). -/
def Obligations.TiersEqualScalar : Prop :=
  ∀ (s t t0 : State) (p : PlaneId) (y : Word) (d : Domain) (k : Tier), domainOf s = some d →
    (exec (.kernel p) { s with backend := k } = .next t ∧ exec (.kernel p) { s with backend := .scalar } = .next t0) ∨
      (exec (rowInstr p y k) s = .next t ∧ exec (.rowScalar p y) s = .next t0) →
    (d ≠ .f32 → ∀ a, memByte t.mem a = memByte t0.mem a) ∧
    (d = .f32 → SourceInDomain (s.desc p) s.mem →
      (∀ a, (dstFoot d (s.desc p)).contains a = false → memByte t.mem a = memByte t0.mem a) ∧
      ∀ y' x, y' < (s.desc p).height.toNat → x < (s.desc p).width.toNat →
        f32Key (BitVec.ofNat 32 (dstSample d (s.desc p) t.mem y' x)) =
          f32Key (BitVec.ofNat 32 (dstSample d (s.desc p) t0.mem y' x)))

/-- The kernel reads only the source footprint: two states that differ in plane memory outside it (padding, other planes,
earlier frames) give the same destination bytes in the integer domains, and numerically equal destination samples in the float
domain when the source samples are in the domain of R178 (R66, R171, R188, R162). That the kernel runs on
an absent chroma plane's descriptor is the model's choice (entry 30). -/
def Obligations.KernelReadsOnlySource : Prop :=
  ∀ (s t t' : State) (m' : List Host.Cell) (p : PlaneId) (d : Domain), domainOf s = some d →
    (∀ a, SrcByte d (s.desc p) a → memByte m' a = memByte s.mem a) →
    exec (.kernel p) s = .next t → exec (.kernel p) (s.withMem m') = .next t' → PlaneNotEmpty (s.desc p) →
    (d ≠ .f32 → ∀ a, DstByte d (s.desc p) a → memByte t'.mem a = memByte t.mem a) ∧
    (d = .f32 → SourceInDomain (s.desc p) s.mem →
      ∀ y x, y < (s.desc p).height.toNat → x < (s.desc p).width.toNat →
        f32Key (BitVec.ofNat 32 (dstSample d (s.desc p) t'.mem y x)) =
          f32Key (BitVec.ofNat 32 (dstSample d (s.desc p) t.mem y x)))

/-- COPY of a valid plane completes: each row's bytes are those of the source row, every other byte and every register reads as
before; no value is interpreted (R245). That it runs on an absent plane as on a present one is the model's choice (entry 30). -/
def Obligations.CopyBytes : Prop :=
  ∀ (s : State) (p : PlaneId) (d : Domain), domainOf s = some d → descValid d (s.desc p) = true →
    ∃ m, exec (.copy p) s = .next (s.withMem m) ∧ HoldsCopy d (s.desc p) s.mem m ∧
      SameOutside (dstFoot d (s.desc p)) s.mem m

/-- Degenerate geometries: a plane of no rows or no columns is not accessed by the kernel, the row forms, ZROW, PROCESS and COPY;
a plane of one or two rows is written with zeros whatever the source holds, and only inside the plane (R186, R245). That ZROW and
the row forms complete on an empty plane for every row number is the model's choice (entry 16), and so is that the operations run on
an absent plane (entry 30). -/
def Obligations.DegenerateGeometries : Prop :=
  ∀ (s : State) (p : PlaneId) (y : Word) (k : Tier),
    ((s.desc p).width = 0 ∨ (s.desc p).height = 0 →
      exec (.copy p) s = .next s ∧
      (p.isColour = true → exec (.kernel p) s = .next s ∧ exec (.process p) s = .next s ∧
        exec (.zrow p y) s = .next s ∧ exec (rowInstr p y k) s = .next s)) ∧
    (∀ d, p.isColour = true → domainOf s = some d → descValid d (s.desc p) = true →
      (s.desc p).height = 1 ∨ (s.desc p).height = 2 →
      ∃ m, exec (.kernel p) s = .next (s.withMem m) ∧ (∀ a, DstByte d (s.desc p) a → memByte m a = 0) ∧
        ∀ a, ¬DstByte d (s.desc p) a → memByte m a = memByte s.mem a)

/-- UNTOUCHED performs no access and changes nothing, whatever the descriptor holds (R246). -/
def Obligations.UntouchedNoAccess : Prop :=
  ∀ (s : State) (p : PlaneId), p.isColour = true → exec (.untouched p) s = .next s

/-- ALPHA.COPY is COPY of plane 3 when alpha is present, whatever the mode registers hold; alpha can never be processed or
left untouched (R247); absent, it is no operation (deduced from R241 and R247, entry 30). That PROCESS and UNTOUCHED of plane 3
are refused by name is the model's choice (entry 16). -/
def Obligations.AlphaCopied : Prop :=
  ∀ (s : State) (y u v : Word),
    (fmtField s 12 1 = 1 →
      exec .alphaCopy { s with modeY := y, modeU := u, modeV := v } = exec (.copy .a) { s with modeY := y, modeU := u, modeV := v } ∧
      ∀ d, domainOf s = some d → descValid d s.descA = true →
        ∃ m, exec .alphaCopy s = .next (s.withMem m) ∧ HoldsCopy d s.descA s.mem m ∧ SameOutside (dstFoot d s.descA) s.mem m) ∧
    (fmtField s 12 1 = 0 → exec .alphaCopy s = .next s) ∧
    exec (.process .a) s = .refused .notAColourPlane ∧ exec (.untouched .a) s = .refused .notAColourPlane

/-- Where the plane operations stop (the model's refusals, entries 15 and 16, on an absent plane as on a present one,
entry 30): no domain selected (R108), a descriptor outside the contract (R71), for COPY on all four planes and for ALPHA.COPY when alpha is
present; a row that is not of the operation's kind (R182, R183), alpha given to the kernel (R248). -/
def Obligations.PlaneOperationsStop : Prop :=
  ∀ (s : State) (p : PlaneId) (y : Word) (k : Tier),
    (PlaneNotEmpty (s.desc p) → domainOf s = none →
      exec (.copy p) s = .refused .noSampleDomain ∧
      (p.isColour = true →
        ∀ i ∈ [Instr.kernel p, .process p, .zrow p y, rowInstr p y k], exec i s = .refused .noSampleDomain)) ∧
    (∀ d, PlaneNotEmpty (s.desc p) → domainOf s = some d → descValid d (s.desc p) = false →
      exec (.copy p) s = .refused .descriptorOutsideContract ∧
      (p.isColour = true →
        ∀ i ∈ [Instr.kernel p, .process p, .zrow p y, rowInstr p y k], exec i s = .refused .descriptorOutsideContract)) ∧
    (fmtField s 12 1 = 1 → PlaneNotEmpty s.descA →
      (domainOf s = none → exec .alphaCopy s = .refused .noSampleDomain) ∧
      ∀ d, domainOf s = some d → descValid d s.descA = false → exec .alphaCopy s = .refused .descriptorOutsideContract) ∧
    (∀ d, PlaneNotEmpty (s.desc p) → p.isColour = true → domainOf s = some d → descValid d (s.desc p) = true →
      (y.toNat = 0 ∨ (s.desc p).height.toNat < y.toNat + 2 → exec (rowInstr p y k) s = .refused .rowOutOfRange) ∧
      (y.toNat ≠ 0 → y.toNat + 1 ≠ (s.desc p).height.toNat → exec (.zrow p y) s = .refused .rowOutOfRange)) ∧
    (∀ i ∈ [Instr.kernel .a, .zrow .a y, rowInstr .a y k], exec i s = .refused .notAColourPlane)

/-- What V1 to V4 ask of the accessed planes, byte by byte: pitches not below the row, no wrap past 2^64, natural alignment,
no destination byte in any source or in another destination (R69, R70). -/
def Obligations.FrameContract : Prop :=
  ∀ (s : State) (d : Domain),
    let accessed (p : PlaneId) : Prop := isPresent s p = true ∧ (effMode s p = 2 ∨ effMode s p = 3)
    frameValid d s = true ↔ ∀ p, accessed p →
      let ds := s.desc p
      let es := elemSize d
      (ds.width.toNat * es ≤ ds.srcPitch.toNat ∧ ds.width.toNat * es ≤ ds.dstPitch.toNat) ∧
      (ds.height ≠ 0 → ds.width ≠ 0 →
        ds.srcBase.toNat + (ds.height.toNat - 1) * ds.srcPitch.toNat + ds.width.toNat * es ≤ 2 ^ 64 ∧
        ds.dstBase.toNat + (ds.height.toNat - 1) * ds.dstPitch.toNat + ds.width.toNat * es ≤ 2 ^ 64) ∧
      (ds.srcBase.toNat % es = 0 ∧ ds.dstBase.toNat % es = 0 ∧ ds.srcPitch.toNat % es = 0 ∧
        ds.dstPitch.toNat % es = 0) ∧
      ∀ q, accessed q → ∀ a, DstByte d ds a →
        ¬SrcByte d (s.desc q) a ∧ (q ≠ p → ¬DstByte d (s.desc q) a)

/-- FRAME in READY with descriptors inside the contract is accepted: BUSY at the first sample of the first plane with
something to do, or complete at once when there is none (the model's granularity, entry 14), and nothing else changes (R240,
R307, R41). -/
def Obligations.FrameAccepted : Prop :=
  ∀ (s : State) (d : Domain), s.run = .ready → domainOf s = some d → frameValid d s = true →
    (∀ p, hasWork s p = true → (∀ q, planeIndex q < planeIndex p → hasWork s q = false) →
      exec .frame s = .next { s with run := .busy, pos := some { plane := p, row := 0, col := 0 } }) ∧
    ((∀ p, hasWork s p = false) → exec .frame s = .next { s with run := .ready, pos := none })

/-- FRAME in READY with descriptors that break V1 to V4 is given no meaning: it is refused (R71). -/
def Obligations.FrameOutsideContract : Prop :=
  ∀ (s : State) (d : Domain), s.run = .ready → domainOf s = some d → frameValid d s = false →
    exec .frame s = .refused .descriptorOutsideContract

/-- How pos advances: in a Process plane one lane group (or one sample of a remainder), in a Copy plane one row; columns, rows
and planes in ascending order; after the last one IDLE and READY (R41, R214; one group a step is the model's granularity,
entry 13). -/
def Obligations.SequencerAdvances : Prop :=
  ∀ (s : State) (q : Pos) (d : Domain), InstanceInv s → s.run = .busy → s.inbox = [] → s.pos = some q →
    domainOf s = some d →
    let w := (s.desc q.plane).width.toNat
    let h := (s.desc q.plane).height.toNat
    let lanes := match s.backend with
      | .scalar => 1 | .tier1 => 16 / elemSize d | .tier2 => 32 / elemSize d | .tier3 => 64 / elemSize d
    let n := if effMode s q.plane = 2 then w else if q.col + lanes ≤ w then lanes else 1
    ∃ t, step s = .next t ∧ OnlyDatapath s { t with run := s.run, pos := s.pos } ∧
      (q.col + n < w → t.run = .busy ∧ t.pos = some { q with col := q.col + n }) ∧
      (w ≤ q.col + n → q.row + 1 < h → t.run = .busy ∧ t.pos = some { q with row := q.row + 1, col := 0 }) ∧
      (w ≤ q.col + n → h ≤ q.row + 1 →
        (∀ p, planeIndex q.plane < planeIndex p → hasWork s p = true →
          (∀ r, planeIndex q.plane < planeIndex r → planeIndex r < planeIndex p → hasWork s r = false) →
          t.run = .busy ∧ t.pos = some { plane := p, row := 0, col := 0 }) ∧
        ((∀ p, planeIndex q.plane < planeIndex p → hasWork s p = false) → t.run = .ready ∧ t.pos = none))

/-- A FRAME always completes, and its effect is R249's: from the write of the command, after some number of steps the instance is
READY again; every present Process plane holds MASK of its source, every present Copy plane its source's bytes, every other
byte and every register but the datapath's reads as before (R249, R250). -/
def Obligations.FrameRunsToCompletion : Prop :=
  ∀ (s : State) (d : Domain), s.run = .ready → s.pos = none → domainOf s = some d → frameValid d s = true →
    ∃ (n : Nat) (t : State),
      Host.Core.run Sys2Proof.core n (s.withInbox (asPending [.write 0x000 0x0000000000000002])) = .next t ∧
      OnlyDatapath (s.withInbox []) t ∧
      (∀ p, isPresent s p = true → effMode s p = 3 → HoldsMask d s.lowS s.highS (s.desc p) s.mem t.mem) ∧
      (∀ p, isPresent s p = true → effMode s p = 2 → HoldsCopy d (s.desc p) s.mem t.mem) ∧
      ∀ a, (∀ p, isPresent s p = true → (effMode s p = 2 ∨ effMode s p = 3) → (dstFoot d (s.desc p)).contains a = false) →
        memByte t.mem a = memByte s.mem a

/-! Reset (70_reset_and_hazards.md, 10_state.md). -/

/-- Reset, whatever the state: every register reads 0 but CAPS, which shows the straps as before; pos is IDLE, STATE
UNCONFIGURED; the sequencer makes no further access; a CONFIGURE straight after it fails with E_MODE_RANGE (R50, R300). -/
def Obligations.ResetRegisters : Prop :=
  ∀ s : State, ∃ t, exec .reset s = .next t ∧ t.run = .unconfigured ∧ t.pos = none ∧
    (∀ n, n < 48 → n ≠ 2 → ReadsAs t n 0) ∧ t.hwcap = s.hwcap ∧ t.threadClass = s.threadClass ∧
    t.inbox = s.inbox ∧ sequencerStep t = .next t ∧
    exec .configure t = .next { t with run := .error, errCode := 2 }

/-- Plane memory over a reset: unchanged outside BUSY; in BUSY every byte outside the destination footprints of the planes in
Process or Copy mode is unchanged (R301, R302, R51). -/
def Obligations.ResetMemory : Prop :=
  ∀ s : State, ∃ t, exec .reset s = .next t ∧ (s.run ≠ .busy → t.mem = s.mem) ∧
    ∀ a, (∀ d p, domainOf s = some d → isPresent s p = true → (effMode s p = 2 ∨ effMode s p = 3) →
      (dstFoot d (s.desc p)).contains a = false) → memByte t.mem a = memByte s.mem a

/-- The machine right after reset: every register but CAPS reads 0 and pos is IDLE (R50); no byte of plane memory is listed. Plane
memory has no reset value (R51): that State.reset lists none, so that every byte reads as an unwritten one does, is the model's
choice (entry 2). -/
def Obligations.ResetState : Prop :=
  (∀ n, n < 48 → n ≠ 2 → ReadsAs State.reset n 0) ∧ State.reset.run = .unconfigured ∧ State.reset.pos = none ∧
    State.reset.mem = [] ∧ Sys2Proof.core.reset = State.reset

/-! Plane memory (20_memory.md). -/

/-- MemRead is the little-endian sum of its bytes; MemWrite stores the bytes of the value little-endian and changes no other byte
(R61, R62). -/
def Obligations.LittleEndian : Prop :=
  ∀ (m : List Host.Cell) (addr n v : Nat),
    memRead m addr n = ((List.range n).map fun i => (memByte m (addr + i)).toNat * 2 ^ (8 * i)).sum ∧
    (∀ i, i < n → (memByte (memWrite m addr n v) (addr + i)).toNat = v / 2 ^ (8 * i) % 256) ∧
    ∀ a, a < addr ∨ addr + n ≤ a → memByte (memWrite m addr n v) a = memByte m a

/-- Plane memory is ordinary memory for the host outside BUSY: a write of a byte changes that byte only, and a read returns the
byte last written and changes no byte (R60); an address at or above 2^64 does not exist. -/
def Obligations.HostMemoryAccess : Prop :=
  ∀ (s : State) (rest : List Pending) (a : Nat) (b : Byte),
    (s.inbox = { gap := 0, event := .memWrite a b } :: rest → s.run ≠ .busy → a < 2 ^ 64 →
      ∃ m, step s = .next ((s.withInbox rest).withMem m) ∧ memByte m a = b ∧
        ∀ a', a' ≠ a → memByte m a' = memByte s.mem a') ∧
    (s.inbox = { gap := 0, event := .memRead a } :: rest → s.run ≠ .busy → a < 2 ^ 64 →
      step s = .next ((s.withInbox rest).withResult ((memByte s.mem a).setWidth 64))) ∧
    (s.inbox = { gap := 0, event := .memWrite a b } :: rest ∨ s.inbox = { gap := 0, event := .memRead a } :: rest →
      2 ^ 64 ≤ a → step s = .fault (.outsidePlaneMemory a))

/-- Plane memory during BUSY: a host write into a source footprint is refused (R77, U6), one into a destination footprint too
(entry 17); a read of a destination byte returns some byte and the FRAME goes on (R75 M3, U7); a byte in no footprint is written,
and a byte in no destination footprint is read, as outside BUSY (R60, R77). -/
def Obligations.BusyOwnership : Prop :=
  ∀ (s : State) (rest : List Pending) (d : Domain) (a : Nat) (b : Byte), s.run = .busy → domainOf s = some d → a < 2 ^ 64 →
    let accessed (p : PlaneId) : Prop := isPresent s p = true ∧ (effMode s p = 2 ∨ effMode s p = 3)
    (s.inbox = { gap := 0, event := .memWrite a b } :: rest →
      (∀ p, accessed p → (srcFoot d (s.desc p)).contains a = true → step s = .refused .sourceWrittenWhileBusy) ∧
      (∀ p, accessed p → (dstFoot d (s.desc p)).contains a = true → frameValid d s = true →
        step s = .refused .destinationWrittenWhileBusy) ∧
      ((∀ p, accessed p → ¬SrcByte d (s.desc p) a ∧ ¬DstByte d (s.desc p) a) →
        ∃ m, step s = .next ((s.withInbox rest).withMem m) ∧ memByte m a = b ∧
          ∀ a', a' ≠ a → memByte m a' = memByte s.mem a')) ∧
    (s.inbox = { gap := 0, event := .memRead a } :: rest →
      (∀ p, accessed p → (dstFoot d (s.desc p)).contains a = true →
        ∃ free : Byte, step s = .next { s with inbox := rest, result := free.setWidth 64, draws := s.draws + 1 }) ∧
      ((∀ p, accessed p → ¬DstByte d (s.desc p) a) →
        step s = .next ((s.withInbox rest).withResult ((memByte s.mem a).setWidth 64))))

/-! Every step. -/

/-- Plane memory keeps its canonical form in every step of every state. -/
def Obligations.MemoryStaysCanonical : Prop :=
  ∀ s t : State, Memory.wf s.mem = true → step s = .next t → Memory.wf t.mem = true

/-- The machine after reset satisfies the invariant of an instance. -/
def Obligations.ResetSatisfiesInvariant : Prop := InstanceInv State.reset

/-- Every step keeps the invariant of an instance (the state machine of R45 with what R24, R30, R31 and R40 say of the
registers in each state). -/
def Obligations.InvariantKept : Prop :=
  ∀ s t : State, InstanceInv s → step s = .next t → InstanceInv t

/-- STATUS.STATE moves only as listed: CONFIGURE from UNCONFIGURED to READY or ERROR, FRAME from READY to BUSY, the sequencer
from BUSY to READY, reset from any state to UNCONFIGURED; only reset leaves ERROR (R45, R281). -/
def Obligations.OnlyListedTransitions : Prop :=
  ∀ s t : State, HostOnly s = true → step s = .next t → t.run ≠ s.run →
    (∃ r, eventNow s = some (.request r) ∧ decode r = .ok .configure ∧ s.run = .unconfigured ∧
      (t.run = .ready ∨ t.run = .error)) ∨
    (∃ r, eventNow s = some (.request r) ∧ decode r = .ok .frame ∧ s.run = .ready ∧ t.run = .busy) ∨
    (eventNow s = none ∧ s.run = .busy ∧ t.run = .ready) ∨
    (eventNow s = some (.request .rst) ∧ t.run = .unconfigured)

/-- Once a configuration has been accepted or refused, no step but reset changes the option registers, the constants or the
backend; during BUSY no step but reset changes a descriptor (R314, R312, R31, R220). -/
def Obligations.RegistersLocked : Prop :=
  ∀ s t : State, eventNow s ≠ some (.request .rst) → step s = .next t →
    (s.run ≠ .unconfigured → SameConfiguration s t) ∧ (s.run = .busy → ∀ p, t.desc p = s.desc p)

/-- Who writes plane memory: a step that changes a byte is the running FRAME's (or its abandonment by reset) inside a
destination footprint of a plane it accesses and in no source footprint, or the host's own write of that byte (R51, R66,
R67). -/
def Obligations.OnlyDestinationsWritten : Prop :=
  ∀ (s t : State) (a : Nat), InstanceInv s → step s = .next t → memByte t.mem a ≠ memByte s.mem a →
    (s.run = .busy ∧ ∃ d, domainOf s = some d ∧
      (∃ p, isPresent s p = true ∧ (effMode s p = 2 ∨ effMode s p = 3) ∧ DstByte d (s.desc p) a) ∧
      ∀ q, isPresent s q = true → (effMode s q = 2 ∨ effMode s q = 3) → ¬SrcByte d (s.desc q) a) ∨
    ∃ b, eventNow s = some (.memWrite a b)
end

