-- ==== Sys2Proof/Laws/Memory.lean ====
section
/-! SUPPORT. What the operations on plane memory do: one lemma each for the byte it leaves at an address, and that it keeps the
canonical form. -/

namespace Sys2Proof.Machine

/-! One byte. -/

@[simp] theorem memByte_memErase (m : List Host.Cell) (a c : Nat) :
    memByte (memErase m a) c = if c = a then Config.unwrittenByte else memByte m c := by
  induction m with
  | nil => simp [memErase, memByte]
  | cons hd tl ih =>
    obtain ⟨k, b⟩ := hd
    unfold memErase at ih ⊢
    by_cases hk : k = a
    · subst hk
      by_cases hc : c = k
      · simp_all
      · simp [memByte, Ne.symm hc, hc, ih]
    · by_cases hc : c = a
      · subst hc; simp [hk, memByte] at ih ⊢; exact ih
      · simp [hk, memByte, hc] at ih ⊢; rw [ih]

theorem memByte_memEntry (a : Nat) (b : Byte) (rest : List Host.Cell) (c : Nat)
    (h : memByte rest a = Config.unwrittenByte) :
    memByte (memEntry a b rest) c = if c = a then b else memByte rest c := by
  unfold memEntry
  by_cases hc : c = a
  · subst hc
    split
    · rename_i hb; rw [if_pos rfl, h, hb]
    · simp [memByte]
  · split
    · rfl
    · simp [memByte, Ne.symm hc]

/-- The read-after-write law, for every memory (20_memory.md R60). -/
@[simp] theorem memByte_memSet (m : List Host.Cell) (a : Nat) (b : Byte) (c : Nat) :
    memByte (memSet m a b) c = if c = a then b else memByte m c := by
  induction m with
  | nil => exact memByte_memEntry a b [] c rfl
  | cons hd tl ih =>
    obtain ⟨k, x⟩ := hd
    simp only [memSet]
    split
    · rename_i h; subst h
      rw [ih]; simp only [memByte]; split
      · rfl
      · rename_i hc; rw [if_neg (Ne.symm hc)]
    · rename_i h
      split
      · rw [memByte_memEntry _ _ _ _ (by simp [memByte, Ne.symm h])]
        simp only [memByte, memByte_memErase]
        split
        · rfl
        · rfl
      · simp only [memByte, ih]
        split
        · rename_i hk; subst hk; rw [if_neg (Ne.symm h)]
        · rfl

/-! The canonical form. -/

theorem memWfFrom_mono (lo lo' : Nat) (m : List Host.Cell) (h : lo' ≤ lo) (hm : memWfFrom lo m = true) :
    memWfFrom lo' m = true := by
  cases m with
  | nil => rfl
  | cons hd tl =>
    obtain ⟨a, b⟩ := hd
    simp only [memWfFrom, Bool.and_eq_true, decide_eq_true_eq] at hm ⊢
    exact ⟨⟨⟨by omega, hm.1.1.2⟩, hm.1.2⟩, hm.2⟩

theorem memErase_wfFrom (lo a : Nat) (m : List Host.Cell) (hm : memWfFrom lo m = true) :
    memWfFrom lo (memErase m a) = true := by
  induction m generalizing lo with
  | nil => rfl
  | cons hd tl ih =>
    obtain ⟨k, b⟩ := hd
    simp only [memWfFrom, Bool.and_eq_true, decide_eq_true_eq] at hm
    have hr := ih (k + 1) hm.2
    unfold memErase at hr ⊢
    by_cases hk : k = a
    · simp only [List.filter_cons, hk, bne_self_eq_false, Bool.false_eq_true, if_false]
      subst hk
      exact memWfFrom_mono (k + 1) lo _ (by omega) hr
    · simp only [List.filter_cons, bne_iff_ne.mpr hk, if_true, memWfFrom, Bool.and_eq_true, decide_eq_true_eq]
      exact ⟨⟨⟨hm.1.1.1, hm.1.1.2⟩, hm.1.2⟩, hr⟩

theorem memEntry_wfFrom (lo a : Nat) (b : Byte) (rest : List Host.Cell) (hlo : lo ≤ a)
    (ha : a < Config.planeMemoryEnd) (hr : memWfFrom (a + 1) rest = true) : memWfFrom lo (memEntry a b rest) = true := by
  unfold memEntry
  split
  · exact memWfFrom_mono (a + 1) lo rest (by omega) hr
  · rename_i hb
    simp only [memWfFrom, Bool.and_eq_true, decide_eq_true_eq]
    exact ⟨⟨⟨hlo, ha⟩, by simpa using hb⟩, hr⟩

theorem memSet_wfFrom (lo a : Nat) (b : Byte) (m : List Host.Cell) (hlo : lo ≤ a) (ha : a < Config.planeMemoryEnd)
    (hm : memWfFrom lo m = true) : memWfFrom lo (memSet m a b) = true := by
  induction m generalizing lo with
  | nil => exact memEntry_wfFrom lo a b [] hlo ha rfl
  | cons hd tl ih =>
    obtain ⟨k, x⟩ := hd
    simp only [memWfFrom, Bool.and_eq_true, decide_eq_true_eq] at hm
    simp only [memSet]
    split
    · exact ih lo hlo (memWfFrom_mono (k + 1) lo tl (by omega) hm.2)
    · split
      · refine memEntry_wfFrom lo a b _ hlo ha ?_
        simp only [memWfFrom, Bool.and_eq_true, decide_eq_true_eq]
        exact ⟨⟨⟨by omega, hm.1.1.2⟩, hm.1.2⟩, memErase_wfFrom _ _ _ hm.2⟩
      · simp only [memWfFrom, Bool.and_eq_true, decide_eq_true_eq]
        exact ⟨⟨⟨hm.1.1.1, hm.1.1.2⟩, hm.1.2⟩, ih (k + 1) (by omega) hm.2⟩

/-- Storing a byte that exists keeps the canonical form. -/
theorem memSet_wf (m : List Host.Cell) (a : Nat) (b : Byte) (ha : a < Config.planeMemoryEnd)
    (hm : Memory.wf m = true) : Memory.wf (memSet m a b) = true :=
  memSet_wfFrom 0 a b m (Nat.zero_le a) ha hm

/-- In the canonical form, an entry below a bound is no entry: the byte reads as unwritten. -/
theorem memByte_of_lt (lo : Nat) (m : List Host.Cell) (h : memWfFrom lo m = true) (a : Nat) (ha : a < lo) :
    memByte m a = Config.unwrittenByte := by
  induction m generalizing lo with
  | nil => rfl
  | cons hd tl ih =>
    obtain ⟨k, b⟩ := hd
    simp only [memWfFrom, Bool.and_eq_true, decide_eq_true_eq] at h
    have : k ≠ a := by omega
    simp only [memByte, this, if_false]
    exact ih (k + 1) h.2 (by omega)

/-- Memories in the canonical form that read alike are equal data. -/
theorem memory_ext (lo : Nat) (m m' : List Host.Cell) (h : memWfFrom lo m = true) (h' : memWfFrom lo m' = true)
    (heq : ∀ a, memByte m a = memByte m' a) : m = m' := by
  induction m generalizing lo m' with
  | nil =>
    cases m' with
    | nil => rfl
    | cons hd tl =>
      obtain ⟨k, b⟩ := hd
      simp only [memWfFrom, Bool.and_eq_true, decide_eq_true_eq] at h'
      have := heq k
      simp only [memByte, if_true] at this
      have hb := h'.1.2
      rw [← this] at hb
      simp at hb
  | cons hd tl ih =>
    obtain ⟨k, b⟩ := hd
    have hw := h
    simp only [memWfFrom, Bool.and_eq_true, decide_eq_true_eq] at h
    cases m' with
    | nil =>
      have := heq k
      simp only [memByte, if_true] at this
      have hb := h.1.2
      rw [this] at hb
      simp at hb
    | cons hd' tl' =>
      obtain ⟨k', b'⟩ := hd'
      have hw' := h'
      simp only [memWfFrom, Bool.and_eq_true, decide_eq_true_eq] at h'
      have hkk : k = k' := by
        rcases Nat.lt_trichotomy k k' with hlt | heq' | hgt
        · have h1 := heq k
          have h2 : memByte ((k', b') :: tl') k = Config.unwrittenByte := by
            have : k' ≠ k := by omega
            simp only [memByte, this, if_false]
            exact memByte_of_lt (k' + 1) tl' h'.2 k (by omega)
          rw [h2] at h1
          simp only [memByte, if_true] at h1
          have hb := h.1.2
          rw [h1] at hb; simp at hb
        · exact heq'
        · have h1 := heq k'
          have h2 : memByte ((k, b) :: tl) k' = Config.unwrittenByte := by
            have : k ≠ k' := by omega
            simp only [memByte, this, if_false]
            exact memByte_of_lt (k + 1) tl h.2 k' (by omega)
          rw [h2] at h1
          simp only [memByte, if_true] at h1
          have hb := h'.1.2
          rw [← h1] at hb; simp at hb
      subst hkk
      have hbb : b = b' := by
        have := heq k
        simpa [memByte] using this
      subst hbb
      have : tl = tl' := by
        refine ih (k + 1) tl' h.2 h'.2 ?_
        intro a
        by_cases hak : k = a
        · subst hak
          rw [memByte_of_lt _ tl h.2 k (by omega), memByte_of_lt _ tl' h'.2 k (by omega)]
        · have := heq a
          simpa [memByte, hak] using this
      rw [this]

/-! Runs of bytes. -/

theorem memRead_lt (m : List Host.Cell) (a n : Nat) : memRead m a n < 256 ^ n := by
  induction n generalizing a with
  | zero => simp [memRead]
  | succ n ih =>
    have h := ih (a + 1)
    have hb := (memByte m a).isLt
    simp only [memRead, Nat.pow_succ]
    omega

/-- A read depends only on the bytes it reads. -/
theorem memRead_congr (m m' : List Host.Cell) (a n : Nat)
    (h : ∀ c, a ≤ c → c < a + n → memByte m c = memByte m' c) : memRead m a n = memRead m' a n := by
  induction n generalizing a with
  | zero => rfl
  | succ n ih =>
    simp only [memRead]
    rw [h a (Nat.le_refl a) (by omega), ih (a + 1) fun c h1 h2 => h c (by omega) (by omega)]

/-- The byte MemWrite leaves at an address, for every memory (20_memory.md R62). -/
theorem memByte_memWrite (m : List Host.Cell) (a n v c : Nat) :
    memByte (memWrite m a n v) c =
      if a ≤ c ∧ c < a + n then BitVec.ofNat 8 (v / 256 ^ (c - a)) else memByte m c := by
  induction n generalizing m a v with
  | zero =>
    have : ¬(a ≤ c ∧ c < a + 0) := by omega
    simp only [memWrite, this, if_false]
  | succ n ih =>
    simp only [memWrite]
    rw [ih]
    by_cases h1 : a + 1 ≤ c ∧ c < a + 1 + n
    · have h2 : a ≤ c ∧ c < a + (n + 1) := by omega
      rw [if_pos h1, if_pos h2, Nat.div_div_eq_div_mul]
      congr 2
      have : c - a = (c - (a + 1)) + 1 := by omega
      rw [this, Nat.pow_succ, Nat.mul_comm]
    · rw [if_neg h1, memByte_memSet]
      by_cases h3 : c = a
      · subst h3
        have h2 : c ≤ c ∧ c < c + (n + 1) := by omega
        rw [if_pos rfl, if_pos h2]; simp
      · have h2 : ¬(a ≤ c ∧ c < a + (n + 1)) := by omega
        rw [if_neg h3, if_neg h2]

/-- MemRead after MemWrite at the same place (20_memory.md R61, R62). -/
theorem memRead_memWrite_same (m : List Host.Cell) (a n v : Nat) : memRead (memWrite m a n v) a n = v % 256 ^ n := by
  induction n generalizing m a v with
  | zero => simp [memRead, Nat.mod_one]
  | succ n ih =>
    simp only [memRead, memWrite]
    rw [ih]
    have h1 : memByte (memWrite (memSet m a (BitVec.ofNat 8 v)) (a + 1) n (v / 256)) a = BitVec.ofNat 8 v := by
      rw [memByte_memWrite, if_neg (by omega), memByte_memSet, if_pos rfl]
    have h2 : 256 ^ (n + 1) = 256 * 256 ^ n := by rw [Nat.pow_succ, Nat.mul_comm]
    have h3 : (BitVec.ofNat 8 v).toNat = v % 256 := BitVec.toNat_ofNat v 8
    rw [h1, h3, h2, Nat.mod_mul]

theorem memWrite_wf (m : List Host.Cell) (a n v : Nat) (ha : a + n ≤ Config.planeMemoryEnd)
    (hm : Memory.wf m = true) : Memory.wf (memWrite m a n v) = true := by
  induction n generalizing m a v with
  | zero => exact hm
  | succ n ih => exact ih _ _ _ (by omega) (memSet_wf m a _ (by omega) hm)

/-- The byte a fill leaves at an address (41_threshold_kernel.md R183). -/
theorem memByte_memZero (m : List Host.Cell) (a n c : Nat) :
    memByte (memZero m a n) c = if a ≤ c ∧ c < a + n then 0 else memByte m c := by
  induction n generalizing m a with
  | zero =>
    have : ¬(a ≤ c ∧ c < a + 0) := by omega
    simp only [memZero, this, if_false]
  | succ n ih =>
    simp only [memZero]
    rw [ih, memByte_memSet]
    by_cases h1 : a + 1 ≤ c ∧ c < a + 1 + n
    · rw [if_pos h1, if_pos (by omega)]
    · rw [if_neg h1]
      by_cases h3 : c = a
      · rw [if_pos h3, if_pos (by omega)]
      · rw [if_neg h3, if_neg (by omega)]

theorem memZero_wf (m : List Host.Cell) (a n : Nat) (ha : a + n ≤ Config.planeMemoryEnd) (hm : Memory.wf m = true) :
    Memory.wf (memZero m a n) = true := by
  induction n generalizing m a with
  | zero => exact hm
  | succ n ih => exact ih _ _ (by omega) (memSet_wf m a _ (by omega) hm)

/-- The byte a copy between ranges without a common byte leaves at an address (43_dispatch.md R245). -/
theorem memByte_memCopy (m : List Host.Cell) (src dst n c : Nat) (h : src + n ≤ dst ∨ dst + n ≤ src) :
    memByte (memCopy m src dst n) c =
      if dst ≤ c ∧ c < dst + n then memByte m (src + (c - dst)) else memByte m c := by
  induction n generalizing m src dst with
  | zero =>
    have : ¬(dst ≤ c ∧ c < dst + 0) := by omega
    simp only [memCopy, this, if_false]
  | succ n ih =>
    simp only [memCopy]
    rw [ih _ _ _ (by omega)]
    by_cases h1 : dst + 1 ≤ c ∧ c < dst + 1 + n
    · rw [if_pos h1, if_pos (by omega), memByte_memSet, if_neg (by omega)]
      congr 1; omega
    · rw [if_neg h1, memByte_memSet]
      by_cases h3 : c = dst
      · rw [if_pos h3, if_pos (by omega), h3]; simp
      · rw [if_neg h3, if_neg (by omega)]

/-- A copy changes no byte outside its destination range, whatever it overlaps. -/
theorem memByte_memCopy_outside (m : List Host.Cell) (src dst n c : Nat) (h : c < dst ∨ dst + n ≤ c) :
    memByte (memCopy m src dst n) c = memByte m c := by
  induction n generalizing m src dst with
  | zero => rfl
  | succ n ih =>
    simp only [memCopy]
    rw [ih _ _ _ (by omega), memByte_memSet, if_neg (by omega)]

theorem memCopy_wf (m : List Host.Cell) (src dst n : Nat) (ha : dst + n ≤ Config.planeMemoryEnd)
    (hm : Memory.wf m = true) : Memory.wf (memCopy m src dst n) = true := by
  induction n generalizing m src dst with
  | zero => exact hm
  | succ n ih => exact ih _ _ _ (by omega) (memSet_wf m dst _ (by omega) hm)

/-- Drawing bytes changes no byte outside the range (70_reset_and_hazards.md R301). -/
theorem memByte_memDraw_outside (draw : Nat) (m : List Host.Cell) (a n c : Nat) (h : c < a ∨ a + n ≤ c) :
    memByte (memDraw draw m a n) c = memByte m c := by
  induction n generalizing m a with
  | zero => rfl
  | succ n ih =>
    simp only [memDraw]
    rw [ih _ _ (by omega)]
    split
    · rw [memByte_memSet, if_neg (by omega)]
    · rfl

theorem memDraw_wf (draw : Nat) (m : List Host.Cell) (a n : Nat) (hm : Memory.wf m = true) :
    Memory.wf (memDraw draw m a n) = true := by
  induction n generalizing m a with
  | zero => exact hm
  | succ n ih =>
    refine ih _ _ ?_
    split
    · exact memSet_wf m a _ ‹_› hm
    · exact hm

/-! Lanes. -/

@[simp] theorem loadLanes_length (m : List Host.Cell) (es a n : Nat) : (loadLanes m es a n).length = n := by
  induction n generalizing a with
  | zero => rfl
  | succ n ih => simp [loadLanes, ih]

/-- Lane j of a load is the j-th adjacent sample. -/
theorem loadLanes_getElem (m : List Host.Cell) (es a n j : Nat) (h : j < (loadLanes m es a n).length) :
    (loadLanes m es a n)[j] = BitVec.ofNat 32 (memRead m (a + j * es) es) := by
  induction n generalizing a j with
  | zero => simp [loadLanes] at h
  | succ n ih =>
    cases j with
    | zero => simp [loadLanes]
    | succ j =>
      simp only [loadLanes, List.getElem_cons_succ]
      rw [ih]
      congr 2; rw [Nat.succ_mul]; omega

/-- Storing lanes changes no byte outside their range. -/
theorem memByte_storeLanes_outside (es : Nat) (m : List Host.Cell) (a : Nat) (ws : List Word) (c : Nat)
    (h : c < a ∨ a + ws.length * es ≤ c) : memByte (storeLanes es m a ws) c = memByte m c := by
  induction ws generalizing m a with
  | nil => rfl
  | cons w ws ih =>
    simp only [List.length_cons, Nat.succ_mul] at h
    simp only [storeLanes]
    rw [ih _ _ (by omega), memByte_memWrite, if_neg (by omega)]

/-- The container lane j was stored in holds the low bytes of its word. -/
theorem memRead_storeLanes (es : Nat) (m : List Host.Cell) (a : Nat) (ws : List Word) (j : Nat) (hj : j < ws.length) :
    memRead (storeLanes es m a ws) (a + j * es) es = (ws[j]).toNat % 256 ^ es := by
  induction ws generalizing m a j with
  | nil => simp at hj
  | cons w ws ih =>
    simp only [storeLanes]
    cases j with
    | zero =>
      simp only [Nat.zero_mul, Nat.add_zero, List.getElem_cons_zero]
      rw [← memRead_memWrite_same m a es w.toNat]
      refine memRead_congr _ _ _ _ fun c _ h2 => memByte_storeLanes_outside _ _ _ _ _ (Or.inl h2)
    | succ j =>
      have : a + (j + 1) * es = a + es + j * es := by rw [Nat.succ_mul]; omega
      rw [this]
      exact ih _ _ _ (by simpa using hj)

theorem storeLanes_wf (es : Nat) (m : List Host.Cell) (a : Nat) (ws : List Word)
    (ha : a + ws.length * es ≤ Config.planeMemoryEnd) (hm : Memory.wf m = true) :
    Memory.wf (storeLanes es m a ws) = true := by
  induction ws generalizing m a with
  | nil => exact hm
  | cons w ws ih =>
    simp only [List.length_cons, Nat.succ_mul] at ha
    exact ih _ _ (by omega) (memWrite_wf m a es _ (by omega) hm)

end Sys2Proof.Machine
end

