-- ==== Sys2Proof/Laws/State.lean ====
section
/-! SUPPORT. What each named update of the state leaves in each field, true by unfolding: no later proof unfolds a record
update. -/

namespace Sys2Proof.Machine

/-! `withMem`. -/

@[simp] theorem withMem_run (s : State) (m : List Host.Cell) : (s.withMem m).run = s.run := rfl
@[simp] theorem withMem_backend (s : State) (m : List Host.Cell) : (s.withMem m).backend = s.backend := rfl
@[simp] theorem withMem_errCode (s : State) (m : List Host.Cell) : (s.withMem m).errCode = s.errCode := rfl
@[simp] theorem withMem_hwcap (s : State) (m : List Host.Cell) : (s.withMem m).hwcap = s.hwcap := rfl
@[simp] theorem withMem_threadClass (s : State) (m : List Host.Cell) : (s.withMem m).threadClass = s.threadClass := rfl
@[simp] theorem withMem_thrLow (s : State) (m : List Host.Cell) : (s.withMem m).thrLow = s.thrLow := rfl
@[simp] theorem withMem_thrHigh (s : State) (m : List Host.Cell) : (s.withMem m).thrHigh = s.thrHigh := rfl
@[simp] theorem withMem_modeY (s : State) (m : List Host.Cell) : (s.withMem m).modeY = s.modeY := rfl
@[simp] theorem withMem_modeU (s : State) (m : List Host.Cell) : (s.withMem m).modeU = s.modeU := rfl
@[simp] theorem withMem_modeV (s : State) (m : List Host.Cell) : (s.withMem m).modeV = s.modeV := rfl
@[simp] theorem withMem_capReq (s : State) (m : List Host.Cell) : (s.withMem m).capReq = s.capReq := rfl
@[simp] theorem withMem_fmt (s : State) (m : List Host.Cell) : (s.withMem m).fmt = s.fmt := rfl
@[simp] theorem withMem_peak (s : State) (m : List Host.Cell) : (s.withMem m).peak = s.peak := rfl
@[simp] theorem withMem_scale (s : State) (m : List Host.Cell) : (s.withMem m).scale = s.scale := rfl
@[simp] theorem withMem_shift (s : State) (m : List Host.Cell) : (s.withMem m).shift = s.shift := rfl
@[simp] theorem withMem_lowS (s : State) (m : List Host.Cell) : (s.withMem m).lowS = s.lowS := rfl
@[simp] theorem withMem_highS (s : State) (m : List Host.Cell) : (s.withMem m).highS = s.highS := rfl
@[simp] theorem withMem_descY (s : State) (m : List Host.Cell) : (s.withMem m).descY = s.descY := rfl
@[simp] theorem withMem_descU (s : State) (m : List Host.Cell) : (s.withMem m).descU = s.descU := rfl
@[simp] theorem withMem_descV (s : State) (m : List Host.Cell) : (s.withMem m).descV = s.descV := rfl
@[simp] theorem withMem_descA (s : State) (m : List Host.Cell) : (s.withMem m).descA = s.descA := rfl
@[simp] theorem withMem_pos (s : State) (m : List Host.Cell) : (s.withMem m).pos = s.pos := rfl
@[simp] theorem withMem_curUp (s : State) (m : List Host.Cell) : (s.withMem m).curUp = s.curUp := rfl
@[simp] theorem withMem_curMid (s : State) (m : List Host.Cell) : (s.withMem m).curMid = s.curMid := rfl
@[simp] theorem withMem_curLo (s : State) (m : List Host.Cell) : (s.withMem m).curLo = s.curLo := rfl
@[simp] theorem withMem_curOut (s : State) (m : List Host.Cell) : (s.withMem m).curOut = s.curOut := rfl
@[simp] theorem withMem_smpU (s : State) (m : List Host.Cell) : (s.withMem m).smpU = s.smpU := rfl
@[simp] theorem withMem_smpM (s : State) (m : List Host.Cell) : (s.withMem m).smpM = s.smpM := rfl
@[simp] theorem withMem_smpL (s : State) (m : List Host.Cell) : (s.withMem m).smpL = s.smpL := rfl
@[simp] theorem withMem_smpOut (s : State) (m : List Host.Cell) : (s.withMem m).smpOut = s.smpOut := rfl
@[simp] theorem withMem_vecU (s : State) (m : List Host.Cell) : (s.withMem m).vecU = s.vecU := rfl
@[simp] theorem withMem_vecM (s : State) (m : List Host.Cell) : (s.withMem m).vecM = s.vecM := rfl
@[simp] theorem withMem_vecLo (s : State) (m : List Host.Cell) : (s.withMem m).vecLo = s.vecLo := rfl
@[simp] theorem withMem_vecOut (s : State) (m : List Host.Cell) : (s.withMem m).vecOut = s.vecOut := rfl
@[simp] theorem withMem_mem (s : State) (m : List Host.Cell) : (s.withMem m).mem = m := rfl
@[simp] theorem withMem_result (s : State) (m : List Host.Cell) : (s.withMem m).result = s.result := rfl
@[simp] theorem withMem_inbox (s : State) (m : List Host.Cell) : (s.withMem m).inbox = s.inbox := rfl
@[simp] theorem withMem_draws (s : State) (m : List Host.Cell) : (s.withMem m).draws = s.draws := rfl
@[simp] theorem withMem_desc (s : State) (m : List Host.Cell) (pl : PlaneId) : (s.withMem m).desc pl = s.desc pl := by cases pl <;> rfl

/-! `withRun`. -/

@[simp] theorem withRun_run (s : State) (r : RunState) : (s.withRun r).run = r := rfl
@[simp] theorem withRun_backend (s : State) (r : RunState) : (s.withRun r).backend = s.backend := rfl
@[simp] theorem withRun_errCode (s : State) (r : RunState) : (s.withRun r).errCode = s.errCode := rfl
@[simp] theorem withRun_hwcap (s : State) (r : RunState) : (s.withRun r).hwcap = s.hwcap := rfl
@[simp] theorem withRun_threadClass (s : State) (r : RunState) : (s.withRun r).threadClass = s.threadClass := rfl
@[simp] theorem withRun_thrLow (s : State) (r : RunState) : (s.withRun r).thrLow = s.thrLow := rfl
@[simp] theorem withRun_thrHigh (s : State) (r : RunState) : (s.withRun r).thrHigh = s.thrHigh := rfl
@[simp] theorem withRun_modeY (s : State) (r : RunState) : (s.withRun r).modeY = s.modeY := rfl
@[simp] theorem withRun_modeU (s : State) (r : RunState) : (s.withRun r).modeU = s.modeU := rfl
@[simp] theorem withRun_modeV (s : State) (r : RunState) : (s.withRun r).modeV = s.modeV := rfl
@[simp] theorem withRun_capReq (s : State) (r : RunState) : (s.withRun r).capReq = s.capReq := rfl
@[simp] theorem withRun_fmt (s : State) (r : RunState) : (s.withRun r).fmt = s.fmt := rfl
@[simp] theorem withRun_peak (s : State) (r : RunState) : (s.withRun r).peak = s.peak := rfl
@[simp] theorem withRun_scale (s : State) (r : RunState) : (s.withRun r).scale = s.scale := rfl
@[simp] theorem withRun_shift (s : State) (r : RunState) : (s.withRun r).shift = s.shift := rfl
@[simp] theorem withRun_lowS (s : State) (r : RunState) : (s.withRun r).lowS = s.lowS := rfl
@[simp] theorem withRun_highS (s : State) (r : RunState) : (s.withRun r).highS = s.highS := rfl
@[simp] theorem withRun_descY (s : State) (r : RunState) : (s.withRun r).descY = s.descY := rfl
@[simp] theorem withRun_descU (s : State) (r : RunState) : (s.withRun r).descU = s.descU := rfl
@[simp] theorem withRun_descV (s : State) (r : RunState) : (s.withRun r).descV = s.descV := rfl
@[simp] theorem withRun_descA (s : State) (r : RunState) : (s.withRun r).descA = s.descA := rfl
@[simp] theorem withRun_pos (s : State) (r : RunState) : (s.withRun r).pos = s.pos := rfl
@[simp] theorem withRun_curUp (s : State) (r : RunState) : (s.withRun r).curUp = s.curUp := rfl
@[simp] theorem withRun_curMid (s : State) (r : RunState) : (s.withRun r).curMid = s.curMid := rfl
@[simp] theorem withRun_curLo (s : State) (r : RunState) : (s.withRun r).curLo = s.curLo := rfl
@[simp] theorem withRun_curOut (s : State) (r : RunState) : (s.withRun r).curOut = s.curOut := rfl
@[simp] theorem withRun_smpU (s : State) (r : RunState) : (s.withRun r).smpU = s.smpU := rfl
@[simp] theorem withRun_smpM (s : State) (r : RunState) : (s.withRun r).smpM = s.smpM := rfl
@[simp] theorem withRun_smpL (s : State) (r : RunState) : (s.withRun r).smpL = s.smpL := rfl
@[simp] theorem withRun_smpOut (s : State) (r : RunState) : (s.withRun r).smpOut = s.smpOut := rfl
@[simp] theorem withRun_vecU (s : State) (r : RunState) : (s.withRun r).vecU = s.vecU := rfl
@[simp] theorem withRun_vecM (s : State) (r : RunState) : (s.withRun r).vecM = s.vecM := rfl
@[simp] theorem withRun_vecLo (s : State) (r : RunState) : (s.withRun r).vecLo = s.vecLo := rfl
@[simp] theorem withRun_vecOut (s : State) (r : RunState) : (s.withRun r).vecOut = s.vecOut := rfl
@[simp] theorem withRun_mem (s : State) (r : RunState) : (s.withRun r).mem = s.mem := rfl
@[simp] theorem withRun_result (s : State) (r : RunState) : (s.withRun r).result = s.result := rfl
@[simp] theorem withRun_inbox (s : State) (r : RunState) : (s.withRun r).inbox = s.inbox := rfl
@[simp] theorem withRun_draws (s : State) (r : RunState) : (s.withRun r).draws = s.draws := rfl
@[simp] theorem withRun_desc (s : State) (r : RunState) (pl : PlaneId) : (s.withRun r).desc pl = s.desc pl := by cases pl <;> rfl

/-! `withPos`. -/

@[simp] theorem withPos_run (s : State) (p : Option Pos) : (s.withPos p).run = s.run := rfl
@[simp] theorem withPos_backend (s : State) (p : Option Pos) : (s.withPos p).backend = s.backend := rfl
@[simp] theorem withPos_errCode (s : State) (p : Option Pos) : (s.withPos p).errCode = s.errCode := rfl
@[simp] theorem withPos_hwcap (s : State) (p : Option Pos) : (s.withPos p).hwcap = s.hwcap := rfl
@[simp] theorem withPos_threadClass (s : State) (p : Option Pos) : (s.withPos p).threadClass = s.threadClass := rfl
@[simp] theorem withPos_thrLow (s : State) (p : Option Pos) : (s.withPos p).thrLow = s.thrLow := rfl
@[simp] theorem withPos_thrHigh (s : State) (p : Option Pos) : (s.withPos p).thrHigh = s.thrHigh := rfl
@[simp] theorem withPos_modeY (s : State) (p : Option Pos) : (s.withPos p).modeY = s.modeY := rfl
@[simp] theorem withPos_modeU (s : State) (p : Option Pos) : (s.withPos p).modeU = s.modeU := rfl
@[simp] theorem withPos_modeV (s : State) (p : Option Pos) : (s.withPos p).modeV = s.modeV := rfl
@[simp] theorem withPos_capReq (s : State) (p : Option Pos) : (s.withPos p).capReq = s.capReq := rfl
@[simp] theorem withPos_fmt (s : State) (p : Option Pos) : (s.withPos p).fmt = s.fmt := rfl
@[simp] theorem withPos_peak (s : State) (p : Option Pos) : (s.withPos p).peak = s.peak := rfl
@[simp] theorem withPos_scale (s : State) (p : Option Pos) : (s.withPos p).scale = s.scale := rfl
@[simp] theorem withPos_shift (s : State) (p : Option Pos) : (s.withPos p).shift = s.shift := rfl
@[simp] theorem withPos_lowS (s : State) (p : Option Pos) : (s.withPos p).lowS = s.lowS := rfl
@[simp] theorem withPos_highS (s : State) (p : Option Pos) : (s.withPos p).highS = s.highS := rfl
@[simp] theorem withPos_descY (s : State) (p : Option Pos) : (s.withPos p).descY = s.descY := rfl
@[simp] theorem withPos_descU (s : State) (p : Option Pos) : (s.withPos p).descU = s.descU := rfl
@[simp] theorem withPos_descV (s : State) (p : Option Pos) : (s.withPos p).descV = s.descV := rfl
@[simp] theorem withPos_descA (s : State) (p : Option Pos) : (s.withPos p).descA = s.descA := rfl
@[simp] theorem withPos_pos (s : State) (p : Option Pos) : (s.withPos p).pos = p := rfl
@[simp] theorem withPos_curUp (s : State) (p : Option Pos) : (s.withPos p).curUp = s.curUp := rfl
@[simp] theorem withPos_curMid (s : State) (p : Option Pos) : (s.withPos p).curMid = s.curMid := rfl
@[simp] theorem withPos_curLo (s : State) (p : Option Pos) : (s.withPos p).curLo = s.curLo := rfl
@[simp] theorem withPos_curOut (s : State) (p : Option Pos) : (s.withPos p).curOut = s.curOut := rfl
@[simp] theorem withPos_smpU (s : State) (p : Option Pos) : (s.withPos p).smpU = s.smpU := rfl
@[simp] theorem withPos_smpM (s : State) (p : Option Pos) : (s.withPos p).smpM = s.smpM := rfl
@[simp] theorem withPos_smpL (s : State) (p : Option Pos) : (s.withPos p).smpL = s.smpL := rfl
@[simp] theorem withPos_smpOut (s : State) (p : Option Pos) : (s.withPos p).smpOut = s.smpOut := rfl
@[simp] theorem withPos_vecU (s : State) (p : Option Pos) : (s.withPos p).vecU = s.vecU := rfl
@[simp] theorem withPos_vecM (s : State) (p : Option Pos) : (s.withPos p).vecM = s.vecM := rfl
@[simp] theorem withPos_vecLo (s : State) (p : Option Pos) : (s.withPos p).vecLo = s.vecLo := rfl
@[simp] theorem withPos_vecOut (s : State) (p : Option Pos) : (s.withPos p).vecOut = s.vecOut := rfl
@[simp] theorem withPos_mem (s : State) (p : Option Pos) : (s.withPos p).mem = s.mem := rfl
@[simp] theorem withPos_result (s : State) (p : Option Pos) : (s.withPos p).result = s.result := rfl
@[simp] theorem withPos_inbox (s : State) (p : Option Pos) : (s.withPos p).inbox = s.inbox := rfl
@[simp] theorem withPos_draws (s : State) (p : Option Pos) : (s.withPos p).draws = s.draws := rfl
@[simp] theorem withPos_desc (s : State) (p : Option Pos) (pl : PlaneId) : (s.withPos p).desc pl = s.desc pl := by cases pl <;> rfl

/-! `withCursors`. -/

@[simp] theorem withCursors_run (s : State) (c1 c2 c3 c4 : Slot) : (s.withCursors c1 c2 c3 c4).run = s.run := rfl
@[simp] theorem withCursors_backend (s : State) (c1 c2 c3 c4 : Slot) : (s.withCursors c1 c2 c3 c4).backend = s.backend := rfl
@[simp] theorem withCursors_errCode (s : State) (c1 c2 c3 c4 : Slot) : (s.withCursors c1 c2 c3 c4).errCode = s.errCode := rfl
@[simp] theorem withCursors_hwcap (s : State) (c1 c2 c3 c4 : Slot) : (s.withCursors c1 c2 c3 c4).hwcap = s.hwcap := rfl
@[simp] theorem withCursors_threadClass (s : State) (c1 c2 c3 c4 : Slot) : (s.withCursors c1 c2 c3 c4).threadClass = s.threadClass := rfl
@[simp] theorem withCursors_thrLow (s : State) (c1 c2 c3 c4 : Slot) : (s.withCursors c1 c2 c3 c4).thrLow = s.thrLow := rfl
@[simp] theorem withCursors_thrHigh (s : State) (c1 c2 c3 c4 : Slot) : (s.withCursors c1 c2 c3 c4).thrHigh = s.thrHigh := rfl
@[simp] theorem withCursors_modeY (s : State) (c1 c2 c3 c4 : Slot) : (s.withCursors c1 c2 c3 c4).modeY = s.modeY := rfl
@[simp] theorem withCursors_modeU (s : State) (c1 c2 c3 c4 : Slot) : (s.withCursors c1 c2 c3 c4).modeU = s.modeU := rfl
@[simp] theorem withCursors_modeV (s : State) (c1 c2 c3 c4 : Slot) : (s.withCursors c1 c2 c3 c4).modeV = s.modeV := rfl
@[simp] theorem withCursors_capReq (s : State) (c1 c2 c3 c4 : Slot) : (s.withCursors c1 c2 c3 c4).capReq = s.capReq := rfl
@[simp] theorem withCursors_fmt (s : State) (c1 c2 c3 c4 : Slot) : (s.withCursors c1 c2 c3 c4).fmt = s.fmt := rfl
@[simp] theorem withCursors_peak (s : State) (c1 c2 c3 c4 : Slot) : (s.withCursors c1 c2 c3 c4).peak = s.peak := rfl
@[simp] theorem withCursors_scale (s : State) (c1 c2 c3 c4 : Slot) : (s.withCursors c1 c2 c3 c4).scale = s.scale := rfl
@[simp] theorem withCursors_shift (s : State) (c1 c2 c3 c4 : Slot) : (s.withCursors c1 c2 c3 c4).shift = s.shift := rfl
@[simp] theorem withCursors_lowS (s : State) (c1 c2 c3 c4 : Slot) : (s.withCursors c1 c2 c3 c4).lowS = s.lowS := rfl
@[simp] theorem withCursors_highS (s : State) (c1 c2 c3 c4 : Slot) : (s.withCursors c1 c2 c3 c4).highS = s.highS := rfl
@[simp] theorem withCursors_descY (s : State) (c1 c2 c3 c4 : Slot) : (s.withCursors c1 c2 c3 c4).descY = s.descY := rfl
@[simp] theorem withCursors_descU (s : State) (c1 c2 c3 c4 : Slot) : (s.withCursors c1 c2 c3 c4).descU = s.descU := rfl
@[simp] theorem withCursors_descV (s : State) (c1 c2 c3 c4 : Slot) : (s.withCursors c1 c2 c3 c4).descV = s.descV := rfl
@[simp] theorem withCursors_descA (s : State) (c1 c2 c3 c4 : Slot) : (s.withCursors c1 c2 c3 c4).descA = s.descA := rfl
@[simp] theorem withCursors_pos (s : State) (c1 c2 c3 c4 : Slot) : (s.withCursors c1 c2 c3 c4).pos = s.pos := rfl
@[simp] theorem withCursors_curUp (s : State) (c1 c2 c3 c4 : Slot) : (s.withCursors c1 c2 c3 c4).curUp = c1 := rfl
@[simp] theorem withCursors_curMid (s : State) (c1 c2 c3 c4 : Slot) : (s.withCursors c1 c2 c3 c4).curMid = c2 := rfl
@[simp] theorem withCursors_curLo (s : State) (c1 c2 c3 c4 : Slot) : (s.withCursors c1 c2 c3 c4).curLo = c3 := rfl
@[simp] theorem withCursors_curOut (s : State) (c1 c2 c3 c4 : Slot) : (s.withCursors c1 c2 c3 c4).curOut = c4 := rfl
@[simp] theorem withCursors_smpU (s : State) (c1 c2 c3 c4 : Slot) : (s.withCursors c1 c2 c3 c4).smpU = s.smpU := rfl
@[simp] theorem withCursors_smpM (s : State) (c1 c2 c3 c4 : Slot) : (s.withCursors c1 c2 c3 c4).smpM = s.smpM := rfl
@[simp] theorem withCursors_smpL (s : State) (c1 c2 c3 c4 : Slot) : (s.withCursors c1 c2 c3 c4).smpL = s.smpL := rfl
@[simp] theorem withCursors_smpOut (s : State) (c1 c2 c3 c4 : Slot) : (s.withCursors c1 c2 c3 c4).smpOut = s.smpOut := rfl
@[simp] theorem withCursors_vecU (s : State) (c1 c2 c3 c4 : Slot) : (s.withCursors c1 c2 c3 c4).vecU = s.vecU := rfl
@[simp] theorem withCursors_vecM (s : State) (c1 c2 c3 c4 : Slot) : (s.withCursors c1 c2 c3 c4).vecM = s.vecM := rfl
@[simp] theorem withCursors_vecLo (s : State) (c1 c2 c3 c4 : Slot) : (s.withCursors c1 c2 c3 c4).vecLo = s.vecLo := rfl
@[simp] theorem withCursors_vecOut (s : State) (c1 c2 c3 c4 : Slot) : (s.withCursors c1 c2 c3 c4).vecOut = s.vecOut := rfl
@[simp] theorem withCursors_mem (s : State) (c1 c2 c3 c4 : Slot) : (s.withCursors c1 c2 c3 c4).mem = s.mem := rfl
@[simp] theorem withCursors_result (s : State) (c1 c2 c3 c4 : Slot) : (s.withCursors c1 c2 c3 c4).result = s.result := rfl
@[simp] theorem withCursors_inbox (s : State) (c1 c2 c3 c4 : Slot) : (s.withCursors c1 c2 c3 c4).inbox = s.inbox := rfl
@[simp] theorem withCursors_draws (s : State) (c1 c2 c3 c4 : Slot) : (s.withCursors c1 c2 c3 c4).draws = s.draws := rfl
@[simp] theorem withCursors_desc (s : State) (c1 c2 c3 c4 : Slot) (pl : PlaneId) : (s.withCursors c1 c2 c3 c4).desc pl = s.desc pl := by cases pl <;> rfl

/-! `withSamples`. -/

@[simp] theorem withSamples_run (s : State) (u m l : Word) : (s.withSamples u m l).run = s.run := rfl
@[simp] theorem withSamples_backend (s : State) (u m l : Word) : (s.withSamples u m l).backend = s.backend := rfl
@[simp] theorem withSamples_errCode (s : State) (u m l : Word) : (s.withSamples u m l).errCode = s.errCode := rfl
@[simp] theorem withSamples_hwcap (s : State) (u m l : Word) : (s.withSamples u m l).hwcap = s.hwcap := rfl
@[simp] theorem withSamples_threadClass (s : State) (u m l : Word) : (s.withSamples u m l).threadClass = s.threadClass := rfl
@[simp] theorem withSamples_thrLow (s : State) (u m l : Word) : (s.withSamples u m l).thrLow = s.thrLow := rfl
@[simp] theorem withSamples_thrHigh (s : State) (u m l : Word) : (s.withSamples u m l).thrHigh = s.thrHigh := rfl
@[simp] theorem withSamples_modeY (s : State) (u m l : Word) : (s.withSamples u m l).modeY = s.modeY := rfl
@[simp] theorem withSamples_modeU (s : State) (u m l : Word) : (s.withSamples u m l).modeU = s.modeU := rfl
@[simp] theorem withSamples_modeV (s : State) (u m l : Word) : (s.withSamples u m l).modeV = s.modeV := rfl
@[simp] theorem withSamples_capReq (s : State) (u m l : Word) : (s.withSamples u m l).capReq = s.capReq := rfl
@[simp] theorem withSamples_fmt (s : State) (u m l : Word) : (s.withSamples u m l).fmt = s.fmt := rfl
@[simp] theorem withSamples_peak (s : State) (u m l : Word) : (s.withSamples u m l).peak = s.peak := rfl
@[simp] theorem withSamples_scale (s : State) (u m l : Word) : (s.withSamples u m l).scale = s.scale := rfl
@[simp] theorem withSamples_shift (s : State) (u m l : Word) : (s.withSamples u m l).shift = s.shift := rfl
@[simp] theorem withSamples_lowS (s : State) (u m l : Word) : (s.withSamples u m l).lowS = s.lowS := rfl
@[simp] theorem withSamples_highS (s : State) (u m l : Word) : (s.withSamples u m l).highS = s.highS := rfl
@[simp] theorem withSamples_descY (s : State) (u m l : Word) : (s.withSamples u m l).descY = s.descY := rfl
@[simp] theorem withSamples_descU (s : State) (u m l : Word) : (s.withSamples u m l).descU = s.descU := rfl
@[simp] theorem withSamples_descV (s : State) (u m l : Word) : (s.withSamples u m l).descV = s.descV := rfl
@[simp] theorem withSamples_descA (s : State) (u m l : Word) : (s.withSamples u m l).descA = s.descA := rfl
@[simp] theorem withSamples_pos (s : State) (u m l : Word) : (s.withSamples u m l).pos = s.pos := rfl
@[simp] theorem withSamples_curUp (s : State) (u m l : Word) : (s.withSamples u m l).curUp = s.curUp := rfl
@[simp] theorem withSamples_curMid (s : State) (u m l : Word) : (s.withSamples u m l).curMid = s.curMid := rfl
@[simp] theorem withSamples_curLo (s : State) (u m l : Word) : (s.withSamples u m l).curLo = s.curLo := rfl
@[simp] theorem withSamples_curOut (s : State) (u m l : Word) : (s.withSamples u m l).curOut = s.curOut := rfl
@[simp] theorem withSamples_smpU (s : State) (u m l : Word) : (s.withSamples u m l).smpU = u := rfl
@[simp] theorem withSamples_smpM (s : State) (u m l : Word) : (s.withSamples u m l).smpM = m := rfl
@[simp] theorem withSamples_smpL (s : State) (u m l : Word) : (s.withSamples u m l).smpL = l := rfl
@[simp] theorem withSamples_smpOut (s : State) (u m l : Word) : (s.withSamples u m l).smpOut = s.smpOut := rfl
@[simp] theorem withSamples_vecU (s : State) (u m l : Word) : (s.withSamples u m l).vecU = s.vecU := rfl
@[simp] theorem withSamples_vecM (s : State) (u m l : Word) : (s.withSamples u m l).vecM = s.vecM := rfl
@[simp] theorem withSamples_vecLo (s : State) (u m l : Word) : (s.withSamples u m l).vecLo = s.vecLo := rfl
@[simp] theorem withSamples_vecOut (s : State) (u m l : Word) : (s.withSamples u m l).vecOut = s.vecOut := rfl
@[simp] theorem withSamples_mem (s : State) (u m l : Word) : (s.withSamples u m l).mem = s.mem := rfl
@[simp] theorem withSamples_result (s : State) (u m l : Word) : (s.withSamples u m l).result = s.result := rfl
@[simp] theorem withSamples_inbox (s : State) (u m l : Word) : (s.withSamples u m l).inbox = s.inbox := rfl
@[simp] theorem withSamples_draws (s : State) (u m l : Word) : (s.withSamples u m l).draws = s.draws := rfl
@[simp] theorem withSamples_desc (s : State) (u m l : Word) (pl : PlaneId) : (s.withSamples u m l).desc pl = s.desc pl := by cases pl <;> rfl

/-! `withPixel`. -/

@[simp] theorem withPixel_run (s : State) (w : Word) : (s.withPixel w).run = s.run := rfl
@[simp] theorem withPixel_backend (s : State) (w : Word) : (s.withPixel w).backend = s.backend := rfl
@[simp] theorem withPixel_errCode (s : State) (w : Word) : (s.withPixel w).errCode = s.errCode := rfl
@[simp] theorem withPixel_hwcap (s : State) (w : Word) : (s.withPixel w).hwcap = s.hwcap := rfl
@[simp] theorem withPixel_threadClass (s : State) (w : Word) : (s.withPixel w).threadClass = s.threadClass := rfl
@[simp] theorem withPixel_thrLow (s : State) (w : Word) : (s.withPixel w).thrLow = s.thrLow := rfl
@[simp] theorem withPixel_thrHigh (s : State) (w : Word) : (s.withPixel w).thrHigh = s.thrHigh := rfl
@[simp] theorem withPixel_modeY (s : State) (w : Word) : (s.withPixel w).modeY = s.modeY := rfl
@[simp] theorem withPixel_modeU (s : State) (w : Word) : (s.withPixel w).modeU = s.modeU := rfl
@[simp] theorem withPixel_modeV (s : State) (w : Word) : (s.withPixel w).modeV = s.modeV := rfl
@[simp] theorem withPixel_capReq (s : State) (w : Word) : (s.withPixel w).capReq = s.capReq := rfl
@[simp] theorem withPixel_fmt (s : State) (w : Word) : (s.withPixel w).fmt = s.fmt := rfl
@[simp] theorem withPixel_peak (s : State) (w : Word) : (s.withPixel w).peak = s.peak := rfl
@[simp] theorem withPixel_scale (s : State) (w : Word) : (s.withPixel w).scale = s.scale := rfl
@[simp] theorem withPixel_shift (s : State) (w : Word) : (s.withPixel w).shift = s.shift := rfl
@[simp] theorem withPixel_lowS (s : State) (w : Word) : (s.withPixel w).lowS = s.lowS := rfl
@[simp] theorem withPixel_highS (s : State) (w : Word) : (s.withPixel w).highS = s.highS := rfl
@[simp] theorem withPixel_descY (s : State) (w : Word) : (s.withPixel w).descY = s.descY := rfl
@[simp] theorem withPixel_descU (s : State) (w : Word) : (s.withPixel w).descU = s.descU := rfl
@[simp] theorem withPixel_descV (s : State) (w : Word) : (s.withPixel w).descV = s.descV := rfl
@[simp] theorem withPixel_descA (s : State) (w : Word) : (s.withPixel w).descA = s.descA := rfl
@[simp] theorem withPixel_pos (s : State) (w : Word) : (s.withPixel w).pos = s.pos := rfl
@[simp] theorem withPixel_curUp (s : State) (w : Word) : (s.withPixel w).curUp = s.curUp := rfl
@[simp] theorem withPixel_curMid (s : State) (w : Word) : (s.withPixel w).curMid = s.curMid := rfl
@[simp] theorem withPixel_curLo (s : State) (w : Word) : (s.withPixel w).curLo = s.curLo := rfl
@[simp] theorem withPixel_curOut (s : State) (w : Word) : (s.withPixel w).curOut = s.curOut := rfl
@[simp] theorem withPixel_smpU (s : State) (w : Word) : (s.withPixel w).smpU = s.smpU := rfl
@[simp] theorem withPixel_smpM (s : State) (w : Word) : (s.withPixel w).smpM = s.smpM := rfl
@[simp] theorem withPixel_smpL (s : State) (w : Word) : (s.withPixel w).smpL = s.smpL := rfl
@[simp] theorem withPixel_smpOut (s : State) (w : Word) : (s.withPixel w).smpOut = w := rfl
@[simp] theorem withPixel_vecU (s : State) (w : Word) : (s.withPixel w).vecU = s.vecU := rfl
@[simp] theorem withPixel_vecM (s : State) (w : Word) : (s.withPixel w).vecM = s.vecM := rfl
@[simp] theorem withPixel_vecLo (s : State) (w : Word) : (s.withPixel w).vecLo = s.vecLo := rfl
@[simp] theorem withPixel_vecOut (s : State) (w : Word) : (s.withPixel w).vecOut = s.vecOut := rfl
@[simp] theorem withPixel_mem (s : State) (w : Word) : (s.withPixel w).mem = s.mem := rfl
@[simp] theorem withPixel_result (s : State) (w : Word) : (s.withPixel w).result = s.result := rfl
@[simp] theorem withPixel_inbox (s : State) (w : Word) : (s.withPixel w).inbox = s.inbox := rfl
@[simp] theorem withPixel_draws (s : State) (w : Word) : (s.withPixel w).draws = s.draws + 1 := rfl
@[simp] theorem withPixel_desc (s : State) (w : Word) (pl : PlaneId) : (s.withPixel w).desc pl = s.desc pl := by cases pl <;> rfl

/-! `withLanes`. -/

@[simp] theorem withLanes_run (s : State) (u m l : List Word) : (s.withLanes u m l).run = s.run := rfl
@[simp] theorem withLanes_backend (s : State) (u m l : List Word) : (s.withLanes u m l).backend = s.backend := rfl
@[simp] theorem withLanes_errCode (s : State) (u m l : List Word) : (s.withLanes u m l).errCode = s.errCode := rfl
@[simp] theorem withLanes_hwcap (s : State) (u m l : List Word) : (s.withLanes u m l).hwcap = s.hwcap := rfl
@[simp] theorem withLanes_threadClass (s : State) (u m l : List Word) : (s.withLanes u m l).threadClass = s.threadClass := rfl
@[simp] theorem withLanes_thrLow (s : State) (u m l : List Word) : (s.withLanes u m l).thrLow = s.thrLow := rfl
@[simp] theorem withLanes_thrHigh (s : State) (u m l : List Word) : (s.withLanes u m l).thrHigh = s.thrHigh := rfl
@[simp] theorem withLanes_modeY (s : State) (u m l : List Word) : (s.withLanes u m l).modeY = s.modeY := rfl
@[simp] theorem withLanes_modeU (s : State) (u m l : List Word) : (s.withLanes u m l).modeU = s.modeU := rfl
@[simp] theorem withLanes_modeV (s : State) (u m l : List Word) : (s.withLanes u m l).modeV = s.modeV := rfl
@[simp] theorem withLanes_capReq (s : State) (u m l : List Word) : (s.withLanes u m l).capReq = s.capReq := rfl
@[simp] theorem withLanes_fmt (s : State) (u m l : List Word) : (s.withLanes u m l).fmt = s.fmt := rfl
@[simp] theorem withLanes_peak (s : State) (u m l : List Word) : (s.withLanes u m l).peak = s.peak := rfl
@[simp] theorem withLanes_scale (s : State) (u m l : List Word) : (s.withLanes u m l).scale = s.scale := rfl
@[simp] theorem withLanes_shift (s : State) (u m l : List Word) : (s.withLanes u m l).shift = s.shift := rfl
@[simp] theorem withLanes_lowS (s : State) (u m l : List Word) : (s.withLanes u m l).lowS = s.lowS := rfl
@[simp] theorem withLanes_highS (s : State) (u m l : List Word) : (s.withLanes u m l).highS = s.highS := rfl
@[simp] theorem withLanes_descY (s : State) (u m l : List Word) : (s.withLanes u m l).descY = s.descY := rfl
@[simp] theorem withLanes_descU (s : State) (u m l : List Word) : (s.withLanes u m l).descU = s.descU := rfl
@[simp] theorem withLanes_descV (s : State) (u m l : List Word) : (s.withLanes u m l).descV = s.descV := rfl
@[simp] theorem withLanes_descA (s : State) (u m l : List Word) : (s.withLanes u m l).descA = s.descA := rfl
@[simp] theorem withLanes_pos (s : State) (u m l : List Word) : (s.withLanes u m l).pos = s.pos := rfl
@[simp] theorem withLanes_curUp (s : State) (u m l : List Word) : (s.withLanes u m l).curUp = s.curUp := rfl
@[simp] theorem withLanes_curMid (s : State) (u m l : List Word) : (s.withLanes u m l).curMid = s.curMid := rfl
@[simp] theorem withLanes_curLo (s : State) (u m l : List Word) : (s.withLanes u m l).curLo = s.curLo := rfl
@[simp] theorem withLanes_curOut (s : State) (u m l : List Word) : (s.withLanes u m l).curOut = s.curOut := rfl
@[simp] theorem withLanes_smpU (s : State) (u m l : List Word) : (s.withLanes u m l).smpU = s.smpU := rfl
@[simp] theorem withLanes_smpM (s : State) (u m l : List Word) : (s.withLanes u m l).smpM = s.smpM := rfl
@[simp] theorem withLanes_smpL (s : State) (u m l : List Word) : (s.withLanes u m l).smpL = s.smpL := rfl
@[simp] theorem withLanes_smpOut (s : State) (u m l : List Word) : (s.withLanes u m l).smpOut = s.smpOut := rfl
@[simp] theorem withLanes_vecU (s : State) (u m l : List Word) : (s.withLanes u m l).vecU = u := rfl
@[simp] theorem withLanes_vecM (s : State) (u m l : List Word) : (s.withLanes u m l).vecM = m := rfl
@[simp] theorem withLanes_vecLo (s : State) (u m l : List Word) : (s.withLanes u m l).vecLo = l := rfl
@[simp] theorem withLanes_vecOut (s : State) (u m l : List Word) : (s.withLanes u m l).vecOut = s.vecOut := rfl
@[simp] theorem withLanes_mem (s : State) (u m l : List Word) : (s.withLanes u m l).mem = s.mem := rfl
@[simp] theorem withLanes_result (s : State) (u m l : List Word) : (s.withLanes u m l).result = s.result := rfl
@[simp] theorem withLanes_inbox (s : State) (u m l : List Word) : (s.withLanes u m l).inbox = s.inbox := rfl
@[simp] theorem withLanes_draws (s : State) (u m l : List Word) : (s.withLanes u m l).draws = s.draws := rfl
@[simp] theorem withLanes_desc (s : State) (u m l : List Word) (pl : PlaneId) : (s.withLanes u m l).desc pl = s.desc pl := by cases pl <;> rfl

/-! `withVector`. -/

@[simp] theorem withVector_run (s : State) (v : List Word) : (s.withVector v).run = s.run := rfl
@[simp] theorem withVector_backend (s : State) (v : List Word) : (s.withVector v).backend = s.backend := rfl
@[simp] theorem withVector_errCode (s : State) (v : List Word) : (s.withVector v).errCode = s.errCode := rfl
@[simp] theorem withVector_hwcap (s : State) (v : List Word) : (s.withVector v).hwcap = s.hwcap := rfl
@[simp] theorem withVector_threadClass (s : State) (v : List Word) : (s.withVector v).threadClass = s.threadClass := rfl
@[simp] theorem withVector_thrLow (s : State) (v : List Word) : (s.withVector v).thrLow = s.thrLow := rfl
@[simp] theorem withVector_thrHigh (s : State) (v : List Word) : (s.withVector v).thrHigh = s.thrHigh := rfl
@[simp] theorem withVector_modeY (s : State) (v : List Word) : (s.withVector v).modeY = s.modeY := rfl
@[simp] theorem withVector_modeU (s : State) (v : List Word) : (s.withVector v).modeU = s.modeU := rfl
@[simp] theorem withVector_modeV (s : State) (v : List Word) : (s.withVector v).modeV = s.modeV := rfl
@[simp] theorem withVector_capReq (s : State) (v : List Word) : (s.withVector v).capReq = s.capReq := rfl
@[simp] theorem withVector_fmt (s : State) (v : List Word) : (s.withVector v).fmt = s.fmt := rfl
@[simp] theorem withVector_peak (s : State) (v : List Word) : (s.withVector v).peak = s.peak := rfl
@[simp] theorem withVector_scale (s : State) (v : List Word) : (s.withVector v).scale = s.scale := rfl
@[simp] theorem withVector_shift (s : State) (v : List Word) : (s.withVector v).shift = s.shift := rfl
@[simp] theorem withVector_lowS (s : State) (v : List Word) : (s.withVector v).lowS = s.lowS := rfl
@[simp] theorem withVector_highS (s : State) (v : List Word) : (s.withVector v).highS = s.highS := rfl
@[simp] theorem withVector_descY (s : State) (v : List Word) : (s.withVector v).descY = s.descY := rfl
@[simp] theorem withVector_descU (s : State) (v : List Word) : (s.withVector v).descU = s.descU := rfl
@[simp] theorem withVector_descV (s : State) (v : List Word) : (s.withVector v).descV = s.descV := rfl
@[simp] theorem withVector_descA (s : State) (v : List Word) : (s.withVector v).descA = s.descA := rfl
@[simp] theorem withVector_pos (s : State) (v : List Word) : (s.withVector v).pos = s.pos := rfl
@[simp] theorem withVector_curUp (s : State) (v : List Word) : (s.withVector v).curUp = s.curUp := rfl
@[simp] theorem withVector_curMid (s : State) (v : List Word) : (s.withVector v).curMid = s.curMid := rfl
@[simp] theorem withVector_curLo (s : State) (v : List Word) : (s.withVector v).curLo = s.curLo := rfl
@[simp] theorem withVector_curOut (s : State) (v : List Word) : (s.withVector v).curOut = s.curOut := rfl
@[simp] theorem withVector_smpU (s : State) (v : List Word) : (s.withVector v).smpU = s.smpU := rfl
@[simp] theorem withVector_smpM (s : State) (v : List Word) : (s.withVector v).smpM = s.smpM := rfl
@[simp] theorem withVector_smpL (s : State) (v : List Word) : (s.withVector v).smpL = s.smpL := rfl
@[simp] theorem withVector_smpOut (s : State) (v : List Word) : (s.withVector v).smpOut = s.smpOut := rfl
@[simp] theorem withVector_vecU (s : State) (v : List Word) : (s.withVector v).vecU = s.vecU := rfl
@[simp] theorem withVector_vecM (s : State) (v : List Word) : (s.withVector v).vecM = s.vecM := rfl
@[simp] theorem withVector_vecLo (s : State) (v : List Word) : (s.withVector v).vecLo = s.vecLo := rfl
@[simp] theorem withVector_vecOut (s : State) (v : List Word) : (s.withVector v).vecOut = v := rfl
@[simp] theorem withVector_mem (s : State) (v : List Word) : (s.withVector v).mem = s.mem := rfl
@[simp] theorem withVector_result (s : State) (v : List Word) : (s.withVector v).result = s.result := rfl
@[simp] theorem withVector_inbox (s : State) (v : List Word) : (s.withVector v).inbox = s.inbox := rfl
@[simp] theorem withVector_draws (s : State) (v : List Word) : (s.withVector v).draws = s.draws + 1 := rfl
@[simp] theorem withVector_desc (s : State) (v : List Word) (pl : PlaneId) : (s.withVector v).desc pl = s.desc pl := by cases pl <;> rfl

/-! `withResult`. -/

@[simp] theorem withResult_run (s : State) (v : Slot) : (s.withResult v).run = s.run := rfl
@[simp] theorem withResult_backend (s : State) (v : Slot) : (s.withResult v).backend = s.backend := rfl
@[simp] theorem withResult_errCode (s : State) (v : Slot) : (s.withResult v).errCode = s.errCode := rfl
@[simp] theorem withResult_hwcap (s : State) (v : Slot) : (s.withResult v).hwcap = s.hwcap := rfl
@[simp] theorem withResult_threadClass (s : State) (v : Slot) : (s.withResult v).threadClass = s.threadClass := rfl
@[simp] theorem withResult_thrLow (s : State) (v : Slot) : (s.withResult v).thrLow = s.thrLow := rfl
@[simp] theorem withResult_thrHigh (s : State) (v : Slot) : (s.withResult v).thrHigh = s.thrHigh := rfl
@[simp] theorem withResult_modeY (s : State) (v : Slot) : (s.withResult v).modeY = s.modeY := rfl
@[simp] theorem withResult_modeU (s : State) (v : Slot) : (s.withResult v).modeU = s.modeU := rfl
@[simp] theorem withResult_modeV (s : State) (v : Slot) : (s.withResult v).modeV = s.modeV := rfl
@[simp] theorem withResult_capReq (s : State) (v : Slot) : (s.withResult v).capReq = s.capReq := rfl
@[simp] theorem withResult_fmt (s : State) (v : Slot) : (s.withResult v).fmt = s.fmt := rfl
@[simp] theorem withResult_peak (s : State) (v : Slot) : (s.withResult v).peak = s.peak := rfl
@[simp] theorem withResult_scale (s : State) (v : Slot) : (s.withResult v).scale = s.scale := rfl
@[simp] theorem withResult_shift (s : State) (v : Slot) : (s.withResult v).shift = s.shift := rfl
@[simp] theorem withResult_lowS (s : State) (v : Slot) : (s.withResult v).lowS = s.lowS := rfl
@[simp] theorem withResult_highS (s : State) (v : Slot) : (s.withResult v).highS = s.highS := rfl
@[simp] theorem withResult_descY (s : State) (v : Slot) : (s.withResult v).descY = s.descY := rfl
@[simp] theorem withResult_descU (s : State) (v : Slot) : (s.withResult v).descU = s.descU := rfl
@[simp] theorem withResult_descV (s : State) (v : Slot) : (s.withResult v).descV = s.descV := rfl
@[simp] theorem withResult_descA (s : State) (v : Slot) : (s.withResult v).descA = s.descA := rfl
@[simp] theorem withResult_pos (s : State) (v : Slot) : (s.withResult v).pos = s.pos := rfl
@[simp] theorem withResult_curUp (s : State) (v : Slot) : (s.withResult v).curUp = s.curUp := rfl
@[simp] theorem withResult_curMid (s : State) (v : Slot) : (s.withResult v).curMid = s.curMid := rfl
@[simp] theorem withResult_curLo (s : State) (v : Slot) : (s.withResult v).curLo = s.curLo := rfl
@[simp] theorem withResult_curOut (s : State) (v : Slot) : (s.withResult v).curOut = s.curOut := rfl
@[simp] theorem withResult_smpU (s : State) (v : Slot) : (s.withResult v).smpU = s.smpU := rfl
@[simp] theorem withResult_smpM (s : State) (v : Slot) : (s.withResult v).smpM = s.smpM := rfl
@[simp] theorem withResult_smpL (s : State) (v : Slot) : (s.withResult v).smpL = s.smpL := rfl
@[simp] theorem withResult_smpOut (s : State) (v : Slot) : (s.withResult v).smpOut = s.smpOut := rfl
@[simp] theorem withResult_vecU (s : State) (v : Slot) : (s.withResult v).vecU = s.vecU := rfl
@[simp] theorem withResult_vecM (s : State) (v : Slot) : (s.withResult v).vecM = s.vecM := rfl
@[simp] theorem withResult_vecLo (s : State) (v : Slot) : (s.withResult v).vecLo = s.vecLo := rfl
@[simp] theorem withResult_vecOut (s : State) (v : Slot) : (s.withResult v).vecOut = s.vecOut := rfl
@[simp] theorem withResult_mem (s : State) (v : Slot) : (s.withResult v).mem = s.mem := rfl
@[simp] theorem withResult_result (s : State) (v : Slot) : (s.withResult v).result = v := rfl
@[simp] theorem withResult_inbox (s : State) (v : Slot) : (s.withResult v).inbox = s.inbox := rfl
@[simp] theorem withResult_draws (s : State) (v : Slot) : (s.withResult v).draws = s.draws := rfl
@[simp] theorem withResult_desc (s : State) (v : Slot) (pl : PlaneId) : (s.withResult v).desc pl = s.desc pl := by cases pl <;> rfl

/-! `withInbox`. -/

@[simp] theorem withInbox_run (s : State) (q : List Pending) : (s.withInbox q).run = s.run := rfl
@[simp] theorem withInbox_backend (s : State) (q : List Pending) : (s.withInbox q).backend = s.backend := rfl
@[simp] theorem withInbox_errCode (s : State) (q : List Pending) : (s.withInbox q).errCode = s.errCode := rfl
@[simp] theorem withInbox_hwcap (s : State) (q : List Pending) : (s.withInbox q).hwcap = s.hwcap := rfl
@[simp] theorem withInbox_threadClass (s : State) (q : List Pending) : (s.withInbox q).threadClass = s.threadClass := rfl
@[simp] theorem withInbox_thrLow (s : State) (q : List Pending) : (s.withInbox q).thrLow = s.thrLow := rfl
@[simp] theorem withInbox_thrHigh (s : State) (q : List Pending) : (s.withInbox q).thrHigh = s.thrHigh := rfl
@[simp] theorem withInbox_modeY (s : State) (q : List Pending) : (s.withInbox q).modeY = s.modeY := rfl
@[simp] theorem withInbox_modeU (s : State) (q : List Pending) : (s.withInbox q).modeU = s.modeU := rfl
@[simp] theorem withInbox_modeV (s : State) (q : List Pending) : (s.withInbox q).modeV = s.modeV := rfl
@[simp] theorem withInbox_capReq (s : State) (q : List Pending) : (s.withInbox q).capReq = s.capReq := rfl
@[simp] theorem withInbox_fmt (s : State) (q : List Pending) : (s.withInbox q).fmt = s.fmt := rfl
@[simp] theorem withInbox_peak (s : State) (q : List Pending) : (s.withInbox q).peak = s.peak := rfl
@[simp] theorem withInbox_scale (s : State) (q : List Pending) : (s.withInbox q).scale = s.scale := rfl
@[simp] theorem withInbox_shift (s : State) (q : List Pending) : (s.withInbox q).shift = s.shift := rfl
@[simp] theorem withInbox_lowS (s : State) (q : List Pending) : (s.withInbox q).lowS = s.lowS := rfl
@[simp] theorem withInbox_highS (s : State) (q : List Pending) : (s.withInbox q).highS = s.highS := rfl
@[simp] theorem withInbox_descY (s : State) (q : List Pending) : (s.withInbox q).descY = s.descY := rfl
@[simp] theorem withInbox_descU (s : State) (q : List Pending) : (s.withInbox q).descU = s.descU := rfl
@[simp] theorem withInbox_descV (s : State) (q : List Pending) : (s.withInbox q).descV = s.descV := rfl
@[simp] theorem withInbox_descA (s : State) (q : List Pending) : (s.withInbox q).descA = s.descA := rfl
@[simp] theorem withInbox_pos (s : State) (q : List Pending) : (s.withInbox q).pos = s.pos := rfl
@[simp] theorem withInbox_curUp (s : State) (q : List Pending) : (s.withInbox q).curUp = s.curUp := rfl
@[simp] theorem withInbox_curMid (s : State) (q : List Pending) : (s.withInbox q).curMid = s.curMid := rfl
@[simp] theorem withInbox_curLo (s : State) (q : List Pending) : (s.withInbox q).curLo = s.curLo := rfl
@[simp] theorem withInbox_curOut (s : State) (q : List Pending) : (s.withInbox q).curOut = s.curOut := rfl
@[simp] theorem withInbox_smpU (s : State) (q : List Pending) : (s.withInbox q).smpU = s.smpU := rfl
@[simp] theorem withInbox_smpM (s : State) (q : List Pending) : (s.withInbox q).smpM = s.smpM := rfl
@[simp] theorem withInbox_smpL (s : State) (q : List Pending) : (s.withInbox q).smpL = s.smpL := rfl
@[simp] theorem withInbox_smpOut (s : State) (q : List Pending) : (s.withInbox q).smpOut = s.smpOut := rfl
@[simp] theorem withInbox_vecU (s : State) (q : List Pending) : (s.withInbox q).vecU = s.vecU := rfl
@[simp] theorem withInbox_vecM (s : State) (q : List Pending) : (s.withInbox q).vecM = s.vecM := rfl
@[simp] theorem withInbox_vecLo (s : State) (q : List Pending) : (s.withInbox q).vecLo = s.vecLo := rfl
@[simp] theorem withInbox_vecOut (s : State) (q : List Pending) : (s.withInbox q).vecOut = s.vecOut := rfl
@[simp] theorem withInbox_mem (s : State) (q : List Pending) : (s.withInbox q).mem = s.mem := rfl
@[simp] theorem withInbox_result (s : State) (q : List Pending) : (s.withInbox q).result = s.result := rfl
@[simp] theorem withInbox_inbox (s : State) (q : List Pending) : (s.withInbox q).inbox = q := rfl
@[simp] theorem withInbox_draws (s : State) (q : List Pending) : (s.withInbox q).draws = s.draws := rfl
@[simp] theorem withInbox_desc (s : State) (q : List Pending) (pl : PlaneId) : (s.withInbox q).desc pl = s.desc pl := by cases pl <;> rfl

/-! `nextDraw`. -/

@[simp] theorem nextDraw_run (s : State) : (s.nextDraw).run = s.run := rfl
@[simp] theorem nextDraw_backend (s : State) : (s.nextDraw).backend = s.backend := rfl
@[simp] theorem nextDraw_errCode (s : State) : (s.nextDraw).errCode = s.errCode := rfl
@[simp] theorem nextDraw_hwcap (s : State) : (s.nextDraw).hwcap = s.hwcap := rfl
@[simp] theorem nextDraw_threadClass (s : State) : (s.nextDraw).threadClass = s.threadClass := rfl
@[simp] theorem nextDraw_thrLow (s : State) : (s.nextDraw).thrLow = s.thrLow := rfl
@[simp] theorem nextDraw_thrHigh (s : State) : (s.nextDraw).thrHigh = s.thrHigh := rfl
@[simp] theorem nextDraw_modeY (s : State) : (s.nextDraw).modeY = s.modeY := rfl
@[simp] theorem nextDraw_modeU (s : State) : (s.nextDraw).modeU = s.modeU := rfl
@[simp] theorem nextDraw_modeV (s : State) : (s.nextDraw).modeV = s.modeV := rfl
@[simp] theorem nextDraw_capReq (s : State) : (s.nextDraw).capReq = s.capReq := rfl
@[simp] theorem nextDraw_fmt (s : State) : (s.nextDraw).fmt = s.fmt := rfl
@[simp] theorem nextDraw_peak (s : State) : (s.nextDraw).peak = s.peak := rfl
@[simp] theorem nextDraw_scale (s : State) : (s.nextDraw).scale = s.scale := rfl
@[simp] theorem nextDraw_shift (s : State) : (s.nextDraw).shift = s.shift := rfl
@[simp] theorem nextDraw_lowS (s : State) : (s.nextDraw).lowS = s.lowS := rfl
@[simp] theorem nextDraw_highS (s : State) : (s.nextDraw).highS = s.highS := rfl
@[simp] theorem nextDraw_descY (s : State) : (s.nextDraw).descY = s.descY := rfl
@[simp] theorem nextDraw_descU (s : State) : (s.nextDraw).descU = s.descU := rfl
@[simp] theorem nextDraw_descV (s : State) : (s.nextDraw).descV = s.descV := rfl
@[simp] theorem nextDraw_descA (s : State) : (s.nextDraw).descA = s.descA := rfl
@[simp] theorem nextDraw_pos (s : State) : (s.nextDraw).pos = s.pos := rfl
@[simp] theorem nextDraw_curUp (s : State) : (s.nextDraw).curUp = s.curUp := rfl
@[simp] theorem nextDraw_curMid (s : State) : (s.nextDraw).curMid = s.curMid := rfl
@[simp] theorem nextDraw_curLo (s : State) : (s.nextDraw).curLo = s.curLo := rfl
@[simp] theorem nextDraw_curOut (s : State) : (s.nextDraw).curOut = s.curOut := rfl
@[simp] theorem nextDraw_smpU (s : State) : (s.nextDraw).smpU = s.smpU := rfl
@[simp] theorem nextDraw_smpM (s : State) : (s.nextDraw).smpM = s.smpM := rfl
@[simp] theorem nextDraw_smpL (s : State) : (s.nextDraw).smpL = s.smpL := rfl
@[simp] theorem nextDraw_smpOut (s : State) : (s.nextDraw).smpOut = s.smpOut := rfl
@[simp] theorem nextDraw_vecU (s : State) : (s.nextDraw).vecU = s.vecU := rfl
@[simp] theorem nextDraw_vecM (s : State) : (s.nextDraw).vecM = s.vecM := rfl
@[simp] theorem nextDraw_vecLo (s : State) : (s.nextDraw).vecLo = s.vecLo := rfl
@[simp] theorem nextDraw_vecOut (s : State) : (s.nextDraw).vecOut = s.vecOut := rfl
@[simp] theorem nextDraw_mem (s : State) : (s.nextDraw).mem = s.mem := rfl
@[simp] theorem nextDraw_result (s : State) : (s.nextDraw).result = s.result := rfl
@[simp] theorem nextDraw_inbox (s : State) : (s.nextDraw).inbox = s.inbox := rfl
@[simp] theorem nextDraw_draws (s : State) : (s.nextDraw).draws = s.draws + 1 := rfl
@[simp] theorem nextDraw_desc (s : State) (pl : PlaneId) : (s.nextDraw).desc pl = s.desc pl := by cases pl <;> rfl

/-! `withConsts`. -/

@[simp] theorem withConsts_run (s : State) (c1 c2 c3 c4 c5 : Word) : (s.withConsts c1 c2 c3 c4 c5).run = s.run := rfl
@[simp] theorem withConsts_backend (s : State) (c1 c2 c3 c4 c5 : Word) : (s.withConsts c1 c2 c3 c4 c5).backend = s.backend := rfl
@[simp] theorem withConsts_errCode (s : State) (c1 c2 c3 c4 c5 : Word) : (s.withConsts c1 c2 c3 c4 c5).errCode = s.errCode := rfl
@[simp] theorem withConsts_hwcap (s : State) (c1 c2 c3 c4 c5 : Word) : (s.withConsts c1 c2 c3 c4 c5).hwcap = s.hwcap := rfl
@[simp] theorem withConsts_threadClass (s : State) (c1 c2 c3 c4 c5 : Word) : (s.withConsts c1 c2 c3 c4 c5).threadClass = s.threadClass := rfl
@[simp] theorem withConsts_thrLow (s : State) (c1 c2 c3 c4 c5 : Word) : (s.withConsts c1 c2 c3 c4 c5).thrLow = s.thrLow := rfl
@[simp] theorem withConsts_thrHigh (s : State) (c1 c2 c3 c4 c5 : Word) : (s.withConsts c1 c2 c3 c4 c5).thrHigh = s.thrHigh := rfl
@[simp] theorem withConsts_modeY (s : State) (c1 c2 c3 c4 c5 : Word) : (s.withConsts c1 c2 c3 c4 c5).modeY = s.modeY := rfl
@[simp] theorem withConsts_modeU (s : State) (c1 c2 c3 c4 c5 : Word) : (s.withConsts c1 c2 c3 c4 c5).modeU = s.modeU := rfl
@[simp] theorem withConsts_modeV (s : State) (c1 c2 c3 c4 c5 : Word) : (s.withConsts c1 c2 c3 c4 c5).modeV = s.modeV := rfl
@[simp] theorem withConsts_capReq (s : State) (c1 c2 c3 c4 c5 : Word) : (s.withConsts c1 c2 c3 c4 c5).capReq = s.capReq := rfl
@[simp] theorem withConsts_fmt (s : State) (c1 c2 c3 c4 c5 : Word) : (s.withConsts c1 c2 c3 c4 c5).fmt = s.fmt := rfl
@[simp] theorem withConsts_peak (s : State) (c1 c2 c3 c4 c5 : Word) : (s.withConsts c1 c2 c3 c4 c5).peak = c1 := rfl
@[simp] theorem withConsts_scale (s : State) (c1 c2 c3 c4 c5 : Word) : (s.withConsts c1 c2 c3 c4 c5).scale = c2 := rfl
@[simp] theorem withConsts_shift (s : State) (c1 c2 c3 c4 c5 : Word) : (s.withConsts c1 c2 c3 c4 c5).shift = c3 := rfl
@[simp] theorem withConsts_lowS (s : State) (c1 c2 c3 c4 c5 : Word) : (s.withConsts c1 c2 c3 c4 c5).lowS = c4 := rfl
@[simp] theorem withConsts_highS (s : State) (c1 c2 c3 c4 c5 : Word) : (s.withConsts c1 c2 c3 c4 c5).highS = c5 := rfl
@[simp] theorem withConsts_descY (s : State) (c1 c2 c3 c4 c5 : Word) : (s.withConsts c1 c2 c3 c4 c5).descY = s.descY := rfl
@[simp] theorem withConsts_descU (s : State) (c1 c2 c3 c4 c5 : Word) : (s.withConsts c1 c2 c3 c4 c5).descU = s.descU := rfl
@[simp] theorem withConsts_descV (s : State) (c1 c2 c3 c4 c5 : Word) : (s.withConsts c1 c2 c3 c4 c5).descV = s.descV := rfl
@[simp] theorem withConsts_descA (s : State) (c1 c2 c3 c4 c5 : Word) : (s.withConsts c1 c2 c3 c4 c5).descA = s.descA := rfl
@[simp] theorem withConsts_pos (s : State) (c1 c2 c3 c4 c5 : Word) : (s.withConsts c1 c2 c3 c4 c5).pos = s.pos := rfl
@[simp] theorem withConsts_curUp (s : State) (c1 c2 c3 c4 c5 : Word) : (s.withConsts c1 c2 c3 c4 c5).curUp = s.curUp := rfl
@[simp] theorem withConsts_curMid (s : State) (c1 c2 c3 c4 c5 : Word) : (s.withConsts c1 c2 c3 c4 c5).curMid = s.curMid := rfl
@[simp] theorem withConsts_curLo (s : State) (c1 c2 c3 c4 c5 : Word) : (s.withConsts c1 c2 c3 c4 c5).curLo = s.curLo := rfl
@[simp] theorem withConsts_curOut (s : State) (c1 c2 c3 c4 c5 : Word) : (s.withConsts c1 c2 c3 c4 c5).curOut = s.curOut := rfl
@[simp] theorem withConsts_smpU (s : State) (c1 c2 c3 c4 c5 : Word) : (s.withConsts c1 c2 c3 c4 c5).smpU = s.smpU := rfl
@[simp] theorem withConsts_smpM (s : State) (c1 c2 c3 c4 c5 : Word) : (s.withConsts c1 c2 c3 c4 c5).smpM = s.smpM := rfl
@[simp] theorem withConsts_smpL (s : State) (c1 c2 c3 c4 c5 : Word) : (s.withConsts c1 c2 c3 c4 c5).smpL = s.smpL := rfl
@[simp] theorem withConsts_smpOut (s : State) (c1 c2 c3 c4 c5 : Word) : (s.withConsts c1 c2 c3 c4 c5).smpOut = s.smpOut := rfl
@[simp] theorem withConsts_vecU (s : State) (c1 c2 c3 c4 c5 : Word) : (s.withConsts c1 c2 c3 c4 c5).vecU = s.vecU := rfl
@[simp] theorem withConsts_vecM (s : State) (c1 c2 c3 c4 c5 : Word) : (s.withConsts c1 c2 c3 c4 c5).vecM = s.vecM := rfl
@[simp] theorem withConsts_vecLo (s : State) (c1 c2 c3 c4 c5 : Word) : (s.withConsts c1 c2 c3 c4 c5).vecLo = s.vecLo := rfl
@[simp] theorem withConsts_vecOut (s : State) (c1 c2 c3 c4 c5 : Word) : (s.withConsts c1 c2 c3 c4 c5).vecOut = s.vecOut := rfl
@[simp] theorem withConsts_mem (s : State) (c1 c2 c3 c4 c5 : Word) : (s.withConsts c1 c2 c3 c4 c5).mem = s.mem := rfl
@[simp] theorem withConsts_result (s : State) (c1 c2 c3 c4 c5 : Word) : (s.withConsts c1 c2 c3 c4 c5).result = s.result := rfl
@[simp] theorem withConsts_inbox (s : State) (c1 c2 c3 c4 c5 : Word) : (s.withConsts c1 c2 c3 c4 c5).inbox = s.inbox := rfl
@[simp] theorem withConsts_draws (s : State) (c1 c2 c3 c4 c5 : Word) : (s.withConsts c1 c2 c3 c4 c5).draws = s.draws := rfl
@[simp] theorem withConsts_desc (s : State) (c1 c2 c3 c4 c5 : Word) (pl : PlaneId) : (s.withConsts c1 c2 c3 c4 c5).desc pl = s.desc pl := by cases pl <;> rfl

/-! `withDesc`. -/

@[simp] theorem withDesc_run (s : State) (p : PlaneId) (d : Desc) : (s.withDesc p d).run = s.run := by cases p <;> rfl
@[simp] theorem withDesc_backend (s : State) (p : PlaneId) (d : Desc) : (s.withDesc p d).backend = s.backend := by cases p <;> rfl
@[simp] theorem withDesc_errCode (s : State) (p : PlaneId) (d : Desc) : (s.withDesc p d).errCode = s.errCode := by cases p <;> rfl
@[simp] theorem withDesc_hwcap (s : State) (p : PlaneId) (d : Desc) : (s.withDesc p d).hwcap = s.hwcap := by cases p <;> rfl
@[simp] theorem withDesc_threadClass (s : State) (p : PlaneId) (d : Desc) : (s.withDesc p d).threadClass = s.threadClass := by cases p <;> rfl
@[simp] theorem withDesc_thrLow (s : State) (p : PlaneId) (d : Desc) : (s.withDesc p d).thrLow = s.thrLow := by cases p <;> rfl
@[simp] theorem withDesc_thrHigh (s : State) (p : PlaneId) (d : Desc) : (s.withDesc p d).thrHigh = s.thrHigh := by cases p <;> rfl
@[simp] theorem withDesc_modeY (s : State) (p : PlaneId) (d : Desc) : (s.withDesc p d).modeY = s.modeY := by cases p <;> rfl
@[simp] theorem withDesc_modeU (s : State) (p : PlaneId) (d : Desc) : (s.withDesc p d).modeU = s.modeU := by cases p <;> rfl
@[simp] theorem withDesc_modeV (s : State) (p : PlaneId) (d : Desc) : (s.withDesc p d).modeV = s.modeV := by cases p <;> rfl
@[simp] theorem withDesc_capReq (s : State) (p : PlaneId) (d : Desc) : (s.withDesc p d).capReq = s.capReq := by cases p <;> rfl
@[simp] theorem withDesc_fmt (s : State) (p : PlaneId) (d : Desc) : (s.withDesc p d).fmt = s.fmt := by cases p <;> rfl
@[simp] theorem withDesc_peak (s : State) (p : PlaneId) (d : Desc) : (s.withDesc p d).peak = s.peak := by cases p <;> rfl
@[simp] theorem withDesc_scale (s : State) (p : PlaneId) (d : Desc) : (s.withDesc p d).scale = s.scale := by cases p <;> rfl
@[simp] theorem withDesc_shift (s : State) (p : PlaneId) (d : Desc) : (s.withDesc p d).shift = s.shift := by cases p <;> rfl
@[simp] theorem withDesc_lowS (s : State) (p : PlaneId) (d : Desc) : (s.withDesc p d).lowS = s.lowS := by cases p <;> rfl
@[simp] theorem withDesc_highS (s : State) (p : PlaneId) (d : Desc) : (s.withDesc p d).highS = s.highS := by cases p <;> rfl
@[simp] theorem withDesc_pos (s : State) (p : PlaneId) (d : Desc) : (s.withDesc p d).pos = s.pos := by cases p <;> rfl
@[simp] theorem withDesc_curUp (s : State) (p : PlaneId) (d : Desc) : (s.withDesc p d).curUp = s.curUp := by cases p <;> rfl
@[simp] theorem withDesc_curMid (s : State) (p : PlaneId) (d : Desc) : (s.withDesc p d).curMid = s.curMid := by cases p <;> rfl
@[simp] theorem withDesc_curLo (s : State) (p : PlaneId) (d : Desc) : (s.withDesc p d).curLo = s.curLo := by cases p <;> rfl
@[simp] theorem withDesc_curOut (s : State) (p : PlaneId) (d : Desc) : (s.withDesc p d).curOut = s.curOut := by cases p <;> rfl
@[simp] theorem withDesc_smpU (s : State) (p : PlaneId) (d : Desc) : (s.withDesc p d).smpU = s.smpU := by cases p <;> rfl
@[simp] theorem withDesc_smpM (s : State) (p : PlaneId) (d : Desc) : (s.withDesc p d).smpM = s.smpM := by cases p <;> rfl
@[simp] theorem withDesc_smpL (s : State) (p : PlaneId) (d : Desc) : (s.withDesc p d).smpL = s.smpL := by cases p <;> rfl
@[simp] theorem withDesc_smpOut (s : State) (p : PlaneId) (d : Desc) : (s.withDesc p d).smpOut = s.smpOut := by cases p <;> rfl
@[simp] theorem withDesc_vecU (s : State) (p : PlaneId) (d : Desc) : (s.withDesc p d).vecU = s.vecU := by cases p <;> rfl
@[simp] theorem withDesc_vecM (s : State) (p : PlaneId) (d : Desc) : (s.withDesc p d).vecM = s.vecM := by cases p <;> rfl
@[simp] theorem withDesc_vecLo (s : State) (p : PlaneId) (d : Desc) : (s.withDesc p d).vecLo = s.vecLo := by cases p <;> rfl
@[simp] theorem withDesc_vecOut (s : State) (p : PlaneId) (d : Desc) : (s.withDesc p d).vecOut = s.vecOut := by cases p <;> rfl
@[simp] theorem withDesc_mem (s : State) (p : PlaneId) (d : Desc) : (s.withDesc p d).mem = s.mem := by cases p <;> rfl
@[simp] theorem withDesc_result (s : State) (p : PlaneId) (d : Desc) : (s.withDesc p d).result = s.result := by cases p <;> rfl
@[simp] theorem withDesc_inbox (s : State) (p : PlaneId) (d : Desc) : (s.withDesc p d).inbox = s.inbox := by cases p <;> rfl
@[simp] theorem withDesc_draws (s : State) (p : PlaneId) (d : Desc) : (s.withDesc p d).draws = s.draws := by cases p <;> rfl
@[simp] theorem withDesc_desc_same (s : State) (p : PlaneId) (d : Desc) : (s.withDesc p d).desc p = d := by
  cases p <;> rfl
theorem withDesc_desc_other (s : State) (p q : PlaneId) (d : Desc) (h : q ≠ p) :
    (s.withDesc p d).desc q = s.desc q := by
  cases p <;> cases q <;> first | rfl | exact absurd rfl h
@[simp] theorem withDesc_desc_self (s : State) (p : PlaneId) : s.withDesc p (s.desc p) = s := by
  cases p <;> rfl

/-! `raiseConfigError`. -/

@[simp] theorem raiseConfigError_run (code : Nat) (s : State) : (raiseConfigError code s).run = .error := rfl
@[simp] theorem raiseConfigError_backend (code : Nat) (s : State) : (raiseConfigError code s).backend = s.backend := rfl
@[simp] theorem raiseConfigError_errCode (code : Nat) (s : State) : (raiseConfigError code s).errCode = BitVec.ofNat 4 code := rfl
@[simp] theorem raiseConfigError_hwcap (code : Nat) (s : State) : (raiseConfigError code s).hwcap = s.hwcap := rfl
@[simp] theorem raiseConfigError_threadClass (code : Nat) (s : State) : (raiseConfigError code s).threadClass = s.threadClass := rfl
@[simp] theorem raiseConfigError_thrLow (code : Nat) (s : State) : (raiseConfigError code s).thrLow = s.thrLow := rfl
@[simp] theorem raiseConfigError_thrHigh (code : Nat) (s : State) : (raiseConfigError code s).thrHigh = s.thrHigh := rfl
@[simp] theorem raiseConfigError_modeY (code : Nat) (s : State) : (raiseConfigError code s).modeY = s.modeY := rfl
@[simp] theorem raiseConfigError_modeU (code : Nat) (s : State) : (raiseConfigError code s).modeU = s.modeU := rfl
@[simp] theorem raiseConfigError_modeV (code : Nat) (s : State) : (raiseConfigError code s).modeV = s.modeV := rfl
@[simp] theorem raiseConfigError_capReq (code : Nat) (s : State) : (raiseConfigError code s).capReq = s.capReq := rfl
@[simp] theorem raiseConfigError_fmt (code : Nat) (s : State) : (raiseConfigError code s).fmt = s.fmt := rfl
@[simp] theorem raiseConfigError_peak (code : Nat) (s : State) : (raiseConfigError code s).peak = s.peak := rfl
@[simp] theorem raiseConfigError_scale (code : Nat) (s : State) : (raiseConfigError code s).scale = s.scale := rfl
@[simp] theorem raiseConfigError_shift (code : Nat) (s : State) : (raiseConfigError code s).shift = s.shift := rfl
@[simp] theorem raiseConfigError_lowS (code : Nat) (s : State) : (raiseConfigError code s).lowS = s.lowS := rfl
@[simp] theorem raiseConfigError_highS (code : Nat) (s : State) : (raiseConfigError code s).highS = s.highS := rfl
@[simp] theorem raiseConfigError_descY (code : Nat) (s : State) : (raiseConfigError code s).descY = s.descY := rfl
@[simp] theorem raiseConfigError_descU (code : Nat) (s : State) : (raiseConfigError code s).descU = s.descU := rfl
@[simp] theorem raiseConfigError_descV (code : Nat) (s : State) : (raiseConfigError code s).descV = s.descV := rfl
@[simp] theorem raiseConfigError_descA (code : Nat) (s : State) : (raiseConfigError code s).descA = s.descA := rfl
@[simp] theorem raiseConfigError_pos (code : Nat) (s : State) : (raiseConfigError code s).pos = s.pos := rfl
@[simp] theorem raiseConfigError_curUp (code : Nat) (s : State) : (raiseConfigError code s).curUp = s.curUp := rfl
@[simp] theorem raiseConfigError_curMid (code : Nat) (s : State) : (raiseConfigError code s).curMid = s.curMid := rfl
@[simp] theorem raiseConfigError_curLo (code : Nat) (s : State) : (raiseConfigError code s).curLo = s.curLo := rfl
@[simp] theorem raiseConfigError_curOut (code : Nat) (s : State) : (raiseConfigError code s).curOut = s.curOut := rfl
@[simp] theorem raiseConfigError_smpU (code : Nat) (s : State) : (raiseConfigError code s).smpU = s.smpU := rfl
@[simp] theorem raiseConfigError_smpM (code : Nat) (s : State) : (raiseConfigError code s).smpM = s.smpM := rfl
@[simp] theorem raiseConfigError_smpL (code : Nat) (s : State) : (raiseConfigError code s).smpL = s.smpL := rfl
@[simp] theorem raiseConfigError_smpOut (code : Nat) (s : State) : (raiseConfigError code s).smpOut = s.smpOut := rfl
@[simp] theorem raiseConfigError_vecU (code : Nat) (s : State) : (raiseConfigError code s).vecU = s.vecU := rfl
@[simp] theorem raiseConfigError_vecM (code : Nat) (s : State) : (raiseConfigError code s).vecM = s.vecM := rfl
@[simp] theorem raiseConfigError_vecLo (code : Nat) (s : State) : (raiseConfigError code s).vecLo = s.vecLo := rfl
@[simp] theorem raiseConfigError_vecOut (code : Nat) (s : State) : (raiseConfigError code s).vecOut = s.vecOut := rfl
@[simp] theorem raiseConfigError_mem (code : Nat) (s : State) : (raiseConfigError code s).mem = s.mem := rfl
@[simp] theorem raiseConfigError_result (code : Nat) (s : State) : (raiseConfigError code s).result = s.result := rfl
@[simp] theorem raiseConfigError_inbox (code : Nat) (s : State) : (raiseConfigError code s).inbox = s.inbox := rfl
@[simp] theorem raiseConfigError_draws (code : Nat) (s : State) : (raiseConfigError code s).draws = s.draws := rfl
@[simp] theorem raiseConfigError_desc (code : Nat) (s : State) (q : PlaneId) :
    (raiseConfigError code s).desc q = s.desc q := by cases q <;> rfl

/-! Functions of the configuration that an update of other fields leaves alone. -/


@[simp] theorem withMem_domainOf (s : State) (m : List Host.Cell) : domainOf (s.withMem m) = domainOf s := rfl
@[simp] theorem withMem_effMode (s : State) (m : List Host.Cell) (pl : PlaneId) : effMode (s.withMem m) pl = effMode s pl := by cases pl <;> rfl
@[simp] theorem withMem_isPresent (s : State) (m : List Host.Cell) (pl : PlaneId) : isPresent (s.withMem m) pl = isPresent s pl := by cases pl <;> rfl
@[simp] theorem withRun_domainOf (s : State) (r : RunState) : domainOf (s.withRun r) = domainOf s := rfl
@[simp] theorem withRun_effMode (s : State) (r : RunState) (pl : PlaneId) : effMode (s.withRun r) pl = effMode s pl := by cases pl <;> rfl
@[simp] theorem withRun_isPresent (s : State) (r : RunState) (pl : PlaneId) : isPresent (s.withRun r) pl = isPresent s pl := by cases pl <;> rfl
@[simp] theorem withPos_domainOf (s : State) (p : Option Pos) : domainOf (s.withPos p) = domainOf s := rfl
@[simp] theorem withPos_effMode (s : State) (p : Option Pos) (pl : PlaneId) : effMode (s.withPos p) pl = effMode s pl := by cases pl <;> rfl
@[simp] theorem withPos_isPresent (s : State) (p : Option Pos) (pl : PlaneId) : isPresent (s.withPos p) pl = isPresent s pl := by cases pl <;> rfl
@[simp] theorem withCursors_domainOf (s : State) (c1 c2 c3 c4 : Slot) : domainOf (s.withCursors c1 c2 c3 c4) = domainOf s := rfl
@[simp] theorem withCursors_effMode (s : State) (c1 c2 c3 c4 : Slot) (pl : PlaneId) : effMode (s.withCursors c1 c2 c3 c4) pl = effMode s pl := by cases pl <;> rfl
@[simp] theorem withCursors_isPresent (s : State) (c1 c2 c3 c4 : Slot) (pl : PlaneId) : isPresent (s.withCursors c1 c2 c3 c4) pl = isPresent s pl := by cases pl <;> rfl
@[simp] theorem withSamples_domainOf (s : State) (u m l : Word) : domainOf (s.withSamples u m l) = domainOf s := rfl
@[simp] theorem withSamples_effMode (s : State) (u m l : Word) (pl : PlaneId) : effMode (s.withSamples u m l) pl = effMode s pl := by cases pl <;> rfl
@[simp] theorem withSamples_isPresent (s : State) (u m l : Word) (pl : PlaneId) : isPresent (s.withSamples u m l) pl = isPresent s pl := by cases pl <;> rfl
@[simp] theorem withPixel_domainOf (s : State) (w : Word) : domainOf (s.withPixel w) = domainOf s := rfl
@[simp] theorem withPixel_effMode (s : State) (w : Word) (pl : PlaneId) : effMode (s.withPixel w) pl = effMode s pl := by cases pl <;> rfl
@[simp] theorem withPixel_isPresent (s : State) (w : Word) (pl : PlaneId) : isPresent (s.withPixel w) pl = isPresent s pl := by cases pl <;> rfl
@[simp] theorem withLanes_domainOf (s : State) (u m l : List Word) : domainOf (s.withLanes u m l) = domainOf s := rfl
@[simp] theorem withLanes_effMode (s : State) (u m l : List Word) (pl : PlaneId) : effMode (s.withLanes u m l) pl = effMode s pl := by cases pl <;> rfl
@[simp] theorem withLanes_isPresent (s : State) (u m l : List Word) (pl : PlaneId) : isPresent (s.withLanes u m l) pl = isPresent s pl := by cases pl <;> rfl
@[simp] theorem withVector_domainOf (s : State) (v : List Word) : domainOf (s.withVector v) = domainOf s := rfl
@[simp] theorem withVector_effMode (s : State) (v : List Word) (pl : PlaneId) : effMode (s.withVector v) pl = effMode s pl := by cases pl <;> rfl
@[simp] theorem withVector_isPresent (s : State) (v : List Word) (pl : PlaneId) : isPresent (s.withVector v) pl = isPresent s pl := by cases pl <;> rfl
@[simp] theorem withResult_domainOf (s : State) (v : Slot) : domainOf (s.withResult v) = domainOf s := rfl
@[simp] theorem withResult_effMode (s : State) (v : Slot) (pl : PlaneId) : effMode (s.withResult v) pl = effMode s pl := by cases pl <;> rfl
@[simp] theorem withResult_isPresent (s : State) (v : Slot) (pl : PlaneId) : isPresent (s.withResult v) pl = isPresent s pl := by cases pl <;> rfl
@[simp] theorem withInbox_domainOf (s : State) (q : List Pending) : domainOf (s.withInbox q) = domainOf s := rfl
@[simp] theorem withInbox_effMode (s : State) (q : List Pending) (pl : PlaneId) : effMode (s.withInbox q) pl = effMode s pl := by cases pl <;> rfl
@[simp] theorem withInbox_isPresent (s : State) (q : List Pending) (pl : PlaneId) : isPresent (s.withInbox q) pl = isPresent s pl := by cases pl <;> rfl
@[simp] theorem nextDraw_domainOf (s : State) : domainOf (s.nextDraw) = domainOf s := rfl
@[simp] theorem nextDraw_effMode (s : State) (pl : PlaneId) : effMode (s.nextDraw) pl = effMode s pl := by cases pl <;> rfl
@[simp] theorem nextDraw_isPresent (s : State) (pl : PlaneId) : isPresent (s.nextDraw) pl = isPresent s pl := by cases pl <;> rfl
@[simp] theorem withConsts_domainOf (s : State) (c1 c2 c3 c4 c5 : Word) : domainOf (s.withConsts c1 c2 c3 c4 c5) = domainOf s := rfl
@[simp] theorem withConsts_effMode (s : State) (c1 c2 c3 c4 c5 : Word) (pl : PlaneId) : effMode (s.withConsts c1 c2 c3 c4 c5) pl = effMode s pl := by cases pl <;> rfl
@[simp] theorem withConsts_isPresent (s : State) (c1 c2 c3 c4 c5 : Word) (pl : PlaneId) : isPresent (s.withConsts c1 c2 c3 c4 c5) pl = isPresent s pl := by cases pl <;> rfl

end Sys2Proof.Machine
end

