-- ==== Sys2Proof/Laws/Operands.lean ====
section
/-! SUPPORT. Footprints, valid descriptors, access classes and the lane operands: what each says, in arithmetic. -/

namespace Sys2Proof.Machine

theorem elemSize_pos (d : Domain) : 0 < elemSize d := by cases d <;> decide

theorem elemSize_le (d : Domain) : elemSize d ≤ 4 := by cases d <;> decide

/-! Footprints. -/

theorem Foot.contains_iff (f : Foot) (a : Nat) :
    f.contains a = true ↔ ∃ y, y < f.rows ∧ f.base + y * f.pitch ≤ a ∧ a < f.base + y * f.pitch + f.len := by
  simp [Foot.contains]

theorem Foot.not_contains_iff (f : Foot) (a : Nat) :
    f.contains a = false ↔ ∀ y, y < f.rows → a < f.base + y * f.pitch ∨ f.base + y * f.pitch + f.len ≤ a := by
  rw [← Bool.not_eq_true, Foot.contains_iff]
  constructor
  · intro h y hy
    by_contra hc
    exact h ⟨y, hy, by omega, by omega⟩
  · rintro h ⟨y, hy, h1, h2⟩
    have := h y hy
    omega

theorem rangesApart_iff (a la b lb : Nat) :
    rangesApart a la b lb = true ↔ la = 0 ∨ lb = 0 ∨ a + la ≤ b ∨ b + lb ≤ a := by
  simp [rangesApart, or_assoc]

theorem Foot.apart_iff (f g : Foot) :
    f.apart g = true ↔ ∀ y, y < f.rows → ∀ z, z < g.rows →
      rangesApart (f.base + y * f.pitch) f.len (g.base + z * g.pitch) g.len = true := by
  simp [Foot.apart]

/-- Footprints that are apart have no common byte. -/
theorem Foot.apart_no_common (f g : Foot) (h : f.apart g = true) (a : Nat) (hf : f.contains a = true) :
    g.contains a = false := by
  rw [Foot.apart_iff] at h
  rw [Foot.contains_iff] at hf
  obtain ⟨y, hy, h1, h2⟩ := hf
  rw [Foot.not_contains_iff]
  intro z hz
  have := (rangesApart_iff _ _ _ _).mp (h y hy z hz)
  omega

/-- The rows of a destination footprint are its bytes (20_memory.md R66). -/
theorem dstFoot_contains_iff (d : Domain) (ds : Desc) (a : Nat) : (dstFoot d ds).contains a = true ↔ DstByte d ds a := by
  rw [Foot.contains_iff]
  have hes := elemSize_pos d
  constructor
  · rintro ⟨y, hy, h1, h2⟩
    simp only [dstFoot] at *
    refine ⟨y, (a - (ds.dstBase.toNat + y * ds.dstPitch.toNat)) / elemSize d,
      (a - (ds.dstBase.toNat + y * ds.dstPitch.toNat)) % elemSize d, hy, ?_, Nat.mod_lt _ hes, ?_⟩
    · rw [Nat.div_lt_iff_lt_mul hes]; omega
    · have := Nat.div_add_mod (a - (ds.dstBase.toNat + y * ds.dstPitch.toNat)) (elemSize d)
      rw [Nat.mul_comm] at this
      simp only [dstAddr]; omega
  · rintro ⟨y, x, i, hy, hx, hi, rfl⟩
    have h := Nat.mul_le_mul_right (elemSize d) (Nat.succ_le_of_lt hx)
    rw [Nat.succ_mul] at h
    refine ⟨y, hy, ?_, ?_⟩ <;> simp only [dstFoot, dstAddr] <;> omega

/-- The rows of a source footprint are its bytes (20_memory.md R66). -/
theorem srcFoot_contains_iff (d : Domain) (ds : Desc) (a : Nat) : (srcFoot d ds).contains a = true ↔ SrcByte d ds a := by
  rw [Foot.contains_iff]
  have hes := elemSize_pos d
  constructor
  · rintro ⟨y, hy, h1, h2⟩
    simp only [srcFoot] at *
    refine ⟨y, (a - (ds.srcBase.toNat + y * ds.srcPitch.toNat)) / elemSize d,
      (a - (ds.srcBase.toNat + y * ds.srcPitch.toNat)) % elemSize d, hy, ?_, Nat.mod_lt _ hes, ?_⟩
    · rw [Nat.div_lt_iff_lt_mul hes]; omega
    · have := Nat.div_add_mod (a - (ds.srcBase.toNat + y * ds.srcPitch.toNat)) (elemSize d)
      rw [Nat.mul_comm] at this
      simp only [srcAddr]; omega
  · rintro ⟨y, x, i, hy, hx, hi, rfl⟩
    have h := Nat.mul_le_mul_right (elemSize d) (Nat.succ_le_of_lt hx)
    rw [Nat.succ_mul] at h
    refine ⟨y, hy, ?_, ?_⟩ <;> simp only [srcFoot, srcAddr] <;> omega

/-- Footprints are apart exactly when they have no common byte. -/
theorem Foot.apart_iff_no_common (f g : Foot) :
    f.apart g = true ↔ ∀ a, f.contains a = true → g.contains a = false := by
  refine ⟨fun h a => Foot.apart_no_common f g h a, fun h => ?_⟩
  rw [Foot.apart_iff]
  intro y hy z hz
  rw [rangesApart_iff]
  by_contra hc
  have h1 : f.contains (max (f.base + y * f.pitch) (g.base + z * g.pitch)) = true :=
    (Foot.contains_iff _ _).mpr ⟨y, hy, by omega, by omega⟩
  have h2 := (Foot.not_contains_iff _ _).mp (h _ h1) z hz
  omega

/-! Valid descriptors. -/

/-- V1 to V3 in arithmetic (20_memory.md R69, R70). -/
theorem descInRange_iff (d : Domain) (ds : Desc) :
    descInRange d ds = true ↔
      ds.width.toNat * elemSize d ≤ ds.srcPitch.toNat ∧ ds.width.toNat * elemSize d ≤ ds.dstPitch.toNat ∧
      (ds.height.toNat = 0 ∨ ds.width.toNat = 0 ∨
        (ds.srcBase.toNat + (ds.height.toNat - 1) * ds.srcPitch.toNat + ds.width.toNat * elemSize d
            ≤ Config.planeMemoryEnd ∧
         ds.dstBase.toNat + (ds.height.toNat - 1) * ds.dstPitch.toNat + ds.width.toNat * elemSize d
            ≤ Config.planeMemoryEnd)) ∧
      ds.srcBase.toNat % elemSize d = 0 ∧ ds.dstBase.toNat % elemSize d = 0 ∧
      ds.srcPitch.toNat % elemSize d = 0 ∧ ds.dstPitch.toNat % elemSize d = 0 := by
  simp only [descInRange, Bool.and_eq_true, Bool.or_eq_true, decide_eq_true_eq, beq_iff_eq]
  tauto

/-- Every source row of a valid, non-empty plane lies in plane memory. -/
theorem srcRow_in_memory (d : Domain) (ds : Desc) (h : descInRange d ds = true) (hw : ds.width.toNat ≠ 0) (y : Nat)
    (hy : y < ds.height.toNat) : srcAddr d ds y 0 + ds.width.toNat * elemSize d ≤ Config.planeMemoryEnd := by
  have h2 := ((descInRange_iff d ds).mp h).2.2.1
  have h3 : y * ds.srcPitch.toNat ≤ (ds.height.toNat - 1) * ds.srcPitch.toNat :=
    Nat.mul_le_mul_right _ (by omega)
  simp only [srcAddr]
  omega

/-- Every destination row of a valid, non-empty plane lies in plane memory. -/
theorem dstRow_in_memory (d : Domain) (ds : Desc) (h : descInRange d ds = true) (hw : ds.width.toNat ≠ 0) (y : Nat)
    (hy : y < ds.height.toNat) : dstAddr d ds y 0 + ds.width.toNat * elemSize d ≤ Config.planeMemoryEnd := by
  have h2 := ((descInRange_iff d ds).mp h).2.2.1
  have h3 : y * ds.dstPitch.toNat ≤ (ds.height.toNat - 1) * ds.dstPitch.toNat :=
    Nat.mul_le_mul_right _ (by omega)
  simp only [dstAddr]
  omega

theorem srcAddr_col (d : Domain) (ds : Desc) (y x : Nat) : srcAddr d ds y x = srcAddr d ds y 0 + x * elemSize d := by
  simp [srcAddr]

theorem dstAddr_col (d : Domain) (ds : Desc) (y x : Nat) : dstAddr d ds y x = dstAddr d ds y 0 + x * elemSize d := by
  simp [dstAddr]

/-- Rows of a plane do not overlap each other: the pitch is at least the row (20_memory.md R70 V1). -/
theorem dstRows_apart (d : Domain) (ds : Desc) (h : descInRange d ds = true) (y z : Nat) (hyz : y < z) :
    dstAddr d ds y 0 + ds.width.toNat * elemSize d ≤ dstAddr d ds z 0 := by
  have h1 := ((descInRange_iff d ds).mp h).2.1
  have h3 : (y + 1) * ds.dstPitch.toNat ≤ z * ds.dstPitch.toNat := Nat.mul_le_mul_right _ hyz
  rw [Nat.succ_mul] at h3
  simp only [dstAddr]
  omega

theorem descValid_iff (d : Domain) (ds : Desc) :
    descValid d ds = true ↔ descInRange d ds = true ∧ (dstFoot d ds).apart (srcFoot d ds) = true := by
  simp [descValid]

/-- In a valid plane a destination row and a source row have no common byte (20_memory.md R70 V4). -/
theorem descValid_rows_apart (d : Domain) (ds : Desc) (h : descValid d ds = true) (hw : ds.width.toNat ≠ 0) (y z : Nat)
    (hy : y < ds.height.toNat) (hz : z < ds.height.toNat) :
    dstAddr d ds y 0 + ds.width.toNat * elemSize d ≤ srcAddr d ds z 0 ∨
      srcAddr d ds z 0 + ds.width.toNat * elemSize d ≤ dstAddr d ds y 0 := by
  have h1 := (Foot.apart_iff _ _).mp ((descValid_iff d ds).mp h).2 y hy z hz
  have h2 := (rangesApart_iff _ _ _ _).mp h1
  have h3 : 0 < ds.width.toNat * elemSize d := Nat.mul_pos (by omega) (elemSize_pos d)
  simp only [dstFoot, srcFoot] at h2
  simp only [dstAddr, srcAddr]
  omega

/-- V1 to V4 for the accessed planes (20_memory.md R70). -/
theorem frameValid_iff (d : Domain) (s : State) :
    frameValid d s = true ↔ ∀ p, p ∈ accessedPlanes s →
      descInRange d (s.desc p) = true ∧ ∀ q, q ∈ accessedPlanes s →
        (dstFoot d (s.desc p)).apart (srcFoot d (s.desc q)) = true ∧
        (p = q ∨ (dstFoot d (s.desc p)).apart (dstFoot d (s.desc q)) = true) := by
  simp [frameValid]

/-- Each plane a valid FRAME accesses is valid by itself. -/
theorem descValid_of_frameValid (d : Domain) (s : State) (h : frameValid d s = true) (p : PlaneId)
    (hp : p ∈ accessedPlanes s) : descValid d (s.desc p) = true := by
  have h1 := (frameValid_iff d s).mp h p hp
  exact (descValid_iff _ _).mpr ⟨h1.1, (h1.2 p hp).1⟩

theorem mem_accessedPlanes (s : State) (p : PlaneId) : p ∈ accessedPlanes s ↔ isAccessed s p = true := by
  simp only [accessedPlanes, List.mem_filter, allPlanes]
  cases p <;> simp

/-! Register slots. -/

theorem regAt_none_iff (offset : Slot) : regAt offset = none ↔ isSlotOffset offset = false := by
  unfold regAt
  split <;> simp_all

/-- What a slot write does (10_state.md R33, R34): it stores, or changes nothing. -/
theorem writeReg_cases (s : State) (r : Reg) (data : Slot) :
    (writeReg s r data = storeReg s data r ∧
      ((accessOf r = .whileUnconfigured ∧ s.run = .unconfigured) ∨ (accessOf r = .unlessBusy ∧ s.run ≠ .busy))) ∨
    writeReg s r data = s := by
  unfold writeReg
  cases h : accessOf r with
  | readOnly => exact .inr rfl
  | writeOnly => exact .inr rfl
  | whileUnconfigured =>
    by_cases hu : s.run = .unconfigured
    · exact .inl ⟨by simp [hu], .inl ⟨rfl, hu⟩⟩
    · exact .inr (by simp [hu])
  | unlessBusy =>
    by_cases hb : s.run = .busy
    · exact .inr (by simp [hb])
    · exact .inl ⟨by simp [hb], .inr ⟨rfl, hb⟩⟩

/-! What changes only the datapath. -/

theorem OnlyDatapath.refl (s : State) : OnlyDatapath s s := rfl

theorem OnlyDatapath.trans {s t u : State} (h1 : OnlyDatapath s t) (h2 : OnlyDatapath t u) : OnlyDatapath s u := by
  unfold OnlyDatapath at *
  rw [h2, h1]

theorem OnlyDatapath.desc {s t : State} (h : OnlyDatapath s t) (p : PlaneId) : t.desc p = s.desc p := by
  unfold OnlyDatapath at h
  rw [h]; cases p <;> rfl

theorem OnlyDatapath.domainOf {s t : State} (h : OnlyDatapath s t) : domainOf t = domainOf s := by
  unfold OnlyDatapath at h
  rw [h]; rfl

theorem OnlyDatapath.backend {s t : State} (h : OnlyDatapath s t) : t.backend = s.backend := by
  unfold OnlyDatapath at h
  rw [h]

theorem OnlyDatapath.lowS {s t : State} (h : OnlyDatapath s t) : t.lowS = s.lowS := by
  unfold OnlyDatapath at h
  rw [h]

theorem OnlyDatapath.highS {s t : State} (h : OnlyDatapath s t) : t.highS = s.highS := by
  unfold OnlyDatapath at h
  rw [h]

theorem withMem_onlyDatapath (s : State) (m : List Host.Cell) : OnlyDatapath s (s.withMem m) := rfl

theorem withCursors_onlyDatapath (s : State) (a b c e : Slot) : OnlyDatapath s (s.withCursors a b c e) := rfl

theorem withSamples_onlyDatapath (s : State) (u m l : Word) : OnlyDatapath s (s.withSamples u m l) := rfl

theorem withLanes_onlyDatapath (s : State) (u m l : List Word) : OnlyDatapath s (s.withLanes u m l) := rfl

theorem withPixel_onlyDatapath (s : State) (w : Word) : OnlyDatapath s (s.withPixel w) := rfl

theorem withVector_onlyDatapath (s : State) (v : List Word) : OnlyDatapath s (s.withVector v) := rfl

end Sys2Proof.Machine
end

