-- ==== Sys2Proof/Laws/Datapath.lean ====
section
/-! SUPPORT. What the pixel, row, kernel and copy operations do to plane memory: one lemma each. -/

namespace Sys2Proof.Machine

/-! Pixels. -/

theorem pixInt_le (b low high u m l : Nat) : pixInt b low high u m l ≤ 2 ^ b - 1 := by
  have hp : (1 : Int) ≤ 2 ^ b := by exact_mod_cast Nat.one_le_two_pow
  simp only [pixInt, clampInt]
  have : ((2 ^ b - 1 : Nat) : Int) = 2 ^ b - 1 := by
    rw [Nat.cast_sub Nat.one_le_two_pow]; push_cast; rfl
  omega

/-- A pixel's result fits its container (40_numeric_domain.md R158). -/
theorem pix_lt (d : Domain) (low high u m l free : Word) :
    (pix d low high u m l free).toNat < 256 ^ elemSize d := by
  have h32 : ∀ w : Word, w.toNat < 256 ^ 4 := fun w => by have := w.isLt; simpa using this
  have hint : ∀ b k n : Nat, n ≤ 2 ^ b - 1 → 2 ^ b ≤ 256 ^ k → (BitVec.ofNat 32 n).toNat < 256 ^ k := by
    intro b k n h1 h2
    have hm := Nat.mod_le n (2 ^ 32)
    have hb := Nat.one_le_two_pow (n := b)
    rw [BitVec.toNat_ofNat]
    omega
  cases d with
  | f32 => exact h32 _
  | u8 => exact hint 8 1 _ (pixInt_le 8 _ _ _ _ _) (by norm_num)
  | u16b10 => exact hint 10 2 _ (pixInt_le 10 _ _ _ _ _) (by norm_num)
  | u16b12 => exact hint 12 2 _ (pixInt_le 12 _ _ _ _ _) (by norm_num)
  | u16b14 => exact hint 14 2 _ (pixInt_le 14 _ _ _ _ _) (by norm_num)
  | u16b16 => exact hint 16 2 _ (pixInt_le 16 _ _ _ _ _) (by norm_num)

theorem pixLanes_length (d : Domain) (low high : Word) (draw j : Nat) (us ms ls : List Word)
    (hm : ms.length = us.length) (hl : ls.length = us.length) :
    (pixLanes d low high draw j us ms ls).length = us.length := by
  induction us generalizing j ms ls with
  | nil => simp [pixLanes]
  | cons u us ih =>
    cases ms with
    | nil => simp at hm
    | cons m ms =>
      cases ls with
      | nil => simp at hl
      | cons l ls =>
        simp only [pixLanes, List.length_cons, Nat.add_right_cancel_iff] at hm hl ⊢
        exact ih _ _ _ hm hl

/-- Lane j of VPIX is PIX of lane j of the operands (42_vector_backends.md R215). -/
theorem pixLanes_getElem (d : Domain) (low high : Word) (draw k : Nat) (us ms ls : List Word) (j : Nat)
    (hu : j < us.length) (hm : j < ms.length) (hl : j < ls.length)
    (h : j < (pixLanes d low high draw k us ms ls).length) :
    (pixLanes d low high draw k us ms ls)[j] = pix d low high us[j] ms[j] ls[j] (Config.freeWord draw (k + j)) := by
  induction us generalizing k j ms ls with
  | nil => simp at hu
  | cons u us ih =>
    cases ms with
    | nil => simp at hm
    | cons m ms =>
      cases ls with
      | nil => simp at hl
      | cons l ls =>
        cases j with
        | zero => simp [pixLanes]
        | succ j =>
          simp only [pixLanes, List.getElem_cons_succ]
          rw [ih (k + 1) ms ls j (by simpa using hu) (by simpa using hm) (by simpa using hl)]
          congr 1; congr 1; omega

/-! Columns of a row. -/

/-- The columns from x0 to before x1 of destination row y in t's memory hold PIX of s's source; nothing else of memory, and
nothing but the datapath, differs. -/
structure ColumnsMasked (d : Domain) (p : PlaneId) (y x0 x1 : Nat) (s t : State) : Prop where
  frame : OnlyDatapath s t
  outside : ∀ a, a < dstAddr d (s.desc p) y x0 ∨ dstAddr d (s.desc p) y x1 ≤ a → memByte t.mem a = memByte s.mem a
  samples : ∀ x, x0 ≤ x → x < x1 → ∃ free, dstSample d (s.desc p) t.mem y x =
    (maskSample d s.lowS s.highS (s.desc p) s.mem y x free).toNat
  canonical : Memory.wf s.mem = true → Memory.wf t.mem = true

/-- The hypotheses under which row y of a plane is an interior row of a valid plane. -/
structure InteriorRow (d : Domain) (ds : Desc) (y : Nat) : Prop where
  valid : descValid d ds = true
  width : ds.width.toNat ≠ 0
  low : 1 ≤ y
  high : y + 2 ≤ ds.height.toNat

theorem ofNat_toNat_of_le (a n : Nat) (hn : 0 < n) (h : a + n ≤ Config.planeMemoryEnd) :
    (BitVec.ofNat 64 a).toNat = a := by
  rw [BitVec.toNat_ofNat]
  refine Nat.mod_eq_of_lt ?_
  simp only [Config.planeMemoryEnd] at h
  omega

theorem InteriorRow.rowBytes_pos {d : Domain} {ds : Desc} {y : Nat} (h : InteriorRow d ds y) :
    0 < ds.width.toNat * elemSize d := Nat.mul_pos (Nat.pos_of_ne_zero h.width) (elemSize_pos d)

/-- The source samples of an interior row are the same before and after a change of destination row y alone. -/
theorem InteriorRow.srcSample_congr {d : Domain} {ds : Desc} {y : Nat} (h : InteriorRow d ds y) (m m' : List Host.Cell)
    (x0 x1 : Nat) (hx1 : x1 ≤ ds.width.toNat)
    (hsame : ∀ a, a < dstAddr d ds y x0 ∨ dstAddr d ds y x1 ≤ a → memByte m' a = memByte m a)
    (z x : Nat) (hz : z < ds.height.toNat) (hx : x < ds.width.toNat) : srcSample d ds m' z x = srcSample d ds m z x := by
  have hap := descValid_rows_apart d ds h.valid h.width y z (by have := h.high; omega) hz
  have h1 : x1 * elemSize d ≤ ds.width.toNat * elemSize d := Nat.mul_le_mul_right _ hx1
  have h2 : (x + 1) * elemSize d ≤ ds.width.toNat * elemSize d := Nat.mul_le_mul_right _ hx
  rw [Nat.succ_mul] at h2
  unfold srcSample
  congr 1
  refine memRead_congr _ _ _ _ fun c hc1 hc2 => hsame c ?_
  rw [srcAddr_col] at hc1 hc2
  rw [dstAddr_col d ds y x0, dstAddr_col d ds y x1]
  omega

theorem InteriorRow.maskSample_congr {d : Domain} {ds : Desc} {y : Nat} (h : InteriorRow d ds y) (m m' : List Host.Cell)
    (x0 x1 : Nat) (hx1 : x1 ≤ ds.width.toNat)
    (hsame : ∀ a, a < dstAddr d ds y x0 ∨ dstAddr d ds y x1 ≤ a → memByte m' a = memByte m a)
    (low high : Word) (x : Nat) (hx : x < ds.width.toNat) (free : Word) :
    maskSample d low high ds m' y x free = maskSample d low high ds m y x free := by
  have h1 := h.high
  unfold maskSample
  rw [h.srcSample_congr m m' x0 x1 hx1 hsame (y - 1) x (by omega) hx,
    h.srcSample_congr m m' x0 x1 hx1 hsame y x (by omega) hx,
    h.srcSample_congr m m' x0 x1 hx1 hsame (y + 1) x (by omega) hx]

theorem ColumnsMasked.refl (d : Domain) (p : PlaneId) (y x : Nat) (s : State) : ColumnsMasked d p y x x s s :=
  ⟨OnlyDatapath.refl s, fun _ _ => rfl, fun _ h1 h2 => absurd h1 (by omega), id⟩

/-- Columns masked one part after the other. -/
theorem ColumnsMasked.trans {d : Domain} {p : PlaneId} {y x0 x1 x2 : Nat} {s t u : State}
    (hrow : InteriorRow d (s.desc p) y) (h01 : x0 ≤ x1) (h12 : x1 ≤ x2) (hx2 : x2 ≤ (s.desc p).width.toNat)
    (h1 : ColumnsMasked d p y x0 x1 s t) (h2 : ColumnsMasked d p y x1 x2 t u) : ColumnsMasked d p y x0 x2 s u := by
  have hd := h1.frame.desc p
  have hlo := h1.frame.lowS
  have hhi := h1.frame.highS
  have e01 : x0 * elemSize d ≤ x1 * elemSize d := Nat.mul_le_mul_right _ h01
  have e12 : x1 * elemSize d ≤ x2 * elemSize d := Nat.mul_le_mul_right _ h12
  have o1 := h1.outside
  have o2 := h2.outside
  rw [hd] at o2
  have hs2 := h2.samples
  rw [hd, hlo, hhi] at hs2
  refine ⟨h1.frame.trans h2.frame, ?_, ?_, fun hw => h2.canonical (h1.canonical hw)⟩
  · intro a ha
    rw [dstAddr_col d _ y x0, dstAddr_col d _ y x2] at ha
    rw [o2 a (by rw [dstAddr_col d _ y x1, dstAddr_col d _ y x2]; omega),
      o1 a (by rw [dstAddr_col d _ y x0, dstAddr_col d _ y x1]; omega)]
  · intro x hx0 hxx
    by_cases hx : x < x1
    · obtain ⟨free, hf⟩ := h1.samples x hx0 hx
      refine ⟨free, ?_⟩
      rw [← hf]
      have e : (x + 1) * elemSize d ≤ x1 * elemSize d := Nat.mul_le_mul_right _ hx
      rw [Nat.succ_mul] at e
      unfold dstSample
      refine memRead_congr _ _ _ _ fun c hc1 hc2 => o2 c (Or.inl ?_)
      rw [dstAddr_col d _ y x] at hc2
      rw [dstAddr_col d _ y x1]
      omega
    · obtain ⟨free, hf⟩ := hs2 x (by omega) hxx
      exact ⟨free, by rw [hf, hrow.maskSample_congr s.mem t.mem x0 x1 (by omega) o1 _ _ x (by omega) free]⟩

/-- One column on the scalar path (41_threshold_kernel.md R182). -/
theorem maskPixel_masks (d : Domain) (p : PlaneId) (y x : Nat) (s : State) (hrow : InteriorRow d (s.desc p) y)
    (hx : x < (s.desc p).width.toNat) : ColumnsMasked d p y x (x + 1) s (maskPixel d p y x s) := by
  have hp := hrow.rowBytes_pos
  have hv := ((descValid_iff _ _).mp hrow.valid).1
  have h1 := hrow.low
  have h2 := hrow.high
  have cu := ofNat_toNat_of_le _ _ hp (srcRow_in_memory d _ hv hrow.width (y - 1) (by omega))
  have cm := ofNat_toNat_of_le _ _ hp (srcRow_in_memory d _ hv hrow.width y (by omega))
  have cl := ofNat_toNat_of_le _ _ hp (srcRow_in_memory d _ hv hrow.width (y + 1) (by omega))
  have co := ofNat_toNat_of_le _ _ hp (dstRow_in_memory d _ hv hrow.width y (by omega))
  have dm := dstRow_in_memory d _ hv hrow.width y (by omega)
  have e : (x + 1) * elemSize d ≤ (s.desc p).width.toNat * elemSize d := Nat.mul_le_mul_right _ hx
  rw [Nat.succ_mul] at e
  have hmem : (maskPixel d p y x s).mem =
      memWrite s.mem (dstAddr d (s.desc p) y x) (elemSize d)
        (maskSample d s.lowS s.highS (s.desc p) s.mem y x (Config.freeWord s.draws 0)).toNat := by
    simp only [maskPixel, storeSample, pixOp, fetchSamples, aimCursors, sampleAt, maskSample, srcSample,
      withMem_mem, withPixel_mem, withPixel_curOut, withPixel_smpOut, withSamples_mem, withSamples_curOut,
      withSamples_lowS, withSamples_highS, withSamples_smpU, withSamples_smpM, withSamples_smpL, withSamples_draws,
      withCursors_mem, withCursors_curOut, withCursors_curUp, withCursors_curMid, withCursors_curLo,
      withCursors_lowS, withCursors_highS, withCursors_draws, cu, cm, cl, co]
    rw [dstAddr_col d _ y x, srcAddr_col d _ (y - 1) x, srcAddr_col d _ y x, srcAddr_col d _ (y + 1) x]
  refine ⟨rfl, ?_, ?_, ?_⟩
  · intro a ha
    rw [dstAddr_col d _ y x, dstAddr_col d _ y (x + 1), Nat.succ_mul] at ha
    rw [hmem, memByte_memWrite, if_neg]
    rw [dstAddr_col d _ y x]
    omega
  · intro x' hx1 hx2
    have : x' = x := by omega
    subst this
    refine ⟨Config.freeWord s.draws 0, ?_⟩
    rw [dstSample, hmem, memRead_memWrite_same]
    exact Nat.mod_eq_of_lt (pix_lt _ _ _ _ _ _ _)
  · intro hw
    rw [hmem]
    refine memWrite_wf _ _ _ _ ?_ hw
    rw [dstAddr_col d _ y x]
    omega

/-- n columns on the scalar path. -/
theorem maskPixels_mask (d : Domain) (p : PlaneId) (y x n : Nat) (s : State) (hrow : InteriorRow d (s.desc p) y)
    (hx : x + n ≤ (s.desc p).width.toNat) : ColumnsMasked d p y x (x + n) s (maskPixels d p y x n s) := by
  induction n generalizing x s with
  | zero => exact ColumnsMasked.refl d p y x s
  | succ n ih =>
    have h1 := maskPixel_masks d p y x s hrow (by omega)
    have hd := h1.frame.desc p
    have h2 := ih (x + 1) (maskPixel d p y x s) (by rw [hd]; exact hrow) (by rw [hd]; omega)
    have : x + (n + 1) = x + 1 + n := by omega
    rw [this]
    exact ColumnsMasked.trans hrow (by omega) (by omega) (by omega) h1 h2

/-- One lane group (42_vector_backends.md R215, R216). -/
theorem maskGroup_masks (d : Domain) (p : PlaneId) (y x n : Nat) (s : State) (hrow : InteriorRow d (s.desc p) y)
    (hx : x + n ≤ (s.desc p).width.toNat) : ColumnsMasked d p y x (x + n) s (maskGroup d p y x n s) := by
  have hp := hrow.rowBytes_pos
  have hv := ((descValid_iff _ _).mp hrow.valid).1
  have h1 := hrow.low
  have h2 := hrow.high
  have cu := ofNat_toNat_of_le _ _ hp (srcRow_in_memory d _ hv hrow.width (y - 1) (by omega))
  have cm := ofNat_toNat_of_le _ _ hp (srcRow_in_memory d _ hv hrow.width y (by omega))
  have cl := ofNat_toNat_of_le _ _ hp (srcRow_in_memory d _ hv hrow.width (y + 1) (by omega))
  have co := ofNat_toNat_of_le _ _ hp (dstRow_in_memory d _ hv hrow.width y (by omega))
  have dm := dstRow_in_memory d _ hv hrow.width y (by omega)
  have e : (x + n) * elemSize d ≤ (s.desc p).width.toNat * elemSize d := Nat.mul_le_mul_right _ hx
  rw [Nat.add_mul] at e
  generalize hU : loadLanes s.mem (elemSize d) (srcAddr d (s.desc p) (y - 1) x) n = us
  generalize hM : loadLanes s.mem (elemSize d) (srcAddr d (s.desc p) y x) n = ms
  generalize hL : loadLanes s.mem (elemSize d) (srcAddr d (s.desc p) (y + 1) x) n = ls
  have lu : us.length = n := by rw [← hU]; simp
  have lm : ms.length = n := by rw [← hM]; simp
  have ll : ls.length = n := by rw [← hL]; simp
  have hmem : (maskGroup d p y x n s).mem =
      storeLanes (elemSize d) s.mem (dstAddr d (s.desc p) y x) (pixLanes d s.lowS s.highS s.draws 0 us ms ls) := by
    rw [← hU, ← hM, ← hL]
    simp only [maskGroup, storeVector, vpixOp, fetchLanes, aimCursors,
      withMem_mem, withVector_mem, withVector_curOut, withVector_vecOut, withLanes_mem, withLanes_curOut,
      withLanes_lowS, withLanes_highS, withLanes_vecU, withLanes_vecM, withLanes_vecLo, withLanes_draws,
      withCursors_mem, withCursors_curOut, withCursors_curUp, withCursors_curMid, withCursors_curLo,
      withCursors_lowS, withCursors_highS, withCursors_draws, cu, cm, cl, co]
    rw [dstAddr_col d _ y x, srcAddr_col d _ (y - 1) x, srcAddr_col d _ y x, srcAddr_col d _ (y + 1) x]
  have lo : (pixLanes d s.lowS s.highS s.draws 0 us ms ls).length = n := by
    rw [pixLanes_length _ _ _ _ _ _ _ _ (by omega) (by omega), lu]
  refine ⟨rfl, ?_, ?_, ?_⟩
  · intro a ha
    rw [dstAddr_col d _ y x, dstAddr_col d _ y (x + n), Nat.add_mul] at ha
    rw [hmem, memByte_storeLanes_outside]
    rw [lo, dstAddr_col d _ y x]
    omega
  · intro x' hx1 hx2
    obtain ⟨j, rfl⟩ : ∃ j, x' = x + j := ⟨x' - x, by omega⟩
    have hj : j < n := by omega
    refine ⟨Config.freeWord s.draws (0 + j), ?_⟩
    have ha : dstAddr d (s.desc p) y (x + j) = dstAddr d (s.desc p) y x + j * elemSize d := by
      rw [dstAddr_col d _ y (x + j), dstAddr_col d _ y x, Nat.add_mul]; omega
    rw [dstSample, hmem, ha, memRead_storeLanes _ _ _ _ _ (by omega),
      pixLanes_getElem _ _ _ _ _ _ _ _ _ (by omega) (by omega) (by omega),
      Nat.mod_eq_of_lt (pix_lt _ _ _ _ _ _ _)]
    have gu : us[j]'(by omega) = srcSample d (s.desc p) s.mem (y - 1) (x + j) := by
      simp only [← hU, loadLanes_getElem, srcSample]
      rw [srcAddr_col d _ (y - 1) x, srcAddr_col d _ (y - 1) (x + j), Nat.add_mul, Nat.add_assoc]
    have gm : ms[j]'(by omega) = srcSample d (s.desc p) s.mem y (x + j) := by
      simp only [← hM, loadLanes_getElem, srcSample]
      rw [srcAddr_col d _ y x, srcAddr_col d _ y (x + j), Nat.add_mul, Nat.add_assoc]
    have gl : ls[j]'(by omega) = srcSample d (s.desc p) s.mem (y + 1) (x + j) := by
      simp only [← hL, loadLanes_getElem, srcSample]
      rw [srcAddr_col d _ (y + 1) x, srcAddr_col d _ (y + 1) (x + j), Nat.add_mul, Nat.add_assoc]
    rw [gu, gm, gl, maskSample]
  · intro hw
    rw [hmem]
    refine storeLanes_wf _ _ _ _ ?_ hw
    rw [lo, dstAddr_col d _ y x]
    omega

/-- k lane groups of n columns. -/
theorem maskGroups_mask (d : Domain) (p : PlaneId) (y n x k : Nat) (s : State) (hrow : InteriorRow d (s.desc p) y)
    (hx : x + k * n ≤ (s.desc p).width.toNat) : ColumnsMasked d p y x (x + k * n) s (maskGroups d p y n x k s) := by
  induction k generalizing x s with
  | zero => rw [Nat.zero_mul]; exact ColumnsMasked.refl d p y x s
  | succ k ih =>
    rw [Nat.succ_mul] at hx ⊢
    have h1 := maskGroup_masks d p y x n s hrow (by omega)
    have hd := h1.frame.desc p
    have h2 := ih (x + n) (maskGroup d p y x n s) (by rw [hd]; exact hrow) (by rw [hd]; omega)
    have : x + (k * n + n) = x + n + k * n := by omega
    rw [this]
    exact ColumnsMasked.trans hrow (by omega) (by omega) (by omega) h1 h2

/-- A whole interior row, with any backend (41_threshold_kernel.md R182, 42_vector_backends.md R210, R216). -/
theorem rowOp_masks (t : Tier) (d : Domain) (p : PlaneId) (y : Nat) (s : State) (hrow : InteriorRow d (s.desc p) y) :
    ColumnsMasked d p y 0 (s.desc p).width.toNat s (rowOp t d p y s) := by
  have scalar := maskPixels_mask d p y 0 (s.desc p).width.toNat s hrow (by omega)
  rw [Nat.zero_add] at scalar
  have vector : ∀ n, ColumnsMasked d p y 0 (s.desc p).width.toNat s
      (maskPixels d p y ((s.desc p).width.toNat / n * n) ((s.desc p).width.toNat % n)
        (maskGroups d p y n 0 ((s.desc p).width.toNat / n) s)) := by
    intro n
    have hdiv : (s.desc p).width.toNat / n * n + (s.desc p).width.toNat % n = (s.desc p).width.toNat := by
      rw [Nat.mul_comm]; exact Nat.div_add_mod _ _
    have h1 := maskGroups_mask d p y n 0 ((s.desc p).width.toNat / n) s hrow (by omega)
    rw [Nat.zero_add] at h1
    have hd := h1.frame.desc p
    have h2 := maskPixels_mask d p y ((s.desc p).width.toNat / n * n) ((s.desc p).width.toNat % n)
      (maskGroups d p y n 0 ((s.desc p).width.toNat / n) s) (by rw [hd]; exact hrow) (by rw [hd]; omega)
    rw [hdiv] at h2
    exact ColumnsMasked.trans hrow (Nat.zero_le _) (by omega) (by omega) h1 h2
  cases t with
  | scalar => exact scalar
  | tier1 => exact vector _
  | tier2 => exact vector _
  | tier3 => exact vector _

/-! Border rows and copied rows. -/

/-- A border row: its bytes are zero and no other byte changes (41_threshold_kernel.md R183). -/
theorem memByte_zrowOp (d : Domain) (p : PlaneId) (y : Nat) (s : State) (a : Nat) :
    memByte (zrowOp d p y s).mem a =
      if dstAddr d (s.desc p) y 0 ≤ a ∧ a < dstAddr d (s.desc p) y 0 + (s.desc p).width.toNat * elemSize d then 0
      else memByte s.mem a :=
  memByte_memZero _ _ _ _

theorem zrowOp_onlyDatapath (d : Domain) (p : PlaneId) (y : Nat) (s : State) : OnlyDatapath s (zrowOp d p y s) := rfl

/-- A container of zero bytes reads 0. -/
theorem memRead_zero (m : List Host.Cell) (a n : Nat) (h : ∀ c, a ≤ c → c < a + n → memByte m c = 0) :
    memRead m a n = 0 := by
  induction n generalizing a with
  | zero => rfl
  | succ n ih =>
    simp only [memRead]
    rw [h a (Nat.le_refl a) (by omega), ih (a + 1) fun c h1 h2 => h c (by omega) (by omega)]
    rfl

/-- A copied row of a valid plane: each byte comes from the same place of the source row, and no other byte changes
(43_dispatch.md R245). -/
theorem memByte_copyRow (d : Domain) (p : PlaneId) (y : Nat) (s : State) (hv : descValid d (s.desc p) = true)
    (hw : (s.desc p).width.toNat ≠ 0) (hy : y < (s.desc p).height.toNat) (a : Nat) :
    memByte (copyRow d p y s).mem a =
      if dstAddr d (s.desc p) y 0 ≤ a ∧ a < dstAddr d (s.desc p) y 0 + (s.desc p).width.toNat * elemSize d then
        memByte s.mem (srcAddr d (s.desc p) y 0 + (a - dstAddr d (s.desc p) y 0))
      else memByte s.mem a := by
  refine memByte_memCopy _ _ _ _ _ ?_
  have := descValid_rows_apart d _ hv hw y y hy hy
  omega

theorem copyRow_onlyDatapath (d : Domain) (p : PlaneId) (y : Nat) (s : State) : OnlyDatapath s (copyRow d p y s) := rfl

end Sys2Proof.Machine
end

