-- ==== Sys2Proof/Laws/Control.lean ====
section
/-! SUPPORT. What the control operations can do, one lemma each: the parts of CONFIGURE, FRAME and the sequencer, the guards of
the plane operations, the register accesses, the host's memory accesses, and the step. -/

namespace Sys2Proof.Machine

theorem next_eq_iff (s t : State) : (Host.Outcome.next s : Host.Outcome State Fault Refusal) = .next t ↔ t = s :=
  ⟨fun h => by cases h; rfl, fun h => by rw [h]⟩

/-! CONFIGURE and its parts. -/

/-- An accepted request resolves as the spec's table says (43_dispatch.md R236). -/
theorem resolveRequest_ok_iff (req : Int) (hw t : Tier) :
    resolveRequest req hw = .ok t ↔ (req = -1 ∧ t = hw) ∨ (req = tierCode t ∧ tierCode t ≤ tierCode hw) := by
  unfold resolveRequest
  cases hw <;> cases t <;> simp only [tierCode] <;> (repeat' split) <;> simp_all

/-- A request fails with 7 when it exceeds the detected level, and with 6 when it is none of the five (R236). -/
theorem resolveRequest_error_iff (req : Int) (hw : Tier) (code : Nat) :
    resolveRequest req hw = .error code ↔
      (code = 6 ∧ ¬(-1 ≤ req ∧ req ≤ 3)) ∨ (code = 7 ∧ (-1 ≤ req ∧ req ≤ 3) ∧ (tierCode hw : Int) < req) := by
  unfold resolveRequest
  cases hw <;> simp only [tierCode] <;> (repeat' split) <;> simp_all <;> omega

theorem isMode_iff (v : Int) : isMode v = true ↔ 1 ≤ v ∧ v ≤ 3 := by
  simp only [isMode, Bool.or_eq_true, beq_iff_eq]; omega

theorem isThreshold_iff (v : Int) : isThreshold v = true ↔ 0 ≤ v ∧ v ≤ 255 := by
  simp [isThreshold]

/-- VALIDATE returns 0 exactly for a valid configuration (43_dispatch.md R231). -/
theorem validateCode_eq_zero_iff (s : State) : validateCode s = 0 ↔ ∃ d, ValidConfig s d := by
  have hm : (isMode s.modeY.toInt && isMode s.modeU.toInt && isMode s.modeV.toInt) = true ↔ ModesInRange s := by
    simp only [Bool.and_eq_true, isMode_iff, ModesInRange, and_assoc]
  have ht : (isThreshold s.thrLow.toInt && isThreshold s.thrHigh.toInt) = true ↔ ThresholdsInRange s := by
    simp only [Bool.and_eq_true, isThreshold_iff, ThresholdsInRange, and_assoc]
  have hr : ∀ t, resolveRequest s.capReq.toInt s.hwcap = .ok t → RequestKnown s ∧ RequestSupported s := by
    intro t h
    have h1 := (resolveRequest_ok_iff _ _ _).mp h
    unfold RequestKnown RequestSupported
    have h2 : tierCode t ≤ 3 := by cases t <;> decide
    rcases h1 with ⟨h1, -⟩ | ⟨h1, h3⟩ <;> omega
  unfold validateCode
  constructor
  · intro h
    split at h
    · cases h
    · rename_i hl
      split at h
      · cases h
      · rename_i h2
        split at h
        · cases h
        · rename_i h3
          split at h
          · cases h
          · rename_i h4
            split at h
            · cases h
            · rename_i d hd
              split at h
              · rename_i code he
                have := (resolveRequest_error_iff _ _ _).mp he
                omega
              · rename_i t hok
                refine ⟨d, ?_, hm.mp ?_, ht.mp ?_, by omega, hd, hr t hok⟩
                · simpa using hl
                · simpa using h2
                · simpa using h3
  · rintro ⟨d, hl, h2, h3, h4, hd, hk, hs⟩
    rw [if_neg (by simp [hl]), if_neg (by simp [hm.mpr h2]), if_neg (by simp [ht.mpr h3]),
      if_neg (by omega), hd]
    simp only
    split
    · rename_i code he
      unfold RequestKnown at hk
      unfold RequestSupported at hs
      have := (resolveRequest_error_iff _ _ _).mp he
      omega
    · rfl

theorem validateCode_le (s : State) : validateCode s ≤ 7 := by
  unfold validateCode
  (repeat' split) <;> try omega
  rename_i code he
  have := (resolveRequest_error_iff _ _ _).mp he
  omega

/-- What CONFIGURE can do (43_dispatch.md R230): it is ignored, it takes the error, or it makes the instance READY. -/
theorem configureOp_cases (s : State) :
    (s.run ≠ .unconfigured ∧ configureOp s = s) ∨
    (s.run = .unconfigured ∧ validateCode s ≠ 0 ∧ configureOp s = raiseConfigError (validateCode s) s) ∨
    (s.run = .unconfigured ∧ ∃ d t, ValidConfig s d ∧ resolveRequest s.capReq.toInt s.hwcap = .ok t ∧
      configureOp s = enterReady d t s) := by
  unfold configureOp
  split
  · rename_i hu
    split
    · rename_i hz
      obtain ⟨d, hv⟩ := (validateCode_eq_zero_iff s).mp hz
      have hd := hv.2.2.2.2.1
      rw [hd]
      cases hr : resolveRequest s.capReq.toInt s.hwcap with
      | ok t => exact .inr (.inr ⟨hu, d, t, hv, rfl, rfl⟩)
      | error code =>
        have h1 := (resolveRequest_error_iff _ _ _).mp hr
        have hk := hv.2.2.2.2.2.1
        have hs := hv.2.2.2.2.2.2
        unfold RequestKnown at hk
        unfold RequestSupported at hs
        omega
    · rename_i hz
      exact .inr (.inl ⟨hu, hz, rfl⟩)
  · rename_i hu
    exact .inl ⟨hu, rfl⟩

/-- What a request for a part of CONFIGURE can do. -/
theorem whileUnconfigured_eq (op : State → State) (s t : State) :
    whileUnconfigured op s = .next t ↔ (s.run = .unconfigured ∧ t = op s) ∨ (s.run ≠ .unconfigured ∧ t = s) := by
  unfold whileUnconfigured
  split <;> simp_all [eq_comm]

/-! The guards of the plane operations. -/

/-- What an operation on a plane can do: nothing on an empty plane, a stop, or its effect. -/
theorem onPlane_next_iff (p : PlaneId) (op : Domain → Host.Outcome State Fault Refusal) (s t : State) :
    onPlane p op s = .next t ↔
      (¬PlaneNotEmpty (s.desc p) ∧ t = s) ∨
      (PlaneNotEmpty (s.desc p) ∧ ∃ d, domainOf s = some d ∧ descValid d (s.desc p) = true ∧ op d = .next t) := by
  unfold onPlane PlaneNotEmpty
  by_cases hw : (s.desc p).width = 0 ∨ (s.desc p).height = 0
  · have hn : ¬((s.desc p).width ≠ 0 ∧ (s.desc p).height ≠ 0) := by tauto
    rw [if_pos hw]
    simp only [hn, not_false_iff, true_and, false_and, or_false, Host.Outcome.next.injEq, eq_comm]
  · have hn : (s.desc p).width ≠ 0 ∧ (s.desc p).height ≠ 0 := by tauto
    rw [if_neg hw]
    simp only [hn, not_true, false_and, true_and, false_or, ne_eq, not_false_iff, and_self]
    cases hd : domainOf s with
    | none => simp
    | some d => by_cases hv : descValid d (s.desc p) = true <;> simp [hv]

theorem onColourPlane_next_iff (p : PlaneId) (op : Domain → Host.Outcome State Fault Refusal) (s t : State) :
    onColourPlane p op s = .next t ↔ p.isColour = true ∧ onPlane p op s = .next t := by
  unfold onColourPlane
  split <;> simp_all

/-- What a row form can do: nothing on an empty plane, a stop, or its row. -/
theorem rowForm_next_iff (k : Tier) (p : PlaneId) (y : Word) (s t : State) :
    rowForm k p y s = .next t ↔ p.isColour = true ∧
      ((¬PlaneNotEmpty (s.desc p) ∧ t = s) ∨
       (∃ d, domainOf s = some d ∧ InteriorRow d (s.desc p) y.toNat ∧ t = rowOp k d p y.toNat s)) := by
  unfold rowForm
  rw [onColourPlane_next_iff, onPlane_next_iff]
  constructor
  · rintro ⟨hc, ⟨h, rfl⟩ | ⟨hn, d, hd, hv, h⟩⟩
    · exact ⟨hc, .inl ⟨h, rfl⟩⟩
    · refine ⟨hc, .inr ⟨d, hd, ?_⟩⟩
      split at h
      · rename_i hr
        cases h
        exact ⟨⟨hv, fun h0 => hn.1 (BitVec.eq_of_toNat_eq (by simpa using h0)), hr.1, hr.2⟩, rfl⟩
      · cases h
  · rintro ⟨hc, ⟨h, rfl⟩ | ⟨d, hd, hrow, rfl⟩⟩
    · exact ⟨hc, .inl ⟨h, rfl⟩⟩
    · refine ⟨hc, .inr ⟨⟨?_, ?_⟩, d, hd, hrow.valid, ?_⟩⟩
      · intro h0; exact hrow.width (by simp [h0])
      · intro h0
        have h1 := hrow.high
        rw [h0] at h1
        simp at h1
      · rw [if_pos ⟨hrow.low, hrow.high⟩]

/-! FRAME and the sequencer. -/

@[simp] theorem goTo_run (s : State) (next : Option Pos) :
    (goTo s next).run = if next.isSome then .busy else .ready := rfl
@[simp] theorem goTo_pos (s : State) (next : Option Pos) : (goTo s next).pos = next := rfl
@[simp] theorem goTo_mem (s : State) (next : Option Pos) : (goTo s next).mem = s.mem := rfl
@[simp] theorem goTo_desc (s : State) (next : Option Pos) (p : PlaneId) : (goTo s next).desc p = s.desc p := by
  cases p <;> rfl
@[simp] theorem goTo_domainOf (s : State) (next : Option Pos) : domainOf (goTo s next) = domainOf s := rfl

/-- What FRAME can do (43_dispatch.md R240): it is ignored, or it starts with valid descriptors. -/
theorem frameOp_next_iff (s t : State) :
    frameOp s = .next t ↔ (s.run ≠ .ready ∧ t = s) ∨
      (s.run = .ready ∧ ∃ d, domainOf s = some d ∧ frameValid d s = true ∧ t = goTo s (firstPos s allPlanes)) := by
  unfold frameOp
  split
  · rename_i hr
    cases hd : domainOf s with
    | none => simp [hr]
    | some d =>
      by_cases hv : frameValid d s = true
      · simp [hr, hv, next_eq_iff, -Host.Outcome.next.injEq]
      · simp [hr, hv]
  · rename_i hr
    simp [hr, next_eq_iff, -Host.Outcome.next.injEq]

/-- A position that firstPos gives is the first sample of a plane with work. -/
theorem firstPos_some (s : State) (planes : List PlaneId) (q : Pos) (h : firstPos s planes = some q) :
    q.plane ∈ planes ∧ hasWork s q.plane = true ∧ q.row = 0 ∧ q.col = 0 := by
  simp only [firstPos, Option.map_eq_some_iff] at h
  obtain ⟨p, hp, rfl⟩ := h
  have h1 := List.mem_of_head? hp
  rw [List.mem_filter] at h1
  exact ⟨h1.1, h1.2, rfl, rfl⟩

/-- What a sequencer step can do: nothing, or the step of its position. -/
theorem sequencerStep_next_iff (s t : State) :
    sequencerStep s = .next t ↔ (s.run ≠ .busy ∧ t = s) ∨ (s.run = .busy ∧ s.pos = none ∧ t = goTo s none) ∨
      (s.run = .busy ∧ ∃ q d, s.pos = some q ∧ domainOf s = some d ∧ descInRange d (s.desc q.plane) = true ∧
        t = sequencerAt d q s) := by
  unfold sequencerStep
  split
  · rename_i hb
    cases hp : s.pos with
    | none => simp [hb, next_eq_iff, -Host.Outcome.next.injEq]
    | some q =>
      cases hd : domainOf s with
      | none => simp [hb]
      | some d =>
        by_cases hv : descInRange d (s.desc q.plane) = true
        · simp [hb, hv, next_eq_iff, -Host.Outcome.next.injEq]
        · simp [hb, hv]
  · rename_i hb
    simp [hb, next_eq_iff, -Host.Outcome.next.injEq]

theorem groupWidth_le (k : Tier) (d : Domain) (w x : Nat) (hx : x < w) : x + groupWidth k d w x ≤ w := by
  unfold groupWidth
  split <;> omega

theorem laneCount_pos (k : Tier) (d : Domain) : 0 < laneCount k d := by cases k <;> cases d <;> decide

theorem groupWidth_pos (k : Tier) (d : Domain) (w x : Nat) : 0 < groupWidth k d w x := by
  unfold groupWidth
  have := laneCount_pos k d
  split <;> omega

/-! Register accesses. -/

/-- What WR can do (10_state.md R22, R23, R33, R34). -/
theorem execWr_next_iff (offset data : Slot) (s t : State) :
    execWr offset data s = .next t ↔ ∃ r, regAt offset = some r ∧
      ((r = .cmd ∧ writeCommand data s = .next t) ∨ (r ≠ .cmd ∧ t = writeReg s r data)) := by
  unfold execWr
  cases h : regAt offset with
  | none => simp
  | some r => cases r <;> simp [eq_comm]

/-- What RD can do (10_state.md R22, R34). -/
theorem execRd_next_iff (offset : Slot) (s t : State) :
    execRd offset s = .next t ↔ ∃ r, regAt offset = some r ∧ t = s.withResult (readReg s r) := by
  unfold execRd
  cases h : regAt offset with
  | none => simp
  | some r => simp [eq_comm]

/-! The host's memory accesses. -/

/-- What a host write of a byte can do (20_memory.md R60, R77). -/
theorem hostWrite_next_iff (addr : Nat) (b : Byte) (s t : State) :
    hostWrite addr b s = .next t ↔ addr < Config.planeMemoryEnd ∧
      (s.run = .busy → inSource s addr = false ∧ inDestination s addr = false) ∧
      t = s.withMem (memSet s.mem addr b) := by
  unfold hostWrite
  by_cases h1 : Config.planeMemoryEnd ≤ addr
  · simp [h1, Nat.not_lt.mpr h1]
  · have h1' : addr < Config.planeMemoryEnd := by omega
    by_cases h2 : s.run = .busy
    · cases h3 : inSource s addr <;> cases h4 : inDestination s addr <;> simp [h1, h1', h2, next_eq_iff, -Host.Outcome.next.injEq]
    · simp [h1, h1', h2, next_eq_iff, -Host.Outcome.next.injEq]

/-- What a host read of a byte can do (20_memory.md R60, R75). -/
theorem hostRead_next_iff (addr : Nat) (s t : State) :
    hostRead addr s = .next t ↔ addr < Config.planeMemoryEnd ∧
      ((s.run = .busy ∧ inDestination s addr = true ∧
          t = (s.withResult ((Config.freeByte s.draws addr).setWidth 64)).nextDraw) ∨
       (¬(s.run = .busy ∧ inDestination s addr = true) ∧ t = s.withResult ((memByte s.mem addr).setWidth 64))) := by
  unfold hostRead
  by_cases h1 : Config.planeMemoryEnd ≤ addr
  · simp [h1, Nat.not_lt.mpr h1]
  · have h1' : addr < Config.planeMemoryEnd := by omega
    by_cases h2 : s.run = .busy
    · cases h4 : inDestination s addr <;> simp [h1, h1', h2, next_eq_iff, -Host.Outcome.next.injEq]
    · simp [h1, h1', h2, next_eq_iff, -Host.Outcome.next.injEq]

/-! The step. -/

/-- What a step can do: the sequencer moves, or the next host event happens. -/
theorem step_cases (s : State) :
    (∃ q, eventNow s = none ∧ step s = sequencerStep (s.withInbox q) ∧ q.length = s.inbox.length ∧
      ((s.inbox.all fun e => e.event.isHost) = true → (q.all fun e => e.event.isHost) = true)) ∨
    (∃ e rest, eventNow s = some e ∧ s.inbox = { gap := 0, event := e } :: rest ∧
      step s = hostStep e (s.withInbox rest)) := by
  rcases h : s.inbox with _ | ⟨⟨gap, e⟩, rest⟩
  · have hs : s.withInbox [] = s := by rw [← h]; rfl
    exact .inl ⟨[], by simp [eventNow, h], by simp [step, h, hs], rfl, fun _ => rfl⟩
  · cases gap with
    | zero => exact .inr ⟨e, rest, by simp [eventNow, h], rfl, by simp [step, h]⟩
    | succ n =>
      exact .inl ⟨{ gap := n, event := e } :: rest, by simp [eventNow, h], by simp [step, h], rfl, fun ha => by simpa using ha⟩

end Sys2Proof.Machine
end

