-- ==== Sys2Proof/Laws/Float32.lean ====
section
/-! SUPPORT. The binary32 operations: patterns and their parts, the rounding and its order, and what each operation gives on finite
values. -/

namespace Sys2Proof.Machine

/-! Patterns. -/

theorem f32MagBits_eq (w : Word) : f32MagBits w = w.toNat % 2 ^ 31 := by
  simp [f32MagBits]

theorem f32MagBits_lt (w : Word) : f32MagBits w < 2 ^ 31 := by
  rw [f32MagBits_eq]; exact Nat.mod_lt _ (by decide)

theorem f32Sign_eq (w : Word) : f32Sign w = decide (2 ^ 31 ≤ w.toNat) := by
  have h := w.isLt
  unfold f32Sign
  rw [BitVec.getLsbD, Nat.testBit_eq_decide_div_mod_eq]
  rw [decide_eq_decide]; omega

theorem f32Pack_toNat (neg : Bool) (mag : Nat) (h : mag < 2 ^ 31) :
    (f32Pack neg mag).toNat = mag + if neg then 2 ^ 31 else 0 := by
  unfold f32Pack
  rw [BitVec.toNat_ofNat, Nat.mod_eq_of_lt]
  split <;> omega

@[simp] theorem f32MagBits_pack (neg : Bool) (mag : Nat) (h : mag < 2 ^ 31) : f32MagBits (f32Pack neg mag) = mag := by
  rw [f32MagBits_eq, f32Pack_toNat neg mag h]
  split <;> omega

@[simp] theorem f32Sign_pack (neg : Bool) (mag : Nat) (h : mag < 2 ^ 31) : f32Sign (f32Pack neg mag) = neg := by
  rw [f32Sign_eq, f32Pack_toNat neg mag h]
  cases neg <;> simp
  omega

theorem f32Key_pack (neg : Bool) (mag : Nat) (h : mag < 2 ^ 31) :
    f32Key (f32Pack neg mag) = if neg then -(mag : Int) else mag := by
  simp only [f32Key, f32Sign_pack neg mag h, f32MagBits_pack neg mag h]

/-- The magnitude of every pattern is the value of its magnitude bits. -/
theorem f32Mag_eq (w : Word) : f32Mag w = f32Value (f32MagBits w) := by
  have h := f32MagBits_eq w
  have he : f32Exp w = f32MagBits w / 2 ^ 23 := by
    rw [h]; simp only [f32Exp, BitVec.extractLsb'_toNat, Nat.shiftRight_eq_div_pow]; omega
  have hf : f32Frac w = f32MagBits w % 2 ^ 23 := by
    rw [h]; simp [f32Frac]
  unfold f32Mag f32Value
  rw [he, hf]
  by_cases hlt : f32MagBits w < 2 ^ 23
  · rw [if_pos (by omega), if_pos hlt, Nat.mod_eq_of_lt hlt]
  · rw [if_neg (by omega), if_neg hlt]

/-- Consecutive patterns have rising values. -/
theorem f32Value_succ (p : Nat) : f32Value p < f32Value (p + 1) := by
  unfold f32Value
  have hpow := Nat.one_le_two_pow (n := p / 2 ^ 23 - 1)
  by_cases h1 : p + 1 < 2 ^ 23
  · rw [if_pos (by omega), if_pos h1]; omega
  · rw [if_neg h1]
    by_cases h2 : p < 2 ^ 23
    · have : p = 2 ^ 23 - 1 := by omega
      subst this; decide
    · rw [if_neg h2]
      by_cases h3 : p % 2 ^ 23 = 2 ^ 23 - 1
      · have e1 : (p + 1) % 2 ^ 23 = 0 := by omega
        have e2 : (p + 1) / 2 ^ 23 - 1 = (p / 2 ^ 23 - 1) + 1 := by omega
        rw [e1, e2, h3, Nat.pow_succ _ (p / 2 ^ 23 - 1)]
        omega
      · have e1 : (p + 1) % 2 ^ 23 = p % 2 ^ 23 + 1 := by omega
        have e2 : (p + 1) / 2 ^ 23 = p / 2 ^ 23 := by omega
        rw [e1, e2]
        nlinarith

/-- Patterns are ordered as their values are. -/
theorem f32Value_lt_iff (p q : Nat) : f32Value p < f32Value q ↔ p < q :=
  (strictMono_nat_of_lt_succ f32Value_succ).lt_iff_lt

theorem f32Value_le_iff (p q : Nat) : f32Value p ≤ f32Value q ↔ p ≤ q :=
  (strictMono_nat_of_lt_succ f32Value_succ).le_iff_le

theorem f32Mag_le_iff (a b : Word) : f32Mag a ≤ f32Mag b ↔ f32MagBits a ≤ f32MagBits b := by
  rw [f32Mag_eq, f32Mag_eq, f32Value_le_iff]

theorem f32Mag_eq_zero_iff (a : Word) : f32Mag a = 0 ↔ f32MagBits a = 0 := by
  have h := f32Value_le_iff (f32MagBits a) 0
  rw [f32Mag_eq]
  have h0 : f32Value 0 = 0 := rfl
  omega

/-! Rounding. -/

/-- Rounding to an integer keeps the order. -/
theorem roundHalfEven_mono (n n' d : Nat) (hd : 0 < d) (h : n ≤ n') : roundHalfEven n d ≤ roundHalfEven n' d := by
  have e := Nat.div_add_mod n d
  have e' := Nat.div_add_mod n' d
  have m := Nat.mod_lt n hd
  have m' := Nat.mod_lt n' hd
  have hq : n / d ≤ n' / d := Nat.div_le_div_right h
  have upper : roundHalfEven n d ≤ n / d + 1 := by unfold roundHalfEven; split <;> [omega; (split <;> omega)]
  have lower : n' / d ≤ roundHalfEven n' d := by unfold roundHalfEven; split <;> [omega; (split <;> omega)]
  rcases Nat.lt_or_eq_of_le hq with hlt | heq
  · omega
  · unfold roundHalfEven
    rw [heq] at e ⊢
    have : n % d ≤ n' % d := by omega
    split <;> split <;> (try split) <;> (try split) <;> omega

/-- A rounded value lies between the integers next to it. -/
theorem roundHalfEven_bounds (n d : Nat) : n / d ≤ roundHalfEven n d ∧ roundHalfEven n d ≤ n / d + 1 := by
  unfold roundHalfEven
  split
  · omega
  · split <;> omega

theorem f32RoundMag_le (n d : Nat) : f32RoundMag n d ≤ f32InfBits := by
  unfold f32RoundMag; simp only; omega

theorem f32RoundMag_lt (n d : Nat) : f32RoundMag n d < 2 ^ 31 :=
  Nat.lt_of_le_of_lt (f32RoundMag_le n d) (by decide)

theorem f32RoundMag_zero (d : Nat) : f32RoundMag 0 d = 0 := by
  simp [f32RoundMag, roundHalfEven]

/-- Rounding to binary32 keeps the order. -/
theorem f32RoundMag_mono (n n' d : Nat) (hd : 0 < d) (h : n ≤ n') : f32RoundMag n d ≤ f32RoundMag n' d := by
  have hq : n / d ≤ n' / d := Nat.div_le_div_right h
  have hk : Nat.log2 (n / d) ≤ Nat.log2 (n' / d) := by
    rw [Nat.log2_eq_log_two, Nat.log2_eq_log_two]; exact Nat.log_mono_right hq
  unfold f32RoundMag
  simp only
  rcases Nat.lt_or_ge (Nat.log2 (n / d) - 23) (Nat.log2 (n' / d) - 23) with hlt | hge
  · have hlow : 2 ^ 23 ≤ roundHalfEven n' (d * 2 ^ (Nat.log2 (n' / d) - 23)) := by
      refine Nat.le_trans ?_ (roundHalfEven_bounds _ _).1
      have hn : n' / d ≠ 0 := by intro h0; rw [h0] at hlt; simp at hlt
      have h1 := Nat.log2_self_le hn
      rw [← Nat.div_div_eq_div_mul, Nat.le_div_iff_mul_le (Nat.two_pow_pos _), ← Nat.pow_add]
      have : 23 + (Nat.log2 (n' / d) - 23) = Nat.log2 (n' / d) := by omega
      rw [this]; exact h1
    have hup : roundHalfEven n (d * 2 ^ (Nat.log2 (n / d) - 23)) ≤ 2 ^ 24 := by
      refine Nat.le_trans (roundHalfEven_bounds _ _).2 ?_
      have h1 := Nat.lt_log2_self (n := n / d)
      have : n / d / 2 ^ (Nat.log2 (n / d) - 23) < 2 ^ 24 := by
        rw [Nat.div_lt_iff_lt_mul (Nat.two_pow_pos _), ← Nat.pow_add]
        exact Nat.lt_of_lt_of_le h1 (Nat.pow_le_pow_right (by decide) (by omega))
      rw [Nat.div_div_eq_div_mul] at this
      omega
    exact min_le_min_right _ (by omega)
  · have heq : Nat.log2 (n / d) - 23 = Nat.log2 (n' / d) - 23 := by omega
    rw [heq]
    have := roundHalfEven_mono n n' (d * 2 ^ (Nat.log2 (n' / d) - 23)) (Nat.mul_pos hd (Nat.two_pow_pos _)) h
    exact min_le_min_right _ (by omega)

/-! Operations on finite values. -/

theorem f32Finite_iff (w : Word) : f32Finite w = true ↔ f32MagBits w < f32InfBits := by
  simp [f32Finite]

/-- A sample in the kernel's domain is finite (41_threshold_kernel.md R180). -/
theorem f32Finite_of_inDomain (w : Word) (h : f32OutOfDomain w = false) : f32Finite w = true := by
  rw [f32Finite_iff]
  simp only [f32OutOfDomain, decide_eq_false_iff_not, Nat.not_lt] at h
  simp only [f32InfBits]; omega

theorem f32IsNaN_pack (neg : Bool) (mag : Nat) (h : mag ≤ f32InfBits) : f32IsNaN (f32Pack neg mag) = false := by
  rw [f32IsNaN, f32MagBits_pack _ _ (Nat.lt_of_le_of_lt h (by decide))]
  simpa using h

theorem f32Finite_not_special (w : Word) (h : f32Finite w = true) : f32IsNaN w = false ∧ f32IsInf w = false := by
  rw [f32Finite_iff] at h
  constructor
  · simp only [f32IsNaN, decide_eq_false_iff_not]; omega
  · simp only [f32IsInf, beq_eq_false_iff_ne]; omega

/-- fsub of finite values: a zero for equal values, else the rounded difference with its sign (00_scope.md R12). -/
theorem fsub_finite (a b : Word) (ha : f32Finite a = true) (hb : f32Finite b = true) :
    fsub a b = if f32Units a - f32Units b = 0 then f32Pack (f32Sign a && !f32Sign b) 0
      else f32Pack (decide (f32Units a - f32Units b < 0)) (f32RoundMag (f32Units a - f32Units b).natAbs 1) := by
  have h1 := f32Finite_not_special a ha
  have h2 := f32Finite_not_special b hb
  simp only [fsub, h1.1, h1.2, h2.1, h2.2, Bool.or_self, Bool.false_eq_true, if_false]

/-- The magnitude pattern of fsub of finite values. -/
theorem f32MagBits_fsub (a b : Word) (ha : f32Finite a = true) (hb : f32Finite b = true) :
    f32MagBits (fsub a b) = f32RoundMag (f32Units a - f32Units b).natAbs 1 := by
  rw [fsub_finite a b ha hb]
  split
  · rename_i h
    rw [f32MagBits_pack _ _ (by decide), h]; exact (f32RoundMag_zero 1).symm
  · exact f32MagBits_pack _ _ (f32RoundMag_lt _ _)

/-- fmul of finite values: the rounded product with its sign (00_scope.md R12). -/
theorem fmul_finite (a b : Word) (ha : f32Finite a = true) (hb : f32Finite b = true) :
    fmul a b = f32Pack (f32Sign a != f32Sign b) (f32RoundMag (f32Mag a * f32Mag b) (2 ^ 149)) := by
  have h1 := f32Finite_not_special a ha
  have h2 := f32Finite_not_special b hb
  simp only [fmul, h1.1, h1.2, h2.1, h2.2, Bool.or_self, Bool.false_eq_true, if_false]

/-- fdiv of finite values by a value that is not zero: the rounded quotient with its sign (00_scope.md R12). -/
theorem fdiv_finite (a b : Word) (ha : f32Finite a = true) (hb : f32Finite b = true) (h0 : f32MagBits b ≠ 0) :
    fdiv a b = f32Pack (f32Sign a != f32Sign b) (f32RoundMag (f32Mag a * 2 ^ 149) (f32Mag b)) := by
  have h1 := f32Finite_not_special a ha
  have h2 := f32Finite_not_special b hb
  simp only [fdiv, h1.1, h1.2, h2.1, h2.2, Bool.false_eq_true, if_false, h0, Bool.or_self]

/-! The product of a pixel (41_threshold_kernel.md R178). -/

theorem f32Units_natAbs (a : Word) : (f32Units a).natAbs = f32Mag a := by
  unfold f32Units; split <;> omega

/-- The difference of two samples in the domain is finite (40_numeric_domain.md R163). -/
theorem fsub_inDomain_finite (a b : Word) (ha : f32OutOfDomain a = false) (hb : f32OutOfDomain b = false) :
    f32Finite (fsub a b) = true := by
  have bound : ∀ w, f32OutOfDomain w = false → f32Mag w ≤ f32Value 0x7E800000 := by
    intro w hw
    simp only [f32OutOfDomain, decide_eq_false_iff_not, Nat.not_lt] at hw
    rw [f32Mag_eq]
    exact (f32Value_le_iff _ _).mpr hw
  have h1 := bound a ha
  have h2 := bound b hb
  rw [← f32Units_natAbs] at h1 h2
  rw [f32Finite_iff, f32MagBits_fsub a b (f32Finite_of_inDomain a ha) (f32Finite_of_inDomain b hb)]
  refine Nat.lt_of_le_of_lt (f32RoundMag_mono _ (2 * f32Value 0x7E800000) 1 Nat.one_pos ?_) (by decide +kernel)
  omega

/-- fmul by 255.0 of a value that is no NaN, infinities among them. -/
theorem fmul_twoFiftyFive (a : Word) (ha : f32MagBits a ≤ f32InfBits) :
    fmul a f32TwoFiftyFive = f32Pack (f32Sign a) (f32RoundMag (f32Mag a * f32Mag f32TwoFiftyFive) (2 ^ 149)) := by
  have hs : f32Sign f32TwoFiftyFive = false := by decide
  rcases Nat.lt_or_eq_of_le ha with h | h
  · rw [fmul_finite a _ ((f32Finite_iff a).mpr h) (by decide), hs, Bool.bne_false]
  · have hn : f32IsNaN a = false := by simp [f32IsNaN, h]
    have hi : f32IsInf a = true := by simp [f32IsInf, h]
    have h0 : f32MagBits a ≠ 0 := by rw [h]; decide
    have hr : f32RoundMag (f32Mag a * f32Mag f32TwoFiftyFive) (2 ^ 149) = f32InfBits := by
      rw [f32Mag_eq a, h]; decide +kernel
    rw [hr]
    have e1 : f32IsNaN f32TwoFiftyFive = false := by decide
    have e2 : ¬(f32MagBits f32TwoFiftyFive = 0) := by decide
    simp only [fmul, hn, hi, e1, h0, e2, hs, Bool.or_self, Bool.true_or, Bool.false_eq_true, if_true, if_false,
      or_self, Bool.bne_false]

/-- The scaled product of a pixel in the domain: its sign is that of the product of the differences, and its magnitude rises with
theirs. -/
theorem floatProduct_eq (u m l : Word) (hu : f32OutOfDomain u = false) (hm : f32OutOfDomain m = false)
    (hl : f32OutOfDomain l = false) :
    fmul (fmul (fsub u m) (fsub l m)) f32TwoFiftyFive =
      f32Pack (f32Sign (fsub u m) != f32Sign (fsub l m))
        (f32RoundMag (f32Mag (fmul (fsub u m) (fsub l m)) * f32Mag f32TwoFiftyFive) (2 ^ 149)) := by
  have h := fmul_finite _ _ (fsub_inDomain_finite u m hu hm) (fsub_inDomain_finite l m hl hm)
  have hb : f32MagBits (fmul (fsub u m) (fsub l m)) ≤ f32InfBits := by
    rw [h, f32MagBits_pack _ _ (f32RoundMag_lt _ _)]; exact f32RoundMag_le _ _
  have hs : f32Sign (fmul (fsub u m) (fsub l m)) = (f32Sign (fsub u m) != f32Sign (fsub l m)) := by
    rw [h, f32Sign_pack _ _ (f32RoundMag_lt _ _)]
  rw [fmul_twoFiftyFive _ hb, hs]

/-- The product of a pixel in the domain is no NaN, and it is ordered as the exact product of the differences lies to 0
(41_threshold_kernel.md R173). -/
theorem floatProduct_key (u m l : Word) (hu : f32OutOfDomain u = false) (hm : f32OutOfDomain m = false)
    (hl : f32OutOfDomain l = false) (P : Word) (hP : P = fmul (fmul (fsub u m) (fsub l m)) f32TwoFiftyFive) :
    f32MagBits P ≤ f32InfBits ∧
      (0 ≤ (f32Units u - f32Units m) * (f32Units l - f32Units m) → f32Key P = f32MagBits P) ∧
      ((f32Units u - f32Units m) * (f32Units l - f32Units m) ≤ 0 → f32Key P = -(f32MagBits P : Int)) := by
  have fu := f32Finite_of_inDomain u hu
  have fm := f32Finite_of_inDomain m hm
  have fl := f32Finite_of_inDomain l hl
  rw [hP, floatProduct_eq u m l hu hm hl, f32MagBits_pack _ _ (f32RoundMag_lt _ _), f32Key_pack _ _ (f32RoundMag_lt _ _)]
  refine ⟨f32RoundMag_le _ _, ?_⟩
  have diff : ∀ a b : Word, f32Finite a = true → f32Finite b = true →
      (f32Units a - f32Units b = 0 ∧ f32Mag (fsub a b) = 0) ∨
        (f32Units a - f32Units b < 0 ∧ f32Sign (fsub a b) = true) ∨ (0 < f32Units a - f32Units b ∧ f32Sign (fsub a b) = false) := by
    intro a b ha hb
    rw [f32Mag_eq_zero_iff, f32MagBits_fsub a b ha hb, fsub_finite a b ha hb]
    rcases Int.lt_trichotomy (f32Units a - f32Units b) 0 with h | h | h
    · refine .inr (.inl ⟨h, ?_⟩)
      rw [if_neg (by omega), f32Sign_pack _ _ (f32RoundMag_lt _ _), decide_eq_true h]
    · exact .inl ⟨h, by rw [h]; exact f32RoundMag_zero 1⟩
    · refine .inr (.inr ⟨h, ?_⟩)
      rw [if_neg (by omega), f32Sign_pack _ _ (f32RoundMag_lt _ _), decide_eq_false (by omega)]
  have zero : f32Mag (fsub u m) * f32Mag (fsub l m) = 0 →
      f32RoundMag (f32Mag (fmul (fsub u m) (fsub l m)) * f32Mag f32TwoFiftyFive) (2 ^ 149) = 0 := by
    intro hz
    have h0 : f32Mag (fmul (fsub u m) (fsub l m)) = 0 := by
      rw [f32Mag_eq_zero_iff, fmul_finite _ _ (fsub_inDomain_finite u m hu hm) (fsub_inDomain_finite l m hl hm),
        f32MagBits_pack _ _ (f32RoundMag_lt _ _), hz]
      exact f32RoundMag_zero _
    rw [h0, Nat.zero_mul]; exact f32RoundMag_zero _
  rcases diff u m fu fm with ⟨-, h1⟩ | ⟨h1, s1⟩ | ⟨h1, s1⟩
  · rw [zero (by rw [h1, Nat.zero_mul])]; simp
  · rcases diff l m fl fm with ⟨-, h2⟩ | ⟨h2, s2⟩ | ⟨h2, s2⟩
    · rw [zero (by rw [h2, Nat.mul_zero])]; simp
    · have := Int.mul_pos_of_neg_of_neg h1 h2
      simp [s1, s2]; omega
    · have := Int.mul_neg_of_neg_of_pos h1 h2
      simp [s1, s2]; omega
  · rcases diff l m fl fm with ⟨-, h2⟩ | ⟨h2, s2⟩ | ⟨h2, s2⟩
    · rw [zero (by rw [h2, Nat.mul_zero])]; simp
    · have := Int.mul_neg_of_pos_of_neg h1 h2
      simp [s1, s2]; omega
    · have := Int.mul_pos h1 h2
      simp [s1, s2]; omega

/-- fclamp01 in value (40_numeric_domain.md R161). -/
theorem f32Key_fclamp01 (w : Word) (h : f32IsNaN w = false) :
    f32Key (fclamp01 w) = max 0 (min (f32Key w) (f32Key f32One)) := by
  have h0 : f32IsNaN (0 : Word) = false := by decide
  have h1 : f32IsNaN f32One = false := by decide
  have k0 : f32Key (0 : Word) = 0 := by decide
  have k1 : f32Key f32One = 0x3F800000 := by decide
  simp only [fclamp01, fgt, flt, h, h0, h1, k0, k1, Bool.not_false, Bool.true_and, decide_eq_true_eq]
  split
  · rw [k0]; omega
  · split
    · rw [k1]; omega
    · omega

/-- fdiv by 255.0 of a value that is no NaN: an infinity stays one (40_numeric_domain.md R163). -/
theorem fdiv_twoFiftyFive (a : Word) (ha : f32MagBits a ≤ f32InfBits) :
    fdiv a f32TwoFiftyFive = f32Pack (f32Sign a)
      (if f32MagBits a = f32InfBits then f32InfBits else f32RoundMag (f32Mag a * 2 ^ 149) (f32Mag f32TwoFiftyFive)) := by
  have hs : f32Sign f32TwoFiftyFive = false := by decide
  by_cases h : f32MagBits a = f32InfBits
  · have hn : f32IsNaN a = false := by simp [f32IsNaN, h]
    have hi : f32IsInf a = true := by simp [f32IsInf, h]
    have e1 : f32IsNaN f32TwoFiftyFive = false := by decide
    have e2 : f32IsInf f32TwoFiftyFive = false := by decide
    rw [if_pos h]
    simp only [fdiv, hn, hi, e1, e2, hs, Bool.or_self, Bool.false_eq_true, if_true, if_false, Bool.bne_false]
  · rw [if_neg h, fdiv_finite a _ ((f32Finite_iff a).mpr (by omega)) (by decide) (by decide), hs, Bool.bne_false]

end Sys2Proof.Machine
end

