-- ==== Sys2Proof/Laws/PerInstr.lean ====
section
/-! SUPPORT. Statements made of every operation, one lemma per constructor. -/

namespace Sys2Proof.Laws.RequestSource

/-- The operations a host can invoke (43_dispatch.md R252): the two commands, reset and the register accesses. -/
def hostInvokes : Instr → Bool
  | .configure | .frame | .reset | .wr _ _ | .rd _ => true
  | .untouched _ | .copy _ | .process _ | .alphaCopy | .capAuto | .capScalar | .capTier1 | .capTier2 | .capTier3 | .pixU8
  | .pixU16b10 | .pixU16b12 | .pixU16b14 | .pixU16b16 | .pixF32
  | .rowScalar _ _ | .rowT1 _ _ | .rowT2 _ _ | .rowT3 _ _ | .validate | .resolve | .derive | .kernel _ | .zrow _ _ | .vpix => false

/-- An operation's encoding is a request of the host exactly when the host can invoke the operation (43_dispatch.md R252): no
register access encodes an internal operation. -/
def Statement (i : Instr) : Prop := (encode i).isHost = hostInvokes i

theorem configure : Statement .configure := rfl
theorem frame : Statement .frame := rfl
theorem reset : Statement .reset := rfl
theorem wr (offset data : Slot) : Statement (.wr offset data) := rfl
theorem rd (offset : Slot) : Statement (.rd offset) := rfl
theorem untouched (p : PlaneId) : Statement (.untouched p) := rfl
theorem copy (p : PlaneId) : Statement (.copy p) := rfl
theorem process (p : PlaneId) : Statement (.process p) := rfl
theorem alphaCopy : Statement .alphaCopy := rfl
theorem capAuto : Statement .capAuto := rfl
theorem capScalar : Statement .capScalar := rfl
theorem capTier1 : Statement .capTier1 := rfl
theorem capTier2 : Statement .capTier2 := rfl
theorem capTier3 : Statement .capTier3 := rfl
theorem pixU8 : Statement .pixU8 := rfl
theorem pixU16b10 : Statement .pixU16b10 := rfl
theorem pixU16b12 : Statement .pixU16b12 := rfl
theorem pixU16b14 : Statement .pixU16b14 := rfl
theorem pixU16b16 : Statement .pixU16b16 := rfl
theorem pixF32 : Statement .pixF32 := rfl
theorem rowScalar (p : PlaneId) (y : Word) : Statement (.rowScalar p y) := rfl
theorem rowT1 (p : PlaneId) (y : Word) : Statement (.rowT1 p y) := rfl
theorem rowT2 (p : PlaneId) (y : Word) : Statement (.rowT2 p y) := rfl
theorem rowT3 (p : PlaneId) (y : Word) : Statement (.rowT3 p y) := rfl
theorem validate : Statement .validate := rfl
theorem resolve : Statement .resolve := rfl
theorem derive : Statement .derive := rfl
theorem kernel (p : PlaneId) : Statement (.kernel p) := rfl
theorem zrow (p : PlaneId) (y : Word) : Statement (.zrow p y) := rfl
theorem vpix : Statement .vpix := rfl

end Sys2Proof.Laws.RequestSource
end

