-- ==== Sys2Proof/Laws/Sequencer.lean ====
section
/-! SUPPORT. What one step of the sequencer writes, in every state whose descriptor lies in plane memory, and what it masks or
copies when the descriptor is valid. -/

namespace Sys2Proof.Machine

/-! Writes of one row. -/

/-- t differs from s in the datapath only, and in memory only in destination row y of plane p. -/
structure RowWritten (d : Domain) (p : PlaneId) (y : Nat) (s t : State) : Prop where
  frame : OnlyDatapath s t
  outside : SameOutsideRange (dstAddr d (s.desc p) y 0) ((s.desc p).width.toNat * elemSize d) s.mem t.mem
  canonical : Memory.wf s.mem = true → Memory.wf t.mem = true

theorem RowWritten.refl (d : Domain) (p : PlaneId) (y : Nat) (s : State) : RowWritten d p y s s :=
  ⟨OnlyDatapath.refl s, fun _ _ => rfl, id⟩

theorem RowWritten.trans {d : Domain} {p : PlaneId} {y : Nat} {s t u : State} (h1 : RowWritten d p y s t)
    (h2 : RowWritten d p y t u) : RowWritten d p y s u := by
  refine ⟨h1.frame.trans h2.frame, fun a ha => ?_, fun hw => h2.canonical (h1.canonical hw)⟩
  have h3 := h2.outside a
  rw [h1.frame.desc] at h3
  rw [h3 ha, h1.outside a ha]

/-- Row y of the destination of plane p lies in plane memory. -/
structure RowInMemory (d : Domain) (ds : Desc) (y : Nat) : Prop where
  inRange : descInRange d ds = true
  width : ds.width.toNat ≠ 0
  row : y < ds.height.toNat

theorem RowInMemory.bound {d : Domain} {ds : Desc} {y : Nat} (h : RowInMemory d ds y) :
    dstAddr d ds y 0 + ds.width.toNat * elemSize d ≤ Config.planeMemoryEnd :=
  dstRow_in_memory d ds h.inRange h.width y h.row

theorem RowInMemory.cursor {d : Domain} {ds : Desc} {y : Nat} (h : RowInMemory d ds y) :
    (BitVec.ofNat 64 (dstAddr d ds y 0)).toNat = dstAddr d ds y 0 :=
  ofNat_toNat_of_le _ _ (Nat.mul_pos (Nat.pos_of_ne_zero h.width) (elemSize_pos d)) h.bound

theorem maskPixel_written (d : Domain) (p : PlaneId) (y x : Nat) (s : State) (h : RowInMemory d (s.desc p) y)
    (hx : x < (s.desc p).width.toNat) : RowWritten d p y s (maskPixel d p y x s) := by
  obtain ⟨v, hmem⟩ : ∃ v, (maskPixel d p y x s).mem =
      memWrite s.mem ((BitVec.ofNat 64 (dstAddr d (s.desc p) y 0)).toNat + x * elemSize d) (elemSize d) v := ⟨_, rfl⟩
  rw [h.cursor] at hmem
  have hb := h.bound
  have e : (x + 1) * elemSize d ≤ (s.desc p).width.toNat * elemSize d := Nat.mul_le_mul_right _ hx
  rw [Nat.succ_mul] at e
  refine ⟨rfl, fun a ha => ?_, fun hw => ?_⟩
  · rw [hmem, memByte_memWrite, if_neg (by omega)]
  · rw [hmem]; exact memWrite_wf _ _ _ _ (by omega) hw

theorem maskPixels_written (d : Domain) (p : PlaneId) (y x n : Nat) (s : State) (h : RowInMemory d (s.desc p) y)
    (hx : x + n ≤ (s.desc p).width.toNat) : RowWritten d p y s (maskPixels d p y x n s) := by
  induction n generalizing x s with
  | zero => exact RowWritten.refl d p y s
  | succ n ih =>
    have h1 := maskPixel_written d p y x s h (by omega)
    have hd := h1.frame.desc p
    exact h1.trans (ih (x + 1) (maskPixel d p y x s) (by rw [hd]; exact h) (by rw [hd]; omega))

theorem maskGroup_written (d : Domain) (p : PlaneId) (y x n : Nat) (s : State) (h : RowInMemory d (s.desc p) y)
    (hx : x + n ≤ (s.desc p).width.toNat) : RowWritten d p y s (maskGroup d p y x n s) := by
  obtain ⟨ws, hmem, hlen⟩ : ∃ ws : List Word, (maskGroup d p y x n s).mem =
      storeLanes (elemSize d) s.mem ((BitVec.ofNat 64 (dstAddr d (s.desc p) y 0)).toNat + x * elemSize d) ws ∧
      ws.length = n := by
    refine ⟨_, rfl, ?_⟩
    simp [vpixOp, fetchLanes, pixLanes_length]
  rw [h.cursor] at hmem
  have hb := h.bound
  have e : (x + n) * elemSize d ≤ (s.desc p).width.toNat * elemSize d := Nat.mul_le_mul_right _ hx
  rw [Nat.add_mul] at e
  refine ⟨rfl, fun a ha => ?_, fun hw => ?_⟩
  · rw [hmem, memByte_storeLanes_outside _ _ _ _ _ (by rw [hlen]; omega)]
  · rw [hmem]; exact storeLanes_wf _ _ _ _ (by rw [hlen]; omega) hw

theorem maskGroups_written (d : Domain) (p : PlaneId) (y n x k : Nat) (s : State) (h : RowInMemory d (s.desc p) y)
    (hx : x + k * n ≤ (s.desc p).width.toNat) : RowWritten d p y s (maskGroups d p y n x k s) := by
  induction k generalizing x s with
  | zero => exact RowWritten.refl d p y s
  | succ k ih =>
    rw [Nat.succ_mul] at hx
    have h1 := maskGroup_written d p y x n s h (by omega)
    have hd := h1.frame.desc p
    exact h1.trans (ih (x + n) (maskGroup d p y x n s) (by rw [hd]; exact h) (by rw [hd]; omega))

/-- A row operation writes its row only, whatever overlaps. -/
theorem rowOp_written (t : Tier) (d : Domain) (p : PlaneId) (y : Nat) (s : State) (h : RowInMemory d (s.desc p) y) :
    RowWritten d p y s (rowOp t d p y s) := by
  have vector : ∀ n, RowWritten d p y s
      (maskPixels d p y ((s.desc p).width.toNat / n * n) ((s.desc p).width.toNat % n)
        (maskGroups d p y n 0 ((s.desc p).width.toNat / n) s)) := by
    intro n
    have hdiv : (s.desc p).width.toNat / n * n + (s.desc p).width.toNat % n = (s.desc p).width.toNat := by
      rw [Nat.mul_comm]; exact Nat.div_add_mod _ _
    have h1 := maskGroups_written d p y n 0 ((s.desc p).width.toNat / n) s h (by omega)
    have hd := h1.frame.desc p
    exact h1.trans (maskPixels_written d p y _ _ _ (by rw [hd]; exact h) (by rw [hd]; omega))
  cases t with
  | scalar => exact maskPixels_written d p y 0 _ s h (by omega)
  | tier1 => exact vector _
  | tier2 => exact vector _
  | tier3 => exact vector _

theorem memZero_written (d : Domain) (p : PlaneId) (y x n : Nat) (s : State) (h : RowInMemory d (s.desc p) y)
    (hx : x + n ≤ (s.desc p).width.toNat) :
    RowWritten d p y s (s.withMem (memZero s.mem (dstAddr d (s.desc p) y x) (n * elemSize d))) := by
  have hb := h.bound
  have e : (x + n) * elemSize d ≤ (s.desc p).width.toNat * elemSize d := Nat.mul_le_mul_right _ hx
  rw [Nat.add_mul] at e
  rw [dstAddr_col]
  refine ⟨rfl, fun a ha => ?_, fun hw => ?_⟩
  · rw [withMem_mem, memByte_memZero, if_neg (by omega)]
  · exact memZero_wf _ _ _ (by omega) hw

theorem zrowOp_written (d : Domain) (p : PlaneId) (y : Nat) (s : State) (h : RowInMemory d (s.desc p) y) :
    RowWritten d p y s (zrowOp d p y s) := memZero_written d p y 0 _ s h (by omega)

theorem copyRow_written (d : Domain) (p : PlaneId) (y : Nat) (s : State) (h : RowInMemory d (s.desc p) y) :
    RowWritten d p y s (copyRow d p y s) := by
  refine ⟨rfl, fun a ha => ?_, fun hw => ?_⟩
  · exact memByte_memCopy_outside _ _ _ _ _ ha
  · exact memCopy_wf _ _ _ _ h.bound hw

/-- A group of columns that the sequencer handles writes its row only. -/
theorem processGroup_written (d : Domain) (p : PlaneId) (y x n : Nat) (s : State) (h : RowInMemory d (s.desc p) y)
    (hx : x + n ≤ (s.desc p).width.toNat) : RowWritten d p y s (processGroup d p y x n s) := by
  unfold processGroup
  split
  · exact memZero_written d p y x n s h hx
  · split
    · exact maskPixels_written d p y x n s h hx
    · exact maskGroup_written d p y x n s h hx

/-- A group of columns of an interior row of a valid plane holds PIX of the source. -/
theorem processGroup_masks (d : Domain) (p : PlaneId) (y x n : Nat) (s : State) (h : InteriorRow d (s.desc p) y)
    (hx : x + n ≤ (s.desc p).width.toNat) : ColumnsMasked d p y x (x + n) s (processGroup d p y x n s) := by
  have h1 := h.low
  have h2 := h.high
  unfold processGroup
  rw [if_neg (by omega)]
  split
  · exact maskPixels_mask d p y x n s h hx
  · exact maskGroup_masks d p y x n s h hx

/-! The step of the sequencer. -/

/-- What a step of the sequencer can do at a position: it handles a group of columns of a Process row, a row of a Copy plane, or
nothing, and goes on. -/
theorem sequencerAt_cases (d : Domain) (q : Pos) (s : State) :
    (q.row < (s.desc q.plane).height.toNat ∧ q.col < (s.desc q.plane).width.toNat ∧ effMode s q.plane = 3 ∧
      sequencerAt d q s =
        goTo (processGroup d q.plane q.row q.col (groupWidth s.backend d (s.desc q.plane).width.toNat q.col) s)
          (afterColumns s q.plane q.row q.col (groupWidth s.backend d (s.desc q.plane).width.toNat q.col))) ∨
    (q.row < (s.desc q.plane).height.toNat ∧ effMode s q.plane = 2 ∧
      sequencerAt d q s = goTo (copyRow d q.plane q.row s) (afterRow s q.plane q.row)) ∨
    sequencerAt d q s = goTo s (firstPos s (planesAfter q.plane)) := by
  unfold sequencerAt
  simp only
  split
  · rename_i h; exact .inl ⟨h.1, h.2.1, h.2.2, rfl⟩
  · split
    · rename_i h; exact .inr (.inl ⟨h.1, h.2, rfl⟩)
    · exact .inr (.inr rfl)

/-- A step of the sequencer goes from a state t to a next position, where t is s with at most one destination row of its plane
written. -/
theorem sequencerAt_written (d : Domain) (q : Pos) (s : State) (h : descInRange d (s.desc q.plane) = true) :
    ∃ t next, sequencerAt d q s = goTo t next ∧
      (t = s ∨ (q.row < (s.desc q.plane).height.toNat ∧ (effMode s q.plane = 2 ∨ effMode s q.plane = 3) ∧
        RowWritten d q.plane q.row s t)) := by
  rcases sequencerAt_cases d q s with ⟨h1, h2, h3, he⟩ | ⟨h1, h2, he⟩ | he
  · refine ⟨_, _, he, .inr ⟨h1, .inr h3, ?_⟩⟩
    exact processGroup_written _ _ _ _ _ _ ⟨h, by omega, h1⟩ (groupWidth_le _ _ _ _ h2)
  · by_cases hw : (s.desc q.plane).width.toNat = 0
    · refine ⟨_, _, he, .inl ?_⟩
      simp only [copyRow, hw, Nat.zero_mul, memCopy]
      rfl
    · exact ⟨_, _, he, .inr ⟨h1, .inl h2, copyRow_written _ _ _ _ ⟨h, hw, h1⟩⟩⟩
  · exact ⟨_, _, he, .inl rfl⟩

end Sys2Proof.Machine
end

