-- ==== Sys2Proof/Tests/Slice0.lean ====
section
/-! SUPPORT. The model's own tests: ill-formed operations are refused, words written out from the spec's encodings decode to
their operations, single steps give the results of 95_test_vectors.md, and each statement's hypotheses are met together. -/

namespace Sys2Proof.Tests

open Sys2Proof Sys2Proof.Machine

/-! Well-formedness: one ill-formed term for each check (10_state.md R34; 30_encoding.md R102; 43_dispatch.md R247, R248). -/

theorem test_illFormed_wr_outside : WellFormed (.wr 0x180 0) = false := by decide
theorem test_illFormed_wr_unaligned : WellFormed (.wr 0x01C 0) = false := by decide
theorem test_illFormed_wr_command : WellFormed (.wr 0x000 1) = false ∧ WellFormed (.wr 0x000 0x102) = false := by decide
theorem test_illFormed_rd : WellFormed (.rd 0x180) = false ∧ WellFormed (.rd 0x004) = false := by decide
theorem test_illFormed_plane : WellFormed (.untouched .a) = false ∧ WellFormed (.copy .a) = false ∧
    WellFormed (.process .a) = false ∧ WellFormed (.kernel .a) = false := by decide
theorem test_illFormed_row : WellFormed (.rowScalar .a 1) = false ∧ WellFormed (.rowT1 .a 1) = false ∧
    WellFormed (.rowT2 .a 1) = false ∧ WellFormed (.rowT3 .a 1) = false ∧ WellFormed (.zrow .a 0) = false := by decide
theorem test_wellFormed_boundary : WellFormed (.wr 0x178 0xFFFFFFFFFFFFFFFF) = true ∧ WellFormed (.wr 0x000 3) = true ∧
    WellFormed (.rd 0x000) = true ∧ WellFormed (.rowT3 .v 0xFFFFFFFF) = true := by decide

/-! Decoding: words written out bit by bit (30_encoding.md R101 to R110). -/

theorem test_decode_commands :
    decode (.write 0b000000000 0b00000001) = .ok .configure ∧ decode (.write 0b000000000 0b00000010) = .ok .frame ∧
    decode .rst = .ok .reset := by decide

theorem test_decode_accesses :
    decode (.write 0b001000000 0xFFFFFFFF) = .ok (.wr 0x040 0x00000000FFFFFFFF) ∧
    decode (.write 0x000 0b00000011) = .ok (.wr 0x000 3) ∧ decode (.read 0b000001000) = .ok (.rd 0x008) := by decide

theorem test_decode_access_refused :
    decode (.read 0x180) = .error .outsideRegisterSpace ∧ decode (.write 0x00C 1) = .error .outsideRegisterSpace ∧
    decode (.narrow 0x008 4) = .error .partialSlotAccess := by decide

/-- Mode values 1, 2, 3 in MODE_Y, MODE_U and MODE_V (R105). -/
theorem test_decode_modes :
    decode (.select 0x028 0b01 .y 0) = .ok (.untouched .y) ∧ decode (.select 0x030 0b10 .u 0) = .ok (.copy .u) ∧
    decode (.select 0x038 0b11 .v 0) = .ok (.process .v) ∧
    decode (.select 0x028 0 .y 0) = .error .noOperationSelected ∧
    decode (.select 0x028 0x80000001 .y 0) = .error .noOperationSelected := by decide

/-- CAP_REQ values -1 to 3 (R106). -/
theorem test_decode_requests :
    decode (.select 0x040 0xFFFFFFFF .y 0) = .ok .capAuto ∧ decode (.select 0x040 0b00 .y 0) = .ok .capScalar ∧
    decode (.select 0x040 0b01 .y 0) = .ok .capTier1 ∧ decode (.select 0x040 0b10 .y 0) = .ok .capTier2 ∧
    decode (.select 0x040 0b11 .y 0) = .ok .capTier3 ∧
    decode (.select 0x040 4 .y 0) = .error .noOperationSelected := by decide

/-- FMT words: FLOAT bit 8, BITS bits 7..0 (R108, R110 (e)); LAYOUT, HAS_ALPHA and HAS_CHROMA do not select. -/
theorem test_decode_pixels :
    decode (.select 0x048 0b0000000001000 .y 0) = .ok .pixU8 ∧
    decode (.select 0x048 0b1100000001010 .y 0) = .ok .pixU16b10 ∧
    decode (.select 0x048 0b0000000001100 .y 0) = .ok .pixU16b12 ∧
    decode (.select 0x048 0b0000000001110 .y 0) = .ok .pixU16b14 ∧
    decode (.select 0x048 0b0100000010000 .y 0) = .ok .pixU16b16 ∧
    decode (.select 0x048 0b0000100100000 .y 0) = .ok .pixF32 ∧
    decode (.select 0x048 0b0001000001000 .y 0) = .ok .pixU8 ∧ decode (.select 0x048 0b0011100100000 .y 0) = .ok .pixF32 ∧
    decode (.select 0x048 0b0000100001000 .y 0) = .error .noOperationSelected := by decide

/-- STATUS.BACKEND in bits 3..2 (R103, R110 (f)). -/
theorem test_decode_rows :
    decode (.select 0x008 0b0010 .y 1) = .ok (.rowScalar .y 1) ∧ decode (.select 0x008 0b0110 .u 2) = .ok (.rowT1 .u 2) ∧
    decode (.select 0x008 0b1010 .v 3) = .ok (.rowT2 .v 3) ∧ decode (.select 0x008 0b1110 .y 4) = .ok (.rowT3 .y 4) ∧
    decode (.select 0x008 0b0010 .a 1) = .error .notAColourPlane := by decide

/-- Operations without a bit pattern (R110 (c), (g)), requested by name (entry 6). -/
theorem test_decode_fixed :
    decode (.fixed .alphaCopy .a 0) = .ok .alphaCopy ∧ decode (.fixed .validate .y 0) = .ok .validate ∧
    decode (.fixed .resolve .y 0) = .ok .resolve ∧ decode (.fixed .derive .y 0) = .ok .derive ∧
    decode (.fixed .kernel .u 0) = .ok (.kernel .u) ∧ decode (.fixed .zrow .v 5) = .ok (.zrow .v 5) ∧
    decode (.fixed .vpix .y 0) = .ok .vpix ∧ decode (.fixed .kernel .a 0) = .error .notAColourPlane := by decide

/-- Words of the opcode table (entry 5). -/
theorem test_decode_tableWords :
    decodeTableWord 8 0x01 = some .configure ∧ decodeTableWord 8 0x0C = some (.rowT3 .y 0) ∧
    decodeTableWord 16 0x120 = some .pixF32 ∧ decodeTableWord 32 3 = some (.process .y) ∧
    decodeTableWord 32 0xFFFFFFFF = some .capAuto := by decide

/-! Small states. -/

/-- A field of the next state. -/
def after {α : Type} (o : Host.Outcome State Fault Refusal) (f : State → α) : Option α :=
  match o with
  | .next t => some (f t)
  | _ => none

/-- Whether an outcome is a refusal of this name. -/
def refusedAs (o : Host.Outcome State Fault Refusal) (r : Refusal) : Bool :=
  match o with
  | .refused q => q == r
  | _ => false

/-- Store bytes from an address on. -/
def load (m : List Host.Cell) (a : Nat) (bs : List Byte) : List Host.Cell :=
  match bs with
  | [] => m
  | b :: rest => load (memSet m a b) (a + 1) rest

/-- Bytes from an address on. -/
def dump (m : List Host.Cell) (a n : Nat) : List Byte := (List.range n).map fun i => memByte m (a + i)

/-- A descriptor. -/
def plane (src dst spitch dpitch : Slot) (w h : Word) : Desc :=
  { srcBase := src, dstBase := dst, srcPitch := spitch, dstPitch := dpitch, width := w, height := h }

/-- Options written after reset, before CONFIGURE. -/
def options (hw : Tier) (low high my mu mv cap fmt : Word) : State :=
  { State.reset with
    hwcap := hw, thrLow := low, thrHigh := high, modeY := my, modeU := mu, modeV := mv, capReq := cap, fmt := fmt }

/-- YUVA in U8, thresholds 30 and 40, Y processed, U copied, V untouched, auto on Tier2. -/
def unconfigured : State := options .tier2 30 40 3 2 1 0xFFFFFFFF 0x1808

/-- The same after CONFIGURE, with descriptors: Y 4 x 3, U 2 x 2, V not valid (it is untouched), A 2 x 1. -/
def ready : State :=
  { unconfigured with
    run := .ready, backend := .tier2, peak := 255, scale := 1, lowS := 30, highS := 40
    descY := plane 0x1000 0x2000 8 4 4 3
    descU := plane 0x1100 0x2100 2 4 2 2
    descV := plane 0x1000 0x1000 0 0 9 9
    descA := plane 0x1200 0x2200 2 2 2 1
    mem := load (load [] 0x1000 [50, 60, 90, 61, 0, 0, 0, 0, 60, 60, 60, 60, 0, 0, 0, 0, 55, 60, 61, 54])
      0x1100 [1, 2, 3, 4] }

/-- The same, BUSY at a position. -/
def busyAt (p : PlaneId) (y x : Nat) : State := { ready with run := .busy, pos := some { plane := p, row := y, col := x } }

/-- A refused configuration: LAYOUT 1. -/
def failed : State := { unconfigured with fmt := 0x0208, run := .error, errCode := 1 }

/-- An instance with one plane of U8, Tier1, width 20: one lane group and a remainder of 4. -/
def wide : State :=
  { options .tier1 30 40 3 1 1 1 0x0008 with
    run := .busy, backend := .tier1, peak := 255, scale := 1, lowS := 30, highS := 40
    descY := plane 0x1000 0x2000 20 20 20 3, pos := some { plane := .y, row := 1, col := 0 } }

/-- Sample latches and bounds for a pixel operation. -/
def latched (low high u m l : Word) : State :=
  { State.reset with lowS := low, highS := high, smpU := u, smpM := m, smpL := l }

/-! Single steps, with the expected results of 95_test_vectors.md. -/

/-- Section 2, lines 4 and 6. -/
theorem test_configure_ready : after (exec .configure (options .tier2 30 30 3 2 2 2 0x0808)) statusWord = some 0x09 ∧
    after (exec .configure (options .tier2 30 30 3 2 2 3 0x0808)) statusWord = some 0x73 := by decide

/-- Section 2, line 29: every check fails, the lowest code is reported. -/
theorem test_configure_lowest : after (exec .configure (options .scalar 40 30 0 2 2 9 0x0209)) statusWord = some 0x13 := by
  decide

/-- Section 2, lines 17 and 25. -/
theorem test_validate : after (exec .validate (options .scalar 300 10 3 2 2 0xFFFFFFFF 0x0808)) (·.result) = some 3 ∧
    after (exec .validate (options .scalar 30 30 3 2 2 0xFFFFFFFF 0x0000)) (·.result) = some 5 := by decide

/-- 43_dispatch.md R235's examples. -/
theorem test_resolve : after (exec .resolve (options .tier3 0 0 1 1 1 1 8)) (·.result) = some 1 ∧
    after (exec .resolve (options .tier1 0 0 1 1 1 3 8)) (·.errCode) = some 7 := by decide

theorem test_capAuto : after (exec .capAuto (options .tier3 0 0 0 0 0 0 0)) (·.result) = some 3 := by decide
theorem test_capScalar : after (exec .capScalar (options .tier3 0 0 0 0 0 0 0)) (·.result) = some 0 := by decide
theorem test_capTier1 : after (exec .capTier1 (options .scalar 0 0 0 0 0 0 0)) (·.errCode) = some 7 := by decide
theorem test_capTier2 : after (exec .capTier2 (options .tier2 0 0 0 0 0 0 0)) (·.result) = some 2 := by decide
theorem test_capTier3 : after (exec .capTier3 (options .tier2 0 0 0 0 0 0 0)) statusWord = some 0x73 := by decide

/-- Section 2, DERIVE. -/
theorem test_derive_integer :
    after (exec .derive (options .scalar 10 20 3 2 2 0xFFFFFFFF 0x0810)) (fun t => (t.peak, t.scale, t.shift, t.lowS, t.highS)) =
      some (65535, 257, 8, 2570, 5140) := by decide +kernel
theorem test_derive_float :
    after (exec .derive (options .scalar 64 128 3 2 2 0xFFFFFFFF 0x0920)) (fun t => (t.peak, t.scale, t.shift, t.lowS, t.highS)) =
      some (0x3F800000, 0, 0, 0x3E808081, 0x3F008081) := by decide +kernel

/-- Section 2, state-machine vectors. -/
theorem test_wr_locked : after (exec (.wr 0x018 99) ready) (·.thrLow) = some 30 := by decide
theorem test_wr_fmt_reserved : after (exec (.wr 0x048 0x2808) unconfigured) (·.fmt) = some 0x0808 := by decide
theorem test_rd_caps :
    after (exec (.rd 0x010) { ready with hwcap := .tier3, threadClass := 1 }) (·.result) = some 7 := by decide
theorem test_rd_cap_req : after (exec (.rd 0x040) ready) (·.result) = some 0x00000000FFFFFFFF := by decide

/-- 43_dispatch.md R240, R241: V is untouched; the first plane with work is Y. -/
theorem test_frame_busy : after (exec .frame ready) statusWord = some 0x0A ∧
    after (exec .frame ready) (·.pos) = some (some { plane := .y, row := 0, col := 0 }) := by decide
theorem test_frame_overlap : refusedAs (exec .frame { ready with descU := plane 0x1100 0x2002 2 4 2 2 })
    .descriptorOutsideContract = true := by decide

theorem test_reset_error : after (exec .reset failed) statusWord = some 0 := by decide
theorem test_reset_keeps_memory : after (exec .reset ready) (fun t => memByte t.mem 0x1102) = some 3 := by decide

/-- Section 3: a peak and a ramp of U8. -/
theorem test_pixU8 : after (exec .pixU8 (latched 30 30 100 200 100)) (·.smpOut) = some 255 ∧
    after (exec .pixU8 (latched 30 40 105 100 108)) (·.smpOut) = some 0 := by decide +kernel
theorem test_pixU16b10 : after (exec .pixU16b10 (latched 0 1020 468 500 468)) (·.smpOut) = some 1 ∧
    after (exec .pixU16b10 (latched 40 80 500 2000 500)) (·.smpOut) = some 1023 := by decide +kernel
theorem test_pixU16b12 : after (exec .pixU16b12 (latched 160 320 2000 2071 2000)) (·.smpOut) = some 1 := by decide +kernel
theorem test_pixU16b14 : after (exec .pixU16b14 (latched 640 1280 8000 8286 8000)) (·.smpOut) = some 4 := by decide +kernel
/-- Section 3: the 33-bit product, and the bound itself. -/
theorem test_pixU16b16 : after (exec .pixU16b16 (latched 0 65535 0 46341 0)) (·.smpOut) = some 65535 ∧
    after (exec .pixU16b16 (latched 257 65535 743 1000 744)) (·.smpOut) = some 1 := by decide +kernel
/-- Section 4: the last row, and a peak. -/
theorem test_pixF32 :
    after (exec .pixF32 (latched 0 0x3F800000 0x3F2EAEAF 0x3F32B2B3 0x3EFAFAFB)) (·.smpOut) = some 0x3B55AA81 ∧
    after (exec .pixF32 (latched 0x3DF0F0F1 0x3DF0F0F1 0x3EC8C8C9 0x3F48C8C9 0x3EC8C8C9)) (·.smpOut) = some 0x3F800000 := by
  decide +kernel

/-- 42_vector_backends.md R215's example, on four lanes. -/
theorem test_vpix : after (exec .vpix { latched 30 30 0 0 0 with
      fmt := 0x0008, vecU := [100, 100, 100, 100], vecM := [100, 100, 100, 200], vecLo := [100, 100, 100, 100] })
    (·.vecOut) = some [0, 0, 0, 255] := by decide +kernel

/-- Rows of the small plane by hand: columns (50, 60, 55), (60, 60, 60), (90, 60, 61), (61, 60, 54) give the products 50,
0, 30, -6 against the bounds 30 and 40: 255, 0, 0, 0. -/
theorem test_rowScalar : after (exec (.rowScalar .y 1) ready) (fun t => dump t.mem 0x2004 4) = some [255, 0, 0, 0] := by
  decide +kernel
theorem test_rowT1 : after (exec (.rowT1 .y 1) ready) (fun t => dump t.mem 0x2004 4) = some [255, 0, 0, 0] := by
  decide +kernel
theorem test_rowT2 : after (exec (.rowT2 .y 1) ready) (fun t => dump t.mem 0x2004 4) = some [255, 0, 0, 0] := by
  decide +kernel
theorem test_rowT3 : after (exec (.rowT3 .y 1) ready) (fun t => dump t.mem 0x2004 4) = some [255, 0, 0, 0] := by
  decide +kernel
theorem test_zrow : after (exec (.zrow .y 2) { ready with mem := load ready.mem 0x2007 [7, 8, 9, 10, 11, 12] })
    (fun t => dump t.mem 0x2007 6) = some [7, 0, 0, 0, 0, 12] := by decide +kernel
theorem test_kernel : after (exec (.kernel .y) { ready with mem := load ready.mem 0x2000 [1, 2, 3, 4] })
    (fun t => dump t.mem 0x2000 12) = some [0, 0, 0, 0, 255, 0, 0, 0, 0, 0, 0, 0] := by decide +kernel
theorem test_process : after (exec (.process .y) { ready with mem := load ready.mem 0x200B [9, 9] })
    (fun t => dump t.mem 0x2004 9) = some [255, 0, 0, 0, 0, 0, 0, 0, 9] := by decide +kernel
/-- 43_dispatch.md R245: row by row, destination padding kept. -/
theorem test_copy : after (exec (.copy .u) { ready with mem := load ready.mem 0x2102 [9] })
    (fun t => dump t.mem 0x2100 6) = some [1, 2, 9, 0, 3, 4] := by decide +kernel
theorem test_untouched : after (exec (.untouched .v) ready) (fun t => t == ready) = some true := by decide +kernel
theorem test_alphaCopy : after (exec .alphaCopy { ready with mem := load ready.mem 0x1200 [5, 6] })
    (fun t => dump t.mem 0x2200 2) = some [5, 6] ∧
    after (exec .alphaCopy { ready with fmt := 0x0808 }) (fun t => dump t.mem 0x2200 2) = some [0, 0] := by decide +kernel

/-! Witnesses: a concrete state and operands that meet each statement's hypotheses together, clause by clause. -/

/-- DecodeEncode, DecodedIsWellFormed: the last slot with the largest data, and the last row of the last colour plane. -/
theorem witness_wellFormed : WellFormed (.wr 0x178 0xFFFFFFFFFFFFFFFF) = true ∧ WellFormed (.zrow .v 0xFFFFFFFF) = true ∧
    decode (.write 0x178 0xFFFFFFFFFFFFFFFF) = .ok (.wr 0x178 0xFFFFFFFFFFFFFFFF) := by decide

/-- FormatSelectsDomain: each of the six pairs, and a pair without a domain in UNCONFIGURED. -/
theorem witness_formats :
    (fmtField { unconfigured with fmt := 0x0008 } 8 1 = 0 ∧ fmtField { unconfigured with fmt := 0x0008 } 0 8 = 8) ∧
    (fmtField { unconfigured with fmt := 0x000A } 8 1 = 0 ∧ fmtField { unconfigured with fmt := 0x000A } 0 8 = 10) ∧
    (fmtField { unconfigured with fmt := 0x000C } 8 1 = 0 ∧ fmtField { unconfigured with fmt := 0x000C } 0 8 = 12) ∧
    (fmtField { unconfigured with fmt := 0x000E } 8 1 = 0 ∧ fmtField { unconfigured with fmt := 0x000E } 0 8 = 14) ∧
    (fmtField { unconfigured with fmt := 0x1810 } 8 1 = 0 ∧ fmtField { unconfigured with fmt := 0x1810 } 0 8 = 16) ∧
    (fmtField { unconfigured with fmt := 0x1920 } 8 1 = 1 ∧ fmtField { unconfigured with fmt := 0x1920 } 0 8 = 32) := by
  decide
theorem witness_noFormat : CheckFails { unconfigured with fmt := 0x0110 } 5 ∧ unconfigured.run = .unconfigured := by
  simp only [CheckFails]; decide

/-- StepRunsDecoded: a due request that decodes, one that does not, an event not yet due, none, and a table word. -/
theorem witness_step :
    ({ ready with inbox := [⟨0, .request (.read 0x178)⟩] }.inbox = { gap := 0, event := .request (.read 0x178) } :: [] ∧
      decode (.read 0x178) = .ok (.rd 0x178)) ∧
    ({ ready with inbox := [⟨0, .request (.read 0x180)⟩] }.inbox = { gap := 0, event := .request (.read 0x180) } :: [] ∧
      decode (.read 0x180) = .error .outsideRegisterSpace) ∧
    { ready with inbox := [⟨1, .memRead 0⟩] }.inbox = { gap := 0 + 1, event := .memRead 0 } :: [] ∧
    ready.inbox = [] ∧ decodeTableWord 8 0x02 = some .frame := by decide

/-! The invariant of an instance, in each of the four states of STATUS.STATE. -/

theorem validConfig_options (s : State) (d : Domain) (h1 : fmtLayout s.fmt = 0)
    (h2 : ((1 ≤ s.modeY.toInt ∧ s.modeY.toInt ≤ 3) ∧ (1 ≤ s.modeU.toInt ∧ s.modeU.toInt ≤ 3) ∧
      (1 ≤ s.modeV.toInt ∧ s.modeV.toInt ≤ 3)))
    (h3 : (0 ≤ s.thrLow.toInt ∧ s.thrLow.toInt ≤ 255) ∧ (0 ≤ s.thrHigh.toInt ∧ s.thrHigh.toInt ≤ 255))
    (h4 : s.thrLow.toInt ≤ s.thrHigh.toInt) (h5 : domainOf s = some d) (h6 : -1 ≤ s.capReq.toInt ∧ s.capReq.toInt ≤ 3)
    (h7 : s.capReq.toInt ≤ tierCode s.hwcap) : ValidConfig s d := ⟨h1, h2, h3, h4, h5, h6, h7⟩

theorem validConfig_unconfigured : ValidConfig unconfigured .u8 := by
  apply validConfig_options <;> decide

theorem validConfig_ready : ValidConfig ready .u8 := by
  apply validConfig_options <;> decide

/-- A state in UNCONFIGURED with a valid configuration of a domain, and the backend it resolves to. -/
def Accepts (s : State) (d : Domain) (t : Tier) : Prop := s.run = .unconfigured ∧ ValidConfig s d ∧ ResolvesTo s t

/-- ConfigureInteger, ConfigureFloat, DeriveConstants: every domain, thresholds at the ends of their range. -/
theorem witness_configure :
    Accepts (options .scalar 0 255 1 2 3 0 0x0008) .u8 .scalar ∧
    Accepts (options .tier1 255 255 3 3 3 1 0x080A) .u16b10 .tier1 ∧
    Accepts (options .tier2 0 0 1 1 1 2 0x000C) .u16b12 .tier2 ∧
    Accepts (options .tier3 10 20 3 2 1 3 0x080E) .u16b14 .tier3 ∧
    Accepts (options .tier3 10 20 3 2 1 0xFFFFFFFF 0x1810) .u16b16 .tier3 ∧
    Accepts (options .tier3 0 255 3 2 1 0xFFFFFFFF 0x0920) .f32 .tier3 := by
  unfold Accepts ResolvesTo
  refine ⟨?_, ?_, ?_, ?_, ?_, ?_⟩ <;> refine ⟨rfl, ?_, by decide⟩ <;> apply validConfig_options <;> decide

theorem inv_unconfigured : InstanceInv unconfigured where
  memory := by decide
  fmtReserved := by decide
  errCode := by decide
  unconfigured := fun _ => by unfold ConstsZero; decide
  configured := fun h => absurd h (by decide)
  idle := fun _ => rfl
  busy := fun h => absurd h (by decide)
  hostOnly := by decide

theorem inv_failed : InstanceInv failed where
  memory := by decide
  fmtReserved := by decide
  errCode := by decide
  unconfigured := fun _ => by unfold ConstsZero; decide
  configured := fun h => absurd h (by decide)
  idle := fun _ => rfl
  busy := fun h => absurd h (by decide)
  hostOnly := by decide

theorem inv_ready : InstanceInv ready where
  memory := by decide
  fmtReserved := by decide
  errCode := by decide
  unconfigured := fun h => absurd h (by decide)
  configured := fun _ => ⟨.u8, validConfig_ready, by unfold ConstsDerived; decide, by unfold ResolvesTo; decide⟩
  idle := fun _ => rfl
  busy := fun h => absurd h (by decide)
  hostOnly := by decide

theorem inv_busyAt (p : PlaneId) (y x : Nat) (h : PosInPlane (busyAt p y x) ⟨p, y, x⟩) : InstanceInv (busyAt p y x) where
  memory := inv_ready.memory
  fmtReserved := inv_ready.fmtReserved
  errCode := by rw [if_neg (by intro h; cases h)]; rfl
  unconfigured := fun h => by rcases h with h | h <;> cases h
  configured := fun _ => inv_ready.configured (.inl rfl)
  idle := fun h => absurd rfl h
  busy := fun _ => ⟨⟨p, y, x⟩, .u8, rfl, (by decide : domainOf ready = some .u8), (by decide : frameValid .u8 ready = true), h⟩
  hostOnly := rfl

theorem inv_wide : InstanceInv wide where
  memory := by decide
  fmtReserved := by decide
  errCode := by decide
  unconfigured := fun h => absurd h (by decide)
  configured := fun _ => ⟨.u8, by apply validConfig_options <;> decide, by unfold ConstsDerived; decide,
    by unfold ResolvesTo; decide⟩
  idle := fun h => absurd rfl h
  busy := fun _ => ⟨⟨.y, 1, 0⟩, .u8, by decide, by decide, by decide, by unfold PosInPlane; decide⟩
  hostOnly := by decide

/-- StatusFields: every clause of STATE, UNCONFIGURED, ERROR, READY and BUSY. -/
theorem witness_statusFields :
    (InstanceInv unconfigured ∧ unconfigured.run = .unconfigured) ∧ (InstanceInv failed ∧ failed.run = .error) ∧
    (InstanceInv ready ∧ ready.run = .ready) ∧ (InstanceInv wide ∧ wide.run = .busy) :=
  ⟨⟨inv_unconfigured, rfl⟩, ⟨inv_failed, rfl⟩, ⟨inv_ready, rfl⟩, ⟨inv_wide, rfl⟩⟩

/-- CapsFields, MemoryStaysCanonical, InvariantKept: a step of the sequencer from a BUSY state. -/
theorem witness_step_next : InstanceInv wide ∧ Memory.wf wide.mem = true ∧ ∃ t, step wide = .next t :=
  ⟨inv_wide, by decide, _, rfl⟩

/-- ConfigurationWritesStore, DescriptorWritesStore, LockedWritesIgnored: the states in which a write is stored or ignored. -/
theorem witness_writes : unconfigured.run = .unconfigured ∧ failed.run ≠ .busy ∧ ready.run = .ready ∧ wide.run = .busy ∧
    failed.run = .error := by decide

/-- RegisterSpace: the first offset past the slots, an unaligned one, and the last slot. -/
theorem witness_registerSpace : 0x180 ≤ (0x180 : Slot).toNat ∧ (0x17F : Slot).toNat % 8 ≠ 0 ∧
    ((0x178 : Slot).toNat < 0x180 ∧ (0x178 : Slot).toNat % 8 = 0) := by decide

/-- CommandWrites: codes 1 and 2 with bits above the register, codes 0, 3 and 255, and the states that ignore a command. -/
theorem witness_commands : (0xFFFFFF01 : Slot).toNat % 256 = 1 ∧ (0x102 : Slot).toNat % 256 = 2 ∧
    ((0x100 : Slot).toNat % 256 ≠ 1 ∧ (0x100 : Slot).toNat % 256 ≠ 2) ∧ ((3 : Slot).toNat % 256 ≠ 1 ∧ (3 : Slot).toNat % 256 ≠ 2) ∧
    ready.run ≠ .unconfigured ∧ failed.run ≠ .ready := by decide

/-- CheckFails by its number, for the witnesses below. -/
theorem checks_below (s : State) (c : Nat) (h : ∀ c', 1 ≤ c' → c' < c → ¬CheckFails s c') : ∀ c', c' < c → ¬CheckFails s c' := by
  intro c' hc
  cases c' with
  | zero => exact id
  | succ n => exact h (n + 1) (by omega) hc

/-- ValidateReturnsLowest, ErrorEntry: the first check and the last one fail, each with all lower ones passing. -/
theorem witness_lowest_first : (options .scalar 40 30 0 2 2 9 0x0209).run = .unconfigured ∧
    CheckFails (options .scalar 40 30 0 2 2 9 0x0209) 1 ∧
    ∀ c', c' < 1 → ¬CheckFails (options .scalar 40 30 0 2 2 9 0x0209) c' :=
  ⟨rfl, by simp only [CheckFails]; decide, checks_below _ 1 fun c' h1 h2 => absurd h1 (by omega)⟩

theorem witness_lowest_last : (options .tier2 30 30 3 2 2 3 0x0808).run = .unconfigured ∧
    CheckFails (options .tier2 30 30 3 2 2 3 0x0808) 7 ∧
    ∀ c', c' < 7 → ¬CheckFails (options .tier2 30 30 3 2 2 3 0x0808) c' := by
  refine ⟨rfl, by simp only [CheckFails, RequestKnown, RequestSupported]; decide, ?_⟩
  intro c' h
  have h' : c' = 0 ∨ c' = 1 ∨ c' = 2 ∨ c' = 3 ∨ c' = 4 ∨ c' = 5 ∨ c' = 6 := by omega
  rcases h' with rfl | rfl | rfl | rfl | rfl | rfl | rfl <;>
    simp only [CheckFails, ModesInRange, ThresholdsInRange, RequestKnown] <;> decide

/-- ValidateReturnsLowest: no check fails. -/
theorem witness_no_check_fails : ∀ c, ¬CheckFails unconfigured c := by
  intro c
  rcases c with _ | _ | _ | _ | _ | _ | _ | _ | n <;>
    simp only [CheckFails, ModesInRange, ThresholdsInRange, RequestKnown, RequestSupported] <;> decide

/-- IntegerBounds, FloatBounds: an accepted configuration of the 16-bit and of the float domain. -/
theorem witness_bounds :
    ((options .scalar 255 255 1 2 3 0 0x0010).run = .unconfigured ∧
      domainOf (options .scalar 255 255 1 2 3 0 0x0010) = some .u16b16 ∧
      ∃ t, exec .configure (options .scalar 255 255 1 2 3 0 0x0010) = .next t ∧ t.run = .ready) ∧
    (domainOf (options .scalar 0 255 1 2 3 0 0x0120) = some .f32 ∧
      ∃ t, exec .configure (options .scalar 0 255 1 2 3 0 0x0120) = .next t ∧ t.run = .ready) :=
  ⟨⟨rfl, by decide, _, rfl, by decide⟩, by decide, _, rfl, by decide⟩

/-- ResolutionTable: auto, the level itself, one above it, and the two requests next to the table. -/
theorem witness_resolution :
    (fmtLayout (options .tier2 0 255 1 2 3 3 0x0008).fmt = 0 ∧ ModesInRange (options .tier2 0 255 1 2 3 3 0x0008) ∧
      ThresholdsInRange (options .tier2 0 255 1 2 3 3 0x0008) ∧ domainOf (options .tier2 0 255 1 2 3 3 0x0008) = some .u8 ∧
      (options .tier2 0 255 1 2 3 3 0x0008).thrLow.toInt ≤ (options .tier2 0 255 1 2 3 3 0x0008).thrHigh.toInt) ∧
    (0xFFFFFFFF : Word).toInt = -1 ∧ (0 ≤ (2 : Word).toInt ∧ (2 : Word).toInt ≤ tierCode .tier2) ∧
    ((tierCode .tier2 : Int) < (3 : Word).toInt ∧ (3 : Word).toInt ≤ 3) ∧ (0xFFFFFFFE : Word).toInt < -1 ∧
    3 < (4 : Word).toInt := by
  unfold ModesInRange ThresholdsInRange; decide

/-- PartsOfConfigure, DeriveConstants: each clause's hypotheses. -/
theorem witness_parts :
    (unconfigured.run = .unconfigured ∧ tierCode .tier2 ≤ tierCode unconfigured.hwcap ∧
      tierCode unconfigured.hwcap < tierCode .tier3) ∧
    (ResolvesTo unconfigured .tier2 ∧ RequestSupported unconfigured) ∧
    CheckFails { unconfigured with capReq := 4 } 6 ∧ CheckFails { unconfigured with capReq := 3 } 7 ∧
    failed.run ≠ .unconfigured := by
  simp only [ResolvesTo, RequestSupported, CheckFails, RequestKnown]; decide

theorem witness_derive_invalid : (options .scalar 0 0 1 1 1 0 0x0208).run = .unconfigured ∧
    ∀ d, ¬ValidConfig (options .scalar 0 0 1 1 1 0 0x0208) d :=
  ⟨rfl, fun _ h => absurd h.1 (by decide)⟩

/-- PixInteger: products just below, at and between, at and just above the bounds 30 and 40, in the 8-bit domain. -/
theorem witness_pixInteger :
    ((129 - 100 : Int) * (101 - 100) / 2 ^ (8 - 8) < 30) ∧ ((30 : Int) ≤ (105 - 100) * (106 - 100) / 2 ^ (8 - 8)) ∧
    ((105 - 100 : Int) * (108 - 100) / 2 ^ (8 - 8) ≤ 40) ∧ ((40 : Int) < (141 - 100) * (101 - 100) / 2 ^ (8 - 8)) := by
  decide

/-- ReachableOutputs: a ramp of the 16-bit domain at its lower bound. -/
theorem witness_ramp16 : ∃ t, exec .pixU16b16 (latched 257 65535 743 1000 744) = .next t ∧
    (latched 257 65535 743 1000 744).lowS.toNat = 1 * 257 ∧ (latched 257 65535 743 1000 744).highS.toNat = 255 * 257 ∧
    ((1 : Nat) * 257 : Int) ≤ (743 - 1000) * (744 - 1000) / 2 ^ 8 ∧ ((743 - 1000) * (744 - 1000) / 2 ^ 8 : Int) ≤ (255 : Nat) * 257 ∧
    ((743 - 1000) * (744 - 1000) / 2 ^ 8 : Int) = (1 : Nat) * 257 := ⟨_, rfl, by decide⟩

/-- IntegerMonotone: differences 1, 1 and -2, -1. -/
theorem witness_monotone : Domain.u8 ≠ .f32 ∧ (∃ t, exec (pixInstr .u8) (latched 0 0 11 10 11) = .next t) ∧
    (∃ t, exec (pixInstr .u8) (latched 0 0 8 10 9) = .next t) ∧ (0 : Int) ≤ (11 - 10) * (11 - 10) ∧
    (0 : Int) ≤ (8 - 10) * (9 - 10) ∧ (11 - 10 : Int).natAbs ≤ (8 - 10 : Int).natAbs ∧
    (11 - 10 : Int).natAbs ≤ (9 - 10 : Int).natAbs := ⟨by decide, ⟨_, rfl⟩, ⟨_, rfl⟩, by decide⟩

theorem pixF32_completes (s : State) : ∃ t, exec .pixF32 s = .next t := ⟨_, rfl⟩

/-- FloatMonotone: differences of the two signs, of the smallest subnormal and of the largest sample in the domain. -/
theorem witness_floatMonotone :
    (∀ w ∈ [(1 : Word), 0, 1, 0x80000001, 0x7E800000, 0x80000001], f32OutOfDomain w = false) ∧
    (∃ t, exec .pixF32 (latched 0 0 1 0 1) = .next t) ∧
    (∃ t, exec .pixF32 (latched 0 0 0x80000001 0x7E800000 0x80000001) = .next t) ∧
    (0 ≤ (f32Units 1 - f32Units 0) * (f32Units 1 - f32Units 0) ∧
      0 ≤ (f32Units 0x80000001 - f32Units 0x7E800000) * (f32Units 0x80000001 - f32Units 0x7E800000) ∧
      (f32Units 1 - f32Units 0).natAbs ≤ (f32Units 0x80000001 - f32Units 0x7E800000).natAbs) :=
  ⟨by simp only [List.forall_mem_cons]; exact ⟨by decide, by decide, by decide, by decide, by decide, by decide, nofun⟩,
    pixF32_completes _, pixF32_completes _, by decide +kernel⟩

/-- FlatPixelsGiveZero: opposite differences; a flat float pixel with the upper bound 0.0; float samples on opposite sides,
one step of the smallest subnormal away. -/
theorem witness_flat : ((9 - 10 : Int) * (11 - 10) ≤ 0) ∧
    ((f32Units 0x3F000000 - f32Units 0x3F000000) * (f32Units 0x7E800000 - f32Units 0x3F000000) ≤ 0 ∧
      f32OutOfDomain 0x3F000000 = false ∧ f32OutOfDomain 0x7E800000 = false ∧ 0 ≤ f32Key 0) ∧
    ((f32Units 1 - f32Units 0x80000000) * (f32Units 0x80000001 - f32Units 0x80000000) ≤ 0 ∧
      f32OutOfDomain 1 = false ∧ f32OutOfDomain 0x80000000 = false ∧ f32OutOfDomain 0x80000001 = false) := by decide +kernel

/-- PixFloat: samples in the domain, and a product in each branch (95_test_vectors.md section 4). -/
theorem witness_pixFloat :
    (f32OutOfDomain 0x7E800000 = false ∧ f32OutOfDomain 0x00000001 = false ∧ f32OutOfDomain 0x3F000000 = false) ∧
    flt 0x00000000 0x3DF0F0F1 = true ∧ (flt 0x421CDCDE 0x3DF0F0F1 = false ∧ fgt 0x421CDCDE 0x3DF0F0F1 = true) ∧
    (flt 0x80000000 0 = false ∧ fgt 0x80000000 0 = false ∧
      fmul (fmul (fsub 0x3F000000 0x3F000000) (fsub 0x3E800000 0x3F000000)) 0x437F0000 = 0x80000000) ∧
    (flt 0x3F54D4D6 0 = false ∧ fgt 0x3F54D4D6 0x3F800000 = false ∧
      fmul (fmul (fsub 0x3F2EAEAF 0x3F32B2B3) (fsub 0x3EFAFAFB 0x3F32B2B3)) 0x437F0000 = 0x3F54D4D6) := by decide +kernel

/-- FloatOperationsRounded: the largest finite value and the smallest subnormal; equal values. -/
theorem witness_floatOperations : f32Finite 0x7F7FFFFF = true ∧ f32Finite 0x80000001 = true ∧
    f32Units 0x7F7FFFFF ≠ f32Units 0x80000001 ∧ f32Units 0x80000000 = f32Units 0x00000000 ∧ f32Mag 0x80000001 ≠ 0 := by
  decide +kernel

/-- A state for VPIX: four lanes of U8. -/
def lanes : State :=
  { latched 30 30 0 0 0 with fmt := 0x0008, vecU := [9, 8, 7, 6], vecM := [1, 2, 3, 4], vecLo := [5, 6, 7, 8] }

/-- VpixLanes: the first and the last lane, another state that agrees on the last lane, and a state without a domain. -/
theorem witness_vpix : lanes.vecU.length = 4 ∧ lanes.vecM.length = 4 ∧ lanes.vecLo.length = 4 ∧
    domainOf lanes = some .u8 ∧ lanes.vecU[0]? = some 9 ∧ lanes.vecU[3]? = some 6 ∧ lanes.vecM[3]? = some 4 ∧
    lanes.vecLo[3]? = some 8 ∧ { lanes with vecU := [0, 0, 0, 6] }.vecU[3]? = some 6 ∧
    domainOf { lanes with fmt := 0x0009 } = none := by decide

theorem witness_vpix_next : ∃ t, exec .vpix { lanes with vecU := [0, 0, 0, 6] } = .next t := ⟨_, rfl⟩

/-- RowFormsMask, RowCursors: the one interior row of a plane of three rows is the first and the last. -/
theorem witness_rows : PlaneId.y.isColour = true ∧ domainOf ready = some .u8 ∧ descValid .u8 (ready.desc .y) = true ∧
    (ready.desc .y).width ≠ 0 ∧ (ready.desc .y).height ≠ 0 ∧ 1 ≤ (1 : Word).toNat ∧
    (1 : Word).toNat + 2 ≤ (ready.desc .y).height.toNat := by decide

theorem witness_row_next : (∃ t, exec (rowInstr .y 1 .scalar) ready = .next t) ∧ (∃ t, exec (rowInstr .y 1 .tier3) ready = .next t) :=
  ⟨⟨_, rfl⟩, ⟨_, rfl⟩⟩

/-- ZrowZeroes: both border rows. -/
theorem witness_zrow : (0 : Word) = 0 ∧ (2 : Word).toNat + 1 = (ready.desc .y).height.toNat := by decide

/-- KernelComputesMask, CopyBytes, TiersEqualScalar, KernelReadsOnlySource: a valid plane and its next states. -/
theorem witness_kernel : descValid .u8 (ready.desc .y) = true ∧ PlaneNotEmpty (ready.desc .y) ∧
    (∃ t, exec (.kernel .y) ready = .next t) ∧ (∃ t, exec (.kernel .y) { ready with backend := .scalar } = .next t) ∧
    (∃ t, exec (.kernel .y) (ready.withMem (memSet ready.mem 0x1004 77)) = .next t) :=
  ⟨by decide, by unfold PlaneNotEmpty; decide, ⟨_, rfl⟩, ⟨_, rfl⟩, ⟨_, rfl⟩⟩

/-- A byte outside the source footprint can differ where every source byte agrees. -/
theorem memSet_agrees_on_source (d : Domain) (ds : Desc) (m : List Host.Cell) (c : Nat) (b : Byte)
    (h : (srcFoot d ds).contains c = false) : ∀ a, SrcByte d ds a → memByte (memSet m c b) a = memByte m a := by
  intro a ha
  have hne : a ≠ c := by
    rintro rfl
    rw [(srcFoot_contains_iff d ds a).mpr ha] at h
    cases h
  rw [memByte_memSet, if_neg hne]

/-- KernelReadsOnlySource: a padding byte of the source is no source byte. -/
theorem witness_padding : ∀ a, SrcByte .u8 (ready.desc .y) a → memByte (memSet ready.mem 0x1004 77) a = memByte ready.mem a :=
  memSet_agrees_on_source _ _ _ _ _ (by decide)

/-- TiersEqualScalar, KernelReadsOnlySource: a float plane of one column and three rows whose samples are all in the domain. -/
def floats : State :=
  { ready with fmt := 0x0120, descY := plane 0x1000 0x2000 8 8 1 3, mem := [] }

theorem witness_floats : domainOf floats = some .f32 ∧ SourceInDomain (floats.desc .y) floats.mem ∧
    (∃ t, exec (.kernel .y) { floats with backend := .tier3 } = .next t) ∧
    (∃ t, exec (.kernel .y) { floats with backend := .scalar } = .next t) ∧
    (∃ t, exec (rowInstr .y 1 .tier3) floats = .next t) ∧ (∃ t, exec (.rowScalar .y 1) floats = .next t) ∧
    (∃ t, exec (.kernel .y) floats = .next t) ∧ ∃ t, exec (.kernel .y) (floats.withMem (memSet floats.mem 0x1004 77)) = .next t := by
  refine ⟨by decide, ?_, ⟨_, rfl⟩, ⟨_, rfl⟩, ⟨_, rfl⟩, ⟨_, rfl⟩, ⟨_, rfl⟩, ⟨_, rfl⟩⟩
  intro y x hy hx
  have h1 : (floats.desc .y).height.toNat = 3 := by decide
  have h2 : (floats.desc .y).width.toNat = 1 := by decide
  have h : (y = 0 ∨ y = 1 ∨ y = 2) ∧ x = 0 := by omega
  obtain ⟨hy | hy | hy, hx⟩ := h <;> subst hy <;> subst hx <;> decide

theorem witness_floats_padding :
    ∀ a, SrcByte .f32 (floats.desc .y) a → memByte (memSet floats.mem 0x1004 77) a = memByte floats.mem a :=
  memSet_agrees_on_source _ _ _ _ _ (by decide)

/-- DegenerateGeometries: no columns, no rows, one row, two rows. -/
theorem witness_degenerate : (plane 0 0 0 0 0 9).width = 0 ∧ (plane 0 0 0 0 9 0).height = 0 ∧
    (descValid .u8 (plane 0x1000 0x2000 4 4 4 1) = true ∧ (plane 0x1000 0x2000 4 4 4 1).height = 1) ∧
    (descValid .u8 (plane 0x1000 0x2000 4 4 4 2) = true ∧ (plane 0x1000 0x2000 4 4 4 2).height = 2) := by decide

/-- AlphaCopied: alpha present with a valid descriptor, and absent. -/
theorem witness_alpha : fmtField ready 12 1 = 1 ∧ descValid .u8 ready.descA = true ∧
    fmtField { ready with fmt := 0x0808 } 12 1 = 0 := by decide

/-- PlaneOperationsStop: no domain; an invalid descriptor, of a colour plane and of a present alpha plane; rows 0 and H - 1 for a
row form, row 1 for ZROW. -/
theorem witness_stops : PlaneNotEmpty (ready.desc .y) ∧ domainOf { ready with fmt := 0x0009 } = none ∧
    (PlaneNotEmpty (ready.desc .v) ∧ descValid .u8 (ready.desc .v) = false) ∧
    (fmtField { ready with fmt := 0x1809 } 12 1 = 1 ∧ PlaneNotEmpty ready.descA ∧ domainOf { ready with fmt := 0x1809 } = none) ∧
    (fmtField ready 12 1 = 1 ∧ descValid .u8 { ready.descA with srcPitch := 0 } = false ∧
      PlaneNotEmpty { ready.descA with srcPitch := 0 }) ∧ (0 : Word).toNat = 0 ∧
    (ready.desc .y).height.toNat < (2 : Word).toNat + 2 ∧
    ((1 : Word).toNat ≠ 0 ∧ (1 : Word).toNat + 1 ≠ (ready.desc .y).height.toNat) := by
  unfold PlaneNotEmpty; decide

/-- FrameAccepted, FrameRunsToCompletion: work in Y; work in U only; none. -/
theorem witness_frame : ready.run = .ready ∧ ready.pos = none ∧ domainOf ready = some .u8 ∧ frameValid .u8 ready = true ∧
    hasWork ready .y = true ∧ hasWork { ready with modeY := 1 } .y = false ∧ hasWork { ready with modeY := 1 } .u = true ∧
    frameValid .u8 { ready with modeY := 1 } = true := by decide

theorem witness_frame_first : ∀ q, planeIndex q < planeIndex .u → hasWork { ready with modeY := 1 } q = false := by
  intro q; cases q <;> decide

theorem witness_frame_nothing : frameValid .u8 { ready with modeY := 1, modeU := 1, fmt := 0x0808 } = true ∧
    ∀ p, hasWork { ready with modeY := 1, modeU := 1, fmt := 0x0808 } p = false := by
  refine ⟨by decide, fun p => ?_⟩; cases p <;> decide

/-- FrameOutsideContract: one destination byte shared with another plane's destination. -/
theorem witness_frame_invalid : frameValid .u8 { ready with descU := plane 0x1100 0x200B 2 4 2 2 } = false := by decide

/-- SequencerAdvances: the next group, the remainder, the next row, the next plane, and the end of the FRAME. -/
theorem witness_sequencer :
    (InstanceInv wide ∧ wide.inbox = [] ∧ domainOf wide = some .u8 ∧ wide.pos = some ⟨.y, 1, 0⟩ ∧ 0 + 16 < 20) ∧
    InstanceInv (busyAt .y 0 3) ∧ InstanceInv (busyAt .y 2 3) ∧ InstanceInv (busyAt .u 1 0) ∧ InstanceInv (busyAt .a 0 0) := by
  refine ⟨⟨inv_wide, rfl, by decide, rfl, by decide⟩, ?_, ?_, ?_, ?_⟩ <;>
    exact inv_busyAt _ _ _ (by unfold PosInPlane; decide)

theorem witness_sequencer_planes : hasWork (busyAt .y 2 3) .u = true ∧
    (∀ r, planeIndex .y < planeIndex r → planeIndex r < planeIndex .u → hasWork (busyAt .y 2 3) r = false) ∧
    ∀ p, planeIndex .a < planeIndex p → hasWork (busyAt .a 0 0) p = false := by
  refine ⟨by decide, ?_, ?_⟩ <;> intro q <;> cases q <;> decide

/-- ResetMemory: outside BUSY, and a byte outside every destination footprint of a running FRAME. -/
theorem witness_reset : ready.run ≠ .busy ∧
    ∀ d p, domainOf wide = some d → isPresent wide p = true → (effMode wide p = 2 ∨ effMode wide p = 3) →
      (dstFoot d (wide.desc p)).contains 0x203C = false := by
  refine ⟨by decide, ?_⟩
  intro d p hd
  have : d = .u8 := by
    have h : domainOf wide = some .u8 := by decide
    rw [h] at hd
    cases hd; rfl
  subst this
  cases p <;> decide

/-- HostMemoryAccess: the last byte of plane memory, and the first address past it. -/
theorem witness_hostMemory :
    { ready with inbox := [⟨0, .memWrite (2 ^ 64 - 1) 7⟩] }.inbox = { gap := 0, event := .memWrite (2 ^ 64 - 1) 7 } :: [] ∧
    { ready with inbox := [⟨0, .memRead (2 ^ 64)⟩] }.inbox = { gap := 0, event := .memRead (2 ^ 64) } :: [] ∧
    ready.run ≠ .busy ∧ 2 ^ 64 - 1 < 2 ^ 64 ∧ 2 ^ 64 ≤ 2 ^ 64 := by decide

/-- BusyOwnership: the last source byte and the first destination byte of a running FRAME. -/
theorem witness_ownership : wide.run = .busy ∧ domainOf wide = some .u8 ∧ isPresent wide .y = true ∧ effMode wide .y = 3 ∧
    frameValid .u8 wide = true ∧ (srcFoot .u8 (wide.desc .y)).contains 0x103B = true ∧
    (dstFoot .u8 (wide.desc .y)).contains 0x2000 = true ∧
    { wide with inbox := [⟨0, .memWrite 0x103B 1⟩] }.inbox = { gap := 0, event := .memWrite 0x103B 1 } :: [] ∧
    { wide with inbox := [⟨0, .memRead 0x2000⟩] }.inbox = { gap := 0, event := .memRead 0x2000 } :: [] := by decide

/-- BusyOwnership: the byte after the last destination byte is in no footprint, and the last source byte in no destination. -/
theorem witness_ownership_outside : ∀ p, isPresent wide p = true ∧ (effMode wide p = 2 ∨ effMode wide p = 3) →
    (¬SrcByte .u8 (wide.desc p) 0x203C ∧ ¬DstByte .u8 (wide.desc p) 0x203C) ∧ ¬DstByte .u8 (wide.desc p) 0x103B := by
  intro p h
  rw [← srcFoot_contains_iff, ← dstFoot_contains_iff, ← dstFoot_contains_iff]
  revert h
  cases p <;> decide

/-- OnlyListedTransitions: CONFIGURE leaves UNCONFIGURED. -/
theorem witness_transition : HostOnly { unconfigured with inbox := [⟨0, .request (.write 0x000 1)⟩] } = true ∧
    ∃ t, step { unconfigured with inbox := [⟨0, .request (.write 0x000 1)⟩] } = .next t ∧ t.run = .ready :=
  ⟨by decide, _, rfl, by decide⟩

/-- RegistersLocked: a write of an option and of a descriptor during BUSY. -/
theorem witness_locked : wide.run = .busy ∧ wide.run ≠ .unconfigured ∧
    eventNow { wide with inbox := [⟨0, .request (.write 0x0A0 1)⟩] } ≠ some (.request .rst) ∧
    ∃ t, step { wide with inbox := [⟨0, .request (.write 0x0A0 1)⟩] } = .next t :=
  ⟨by decide, by decide, by decide, _, rfl⟩

/-- OnlyDestinationsWritten: a step of a copy that changes a byte, and a host write that changes one. -/
theorem witness_memory_changes :
    (∃ t, step (busyAt .u 1 0) = .next t ∧ memByte t.mem 0x2104 ≠ memByte (busyAt .u 1 0).mem 0x2104) ∧
    ∃ t, step { ready with inbox := [⟨0, .memWrite 0x2000 7⟩] } = .next t ∧ memByte t.mem 0x2000 ≠ memByte ready.mem 0x2000 :=
  ⟨⟨_, rfl, by decide +kernel⟩, _, rfl, by decide +kernel⟩

end Sys2Proof.Tests
end

/-! The rounding of binary32 is the nearest pattern, ties to even (00_scope.md R12, 40_numeric_domain.md R159).

The significand and the exponent that `f32RoundMag` takes give the pattern just below the exact value. That pattern and the next
enclose the value, and every other pattern is farther than one of the two; `roundHalfEven` picks the nearer of them, and of
two equally near ones the even pattern. -/

namespace Sys2Proof.Proofs.Float32

open Sys2Proof Sys2Proof.Machine

/-! Distances from the values of patterns. -/

/-- The distance from a pattern whose value is not above num / den. -/
theorem f32Distance_of_le (n d p : Nat) (h : d * f32Value p ≤ n) : f32Distance n d p = n - d * f32Value p := by
  unfold f32Distance; omega

/-- The distance from a pattern whose value is not below num / den. -/
theorem f32Distance_of_ge (n d p : Nat) (h : n ≤ d * f32Value p) : f32Distance n d p = d * f32Value p - n := by
  unfold f32Distance; omega

/-- Below the exact value, lower patterns are farther. -/
theorem f32Distance_lt_of_lower (n d p q : Nat) (hd : 0 < d) (hp : d * f32Value p ≤ n) (hq : q < p) :
    f32Distance n d p < f32Distance n d q := by
  have hv : d * f32Value q < d * f32Value p := Nat.mul_lt_mul_of_pos_left ((f32Value_lt_iff q p).mpr hq) hd
  rw [f32Distance_of_le n d p hp, f32Distance_of_le n d q (by omega)]
  omega

/-- Above the exact value, higher patterns are farther. -/
theorem f32Distance_lt_of_higher (n d p q : Nat) (hd : 0 < d) (hp : n ≤ d * f32Value p) (hq : p < q) :
    f32Distance n d p < f32Distance n d q := by
  have hv : d * f32Value p < d * f32Value q := Nat.mul_lt_mul_of_pos_left ((f32Value_lt_iff p q).mpr hq) hd
  rw [f32Distance_of_ge n d p hp, f32Distance_of_ge n d q (by omega)]
  omega

/-! The nearest pattern. -/

/-- `p` is at least as near to num / den as `q`, and even where they are equally near. -/
def PreferredTo (n d p q : Nat) : Prop :=
  f32Distance n d p < f32Distance n d q ∨ (f32Distance n d p = f32Distance n d q ∧ p % 2 = 0)

theorem nearestEven_iff (n d p : Nat) : NearestEven n d p ↔ p ≤ f32InfBits ∧ ∀ q, q ≤ f32InfBits → q ≠ p → PreferredTo n d p q :=
  Iff.rfl

theorem PreferredTo.trans_lt {n d p q r : Nat} (h : PreferredTo n d p q) (hr : f32Distance n d q < f32Distance n d r) :
    PreferredTo n d p r := by
  rcases h with h | ⟨h, -⟩ <;> exact .inl (by omega)

/-- Of two consecutive patterns that enclose the exact value, the preferred one is the nearest of all. -/
theorem nearestEven_of_neighbours (n d p₀ p : Nat) (hd : 0 < d) (hlo : d * f32Value p₀ ≤ n) (hhi : n ≤ d * f32Value (p₀ + 1))
    (hinf : p₀ + 1 ≤ f32InfBits)
    (hp : (p = p₀ ∧ PreferredTo n d p₀ (p₀ + 1)) ∨ (p = p₀ + 1 ∧ PreferredTo n d (p₀ + 1) p₀)) : NearestEven n d p := by
  rw [nearestEven_iff]
  refine ⟨by omega, fun q _ hq => ?_⟩
  have lower : q < p₀ → f32Distance n d p₀ < f32Distance n d q := f32Distance_lt_of_lower n d p₀ q hd hlo
  have higher : p₀ + 1 < q → f32Distance n d (p₀ + 1) < f32Distance n d q := f32Distance_lt_of_higher n d (p₀ + 1) q hd hhi
  rcases hp with ⟨rfl, hpref⟩ | ⟨rfl, hpref⟩
  · rcases Nat.lt_trichotomy q (p + 1) with h | rfl | h
    · exact .inl (lower (by omega))
    · exact hpref
    · exact hpref.trans_lt (higher h)
  · rcases Nat.lt_trichotomy q p₀ with h | rfl | h
    · exact hpref.trans_lt (lower h)
    · exact hpref
    · exact .inl (higher (by omega))

/-- From infinity's value on, infinity's pattern is the nearest (overflow). -/
theorem nearestEven_infinity (n d : Nat) (hd : 0 < d) (h : d * f32Value f32InfBits ≤ n) : NearestEven n d f32InfBits := by
  rw [nearestEven_iff]
  exact ⟨Nat.le_refl _, fun q hq hne => .inl (f32Distance_lt_of_lower n d f32InfBits q hd h (by omega))⟩

/-! The pattern just below the exact value. -/

/-- The value of the pattern of exponent `k` and significand `m`, also where the significand is the next power of two. -/
theorem f32Value_scaled (k m : Nat) (hm : m ≤ 2 ^ 24) (hk : k = 0 ∨ 2 ^ 23 ≤ m) : f32Value (k * 2 ^ 23 + m) = m * 2 ^ k := by
  unfold f32Value
  rcases Nat.lt_or_ge m (2 ^ 23) with hsub | hnorm
  · obtain rfl : k = 0 := by omega
    rw [if_pos (by omega)]; omega
  · rw [if_neg (by omega)]
    rcases Nat.lt_or_eq_of_le hm with hlt | rfl
    · have hmod : 2 ^ 23 + (k * 2 ^ 23 + m) % 2 ^ 23 = m := by omega
      have hexp : (k * 2 ^ 23 + m) / 2 ^ 23 - 1 = k := by omega
      rw [hmod, hexp]
    · have hmod : (k * 2 ^ 23 + 2 ^ 24) % 2 ^ 23 = 0 := by omega
      have hexp : (k * 2 ^ 23 + 2 ^ 24) / 2 ^ 23 - 1 = k + 1 := by omega
      rw [hmod, hexp, Nat.pow_succ 2 k]; omega

/-- The exponent that the rounding takes for num / den. -/
def roundExp (n d : Nat) : Nat := Nat.log2 (n / d) - 23

/-- The significand of num / den, cut to an integer. -/
def roundSig (n d : Nat) : Nat := n / (d * 2 ^ roundExp n d)

theorem f32RoundMag_eq (n d : Nat) :
    f32RoundMag n d = min (roundExp n d * 2 ^ 23 + roundHalfEven n (d * 2 ^ roundExp n d)) f32InfBits := rfl

/-- The significand has at most 24 bits. -/
theorem roundSig_lt (n d : Nat) : roundSig n d < 2 ^ 24 := by
  have hlog : n / d < 2 ^ (Nat.log2 (n / d) + 1) := Nat.lt_log2_self
  have hexp : Nat.log2 (n / d) + 1 ≤ 24 + roundExp n d := by unfold roundExp; omega
  rw [roundSig, ← Nat.div_div_eq_div_mul, Nat.div_lt_iff_lt_mul (Nat.two_pow_pos _), ← Nat.pow_add]
  exact Nat.lt_of_lt_of_le hlog (Nat.pow_le_pow_right (by decide) hexp)

/-- The significand has all 24 bits, but where the exponent is the smallest. -/
theorem le_roundSig (n d : Nat) : roundExp n d = 0 ∨ 2 ^ 23 ≤ roundSig n d := by
  rcases Nat.eq_zero_or_pos (roundExp n d) with h0 | hpos
  · exact .inl h0
  · have hexp : 23 + roundExp n d = Nat.log2 (n / d) := by unfold roundExp at hpos ⊢; omega
    have hn : n / d ≠ 0 := by
      intro h0
      rw [roundExp, h0] at hpos
      simp at hpos
    rw [roundSig, ← Nat.div_div_eq_div_mul, Nat.le_div_iff_mul_le (Nat.two_pow_pos _), ← Nat.pow_add, hexp]
    exact .inr (Nat.log2_self_le hn)

/-- The pattern just below num / den. -/
def lowerPattern (n d : Nat) : Nat := roundExp n d * 2 ^ 23 + roundSig n d

theorem lowerPattern_value (n d : Nat) : d * f32Value (lowerPattern n d) = d * 2 ^ roundExp n d * roundSig n d := by
  rw [lowerPattern, f32Value_scaled _ _ (Nat.le_of_lt (roundSig_lt n d)) (le_roundSig n d)]
  ring

theorem lowerPattern_succ_value (n d : Nat) :
    d * f32Value (lowerPattern n d + 1) = d * 2 ^ roundExp n d * roundSig n d + d * 2 ^ roundExp n d := by
  have hsig : roundSig n d + 1 ≤ 2 ^ 24 := roundSig_lt n d
  rw [lowerPattern, Nat.add_assoc, f32Value_scaled _ _ hsig ((le_roundSig n d).imp_right (by omega))]
  ring

/-! The rounding. -/

/-- Rounding to an integer takes the quotient, or the next integer, by the remainder and the quotient's parity. -/
theorem roundHalfEven_cases (n d : Nat) :
    (roundHalfEven n d = n / d ∧ (2 * (n % d) < d ∨ 2 * (n % d) = d ∧ n / d % 2 = 0)) ∨
    (roundHalfEven n d = n / d + 1 ∧ (d < 2 * (n % d) ∨ 2 * (n % d) = d ∧ n / d % 2 = 1)) := by
  unfold roundHalfEven
  split
  · omega
  · split <;> omega

/-- The rounding gives the nearest pattern, ties to even, subnormals honoured and overflow to infinity. -/
theorem f32RoundMag_nearestEven (n d : Nat) (hd : 0 < d) : NearestEven n d (f32RoundMag n d) := by
  have hround := roundHalfEven_cases n (d * 2 ^ roundExp n d)
  have hsplit := Nat.div_add_mod n (d * 2 ^ roundExp n d)
  have hmod := Nat.mod_lt n (Nat.mul_pos hd (Nat.two_pow_pos (roundExp n d)))
  rw [← roundSig] at hround hsplit
  have hlow := lowerPattern_value n d
  have hhigh := lowerPattern_succ_value n d
  have hpat : lowerPattern n d = roundExp n d * 2 ^ 23 + roundSig n d := rfl
  rw [f32RoundMag_eq]
  rcases Nat.lt_or_ge (lowerPattern n d) f32InfBits with hfin | hover
  · rw [Nat.min_eq_left (by omega)]
    refine nearestEven_of_neighbours n d (lowerPattern n d) _ hd (by omega) (by omega) hfin ?_
    unfold PreferredTo
    rw [f32Distance_of_le n d _ (by omega), f32Distance_of_ge n d _ (by omega)]
    omega
  · rw [Nat.min_eq_right (by omega)]
    refine nearestEven_infinity n d hd ?_
    calc d * f32Value f32InfBits
        ≤ d * f32Value (lowerPattern n d) := Nat.mul_le_mul_left d ((f32Value_le_iff _ _).mpr hover)
      _ ≤ n := by omega

/-! The operations. -/

/-- A sign packed with a rounded magnitude: both read back. -/
theorem f32Pack_nearestEven (neg : Bool) (n d : Nat) (hd : 0 < d) :
    NearestEven n d (f32MagBits (f32Pack neg (f32RoundMag n d))) ∧ f32Sign (f32Pack neg (f32RoundMag n d)) = neg := by
  rw [f32MagBits_pack _ _ (f32RoundMag_lt n d), f32Sign_pack _ _ (f32RoundMag_lt n d)]
  exact ⟨f32RoundMag_nearestEven n d hd, rfl⟩

/-- The sign of a difference of finite values that are not equal. -/
theorem f32Sign_fsub (a b : Word) (ha : f32Finite a = true) (hb : f32Finite b = true) (hne : f32Units a ≠ f32Units b) :
    f32Sign (fsub a b) = decide (f32Units a < f32Units b) := by
  rw [fsub_finite a b ha hb, if_neg (by omega), f32Sign_pack _ _ (f32RoundMag_lt _ _), decide_eq_decide]
  omega

/-- Settles O30: each operation packs a sign and one rounding of the exact result. -/
theorem floatOperationsRounded : Obligations.FloatOperationsRounded := by
  intro a b ha hb
  have hsub : NearestEven (f32Units a - f32Units b).natAbs 1 (f32MagBits (fsub a b)) := by
    rw [f32MagBits_fsub a b ha hb]
    exact f32RoundMag_nearestEven _ 1 Nat.one_pos
  have hzero : f32Units a = f32Units b → f32MagBits (fsub a b) = 0 := fun heq => by
    rw [f32MagBits_fsub a b ha hb, heq, Int.sub_self]
    exact f32RoundMag_zero 1
  have hmul : NearestEven (f32Mag a * f32Mag b) (2 ^ 149) (f32MagBits (fmul a b)) ∧
      f32Sign (fmul a b) = (f32Sign a != f32Sign b) := by
    rw [fmul_finite a b ha hb]
    exact f32Pack_nearestEven _ _ _ (Nat.two_pow_pos 149)
  refine ⟨fun hne => ⟨hsub, f32Sign_fsub a b ha hb hne⟩, hzero, hmul.1, hmul.2, fun hb0 => ?_⟩
  rw [fdiv_finite a b ha hb (mt (f32Mag_eq_zero_iff b).mpr hb0)]
  exact f32Pack_nearestEven _ _ _ (Nat.pos_of_ne_zero hb0)

end Sys2Proof.Proofs.Float32

/-! The register file as the host sees it: the register behind each of the 48 slots, what RD returns and WR stores, and the fields
of STATUS and CAPS (10_state.md R22 to R34). -/

namespace Sys2Proof.Proofs.Registers

open Sys2Proof Sys2Proof.Machine

/-! Slots. -/

theorem isSlotOffset_iff (offset : Slot) : isSlotOffset offset = true ↔ offset.toNat % 8 = 0 ∧ offset.toNat < 0x180 := by
  simp [isSlotOffset]

theorem slotOffset_toNat {n : Nat} (h : n < 48) : (slotOffset n).toNat = 8 * n := by
  rw [slotOffset, BitVec.toNat_ofNat]
  omega

theorem regAt_slotOffset {n : Nat} (h : n < 48) : regAt (slotOffset n) = some (regOfSlot n) := by
  have hn := slotOffset_toNat h
  rw [regAt, if_pos ((isSlotOffset_iff _).mpr (by omega)), hn, Nat.mul_div_cancel_left n (by decide)]

theorem descSlot_lt (p : PlaneId) {k : Nat} (h : k < 8) : descSlot p k < 48 := by
  have hp : planeIndex p ≤ 3 := by cases p <;> decide
  simp only [descSlot]
  omega

theorem regOfSlot_descSlot (p : PlaneId) {k : Nat} (h : k < 8) : regOfSlot (descSlot p k) = descReg p k := by
  have hall : ∀ k < 8, regOfSlot (descSlot p k) = descReg p k := by cases p <;> decide
  exact hall k h

/-- RD of a slot returns its register and changes nothing else (10_state.md R22, R34). -/
theorem readsAs_slot (s : State) {n : Nat} (h : n < 48) : ReadsAs s n (readReg s (regOfSlot n)) :=
  (execRd_next_iff _ _ _).mpr ⟨_, regAt_slotOffset h, rfl⟩

theorem readsAs_descSlot (s : State) (p : PlaneId) {k : Nat} (h : k < 8) :
    ReadsAs s (descSlot p k) (readReg s (descReg p k)) := by
  rw [← regOfSlot_descSlot p h]
  exact readsAs_slot s (descSlot_lt p h)

/-- WR of a slot other than CMD writes its register (10_state.md R22, R33, R34). -/
theorem writesTo_slot (s : State) {n : Nat} (h : n < 48) (hc : regOfSlot n ≠ .cmd) (data : Slot) :
    WritesTo s n data (writeReg s (regOfSlot n) data) :=
  (execWr_next_iff _ _ _ _).mpr ⟨_, regAt_slotOffset h, .inr ⟨hc, rfl⟩⟩

/-! What a slot write does in each access class. -/

theorem writeReg_readOnly {s : State} {r : Reg} (data : Slot) (h : accessOf r = .readOnly) : writeReg s r data = s := by
  simp [writeReg, h]

theorem writeReg_whileUnconfigured {s : State} {r : Reg} (data : Slot) (h : accessOf r = .whileUnconfigured) :
    writeReg s r data = if s.run = .unconfigured then storeReg s data r else s := by
  simp [writeReg, h]

theorem writeReg_unlessBusy {s : State} {r : Reg} (data : Slot) (h : accessOf r = .unlessBusy) :
    writeReg s r data = if s.run = .busy then s else storeReg s data r := by
  simp [writeReg, h]

theorem writesTo_readOnly (s : State) {n : Nat} (h : n < 48) (ha : accessOf (regOfSlot n) = .readOnly) (data : Slot) :
    WritesTo s n data s := by
  have hw := writesTo_slot s h (by rintro hc; rw [hc] at ha; cases ha) data
  rwa [writeReg_readOnly data ha] at hw

theorem writesTo_option {s : State} {n : Nat} (h : n < 48) (ha : accessOf (regOfSlot n) = .whileUnconfigured)
    (hu : s.run = .unconfigured) (data : Slot) : WritesTo s n data (storeReg s data (regOfSlot n)) := by
  have hw := writesTo_slot s h (by rintro hc; rw [hc] at ha; cases ha) data
  rwa [writeReg_whileUnconfigured data ha, if_pos hu] at hw

theorem writesTo_option_locked {s : State} {n : Nat} (h : n < 48) (ha : accessOf (regOfSlot n) = .whileUnconfigured)
    (hu : s.run ≠ .unconfigured) (data : Slot) : WritesTo s n data s := by
  have hw := writesTo_slot s h (by rintro hc; rw [hc] at ha; cases ha) data
  rwa [writeReg_whileUnconfigured data ha, if_neg hu] at hw

/-- The six registers of a descriptor block share their access class (10_state.md R22). -/
theorem accessOf_descReg (p : PlaneId) {k : Nat} (h : k < 6) : accessOf (descReg p k) = .unlessBusy := by
  have hall : ∀ k < 6, accessOf (descReg p k) = .unlessBusy := by cases p <;> decide
  exact hall k h

theorem writesTo_descSlot (s : State) (p : PlaneId) {k : Nat} (h : k < 6) (data : Slot) :
    WritesTo s (descSlot p k) data (if s.run = .busy then s else storeReg s data (descReg p k)) := by
  have hr := regOfSlot_descSlot p (show k < 8 by omega)
  have ha := accessOf_descReg p h
  have hw := writesTo_slot s (descSlot_lt p (show k < 8 by omega)) (by rintro hc; rw [← hr, hc] at ha; cases ha) data
  rwa [hr, writeReg_unlessBusy data ha] at hw

/-! What a stored write changes. -/

/-- Nothing but the seven option registers differs (10_state.md R26 to R30). -/
def OnlyOptions (s t : State) : Prop :=
  t = { s with
    thrLow := t.thrLow, thrHigh := t.thrHigh, modeY := t.modeY, modeU := t.modeU, modeV := t.modeV
    capReq := t.capReq, fmt := t.fmt }

theorem storeReg_onlyOptions (s : State) (data : Slot) {r : Reg} (h : accessOf r = .whileUnconfigured) :
    OnlyOptions s (storeReg s data r) := by
  cases r <;> cases h <;> rfl

theorem storeReg_withDesc (s : State) (data : Slot) {r : Reg} (h : accessOf r = .unlessBusy) :
    ∃ p ds, storeReg s data r = s.withDesc p ds := by
  cases r <;> cases h <;> exact ⟨_, _, rfl⟩

/-- A stored write keeps STATE, plane memory and the straps. -/
theorem storeReg_keeps (s : State) (data : Slot) (r : Reg) :
    (storeReg s data r).run = s.run ∧ (storeReg s data r).mem = s.mem ∧ (storeReg s data r).hwcap = s.hwcap ∧
      (storeReg s data r).threadClass = s.threadClass := by
  cases r with
  | srcBase p | dstBase p | srcPitch p | dstPitch p | width p | height p =>
    exact ⟨withDesc_run _ _ _, withDesc_mem _ _ _, withDesc_hwcap _ _ _, withDesc_threadClass _ _ _⟩
  | _ => exact ⟨rfl, rfl, rfl, rfl⟩

/-- FMT stores 13 bits (10_state.md R30, 30_encoding.md R116). -/
theorem fmtStored_eq (data : Slot) : fmtStored data = BitVec.ofNat 32 (data.toNat % 2 ^ 13) := by
  apply BitVec.eq_of_toNat_eq
  simp [fmtStored]

theorem fmtStored_lt (data : Slot) : (fmtStored data).toNat < 2 ^ 13 := by
  rw [fmtStored_eq, BitVec.toNat_ofNat]
  omega

/-- A stored write leaves the reserved bits of FMT 0. -/
theorem storeReg_fmt_lt (s : State) (data : Slot) {r : Reg} (h : accessOf r = .whileUnconfigured)
    (hs : s.fmt.toNat < 2 ^ 13) : (storeReg s data r).fmt.toNat < 2 ^ 13 := by
  cases r <;> cases h
  case fmt => exact fmtStored_lt data
  all_goals exact hs

/-! The settled statements about slots. -/

/-- Settles O8: each slot reads as its register. -/
theorem registerMap : Obligations.RegisterMap := by
  intro s
  have hslot : ∀ n < 48, ReadsAs s n (readReg s (regOfSlot n)) := fun n h => readsAs_slot s h
  have hdesc : ∀ p, ∀ k < 8, ReadsAs s (descSlot p k) (readReg s (descReg p k)) := fun p k h => readsAs_descSlot s p h
  exact ⟨hslot 0 (by decide), hslot 1 (by decide), hslot 2 (by decide), hslot 3 (by decide), hslot 4 (by decide),
    hslot 5 (by decide), hslot 6 (by decide), hslot 7 (by decide), hslot 8 (by decide), hslot 9 (by decide),
    hslot 10 (by decide), hslot 11 (by decide), hslot 12 (by decide), hslot 13 (by decide), hslot 14 (by decide),
    hslot 15 (by decide), fun p => ⟨hdesc p 0 (by decide), hdesc p 1 (by decide), hdesc p 2 (by decide),
      hdesc p 3 (by decide), hdesc p 4 (by decide), hdesc p 5 (by decide), hdesc p 6 (by decide), hdesc p 7 (by decide)⟩⟩

/-- Settles O11: in UNCONFIGURED each option register is stored. -/
theorem configurationWritesStore : Obligations.ConfigurationWritesStore := by
  intro s data hu
  have hstore : ∀ n < 48, accessOf (regOfSlot n) = .whileUnconfigured → WritesTo s n data (storeReg s data (regOfSlot n)) :=
    fun n h ha => writesTo_option h ha hu data
  refine ⟨hstore 3 (by decide) rfl, hstore 4 (by decide) rfl, hstore 5 (by decide) rfl, hstore 6 (by decide) rfl,
    hstore 7 (by decide) rfl, hstore 8 (by decide) rfl, ?_⟩
  rw [← fmtStored_eq]
  exact hstore 9 (by decide) rfl

/-- Settles O12: outside BUSY each descriptor register is stored. -/
theorem descriptorWritesStore : Obligations.DescriptorWritesStore := by
  intro s data p hb
  have hstore : ∀ k < 6, WritesTo s (descSlot p k) data (storeReg s data (descReg p k)) := fun k h => by
    have hw := writesTo_descSlot s p h data
    rwa [if_neg hb] at hw
  exact ⟨hstore 0 (by decide), hstore 1 (by decide), hstore 2 (by decide), hstore 3 (by decide), hstore 4 (by decide),
    hstore 5 (by decide)⟩

/-- Settles O13: a locked register keeps its value. -/
theorem lockedWritesIgnored : Obligations.LockedWritesIgnored := by
  intro s data
  refine ⟨fun hrun n hn => ?_, fun hb p k hk => ?_⟩
  · have hclass : ∀ n ∈ [3, 4, 5, 6, 7, 8, 9], n < 48 ∧ accessOf (regOfSlot n) = .whileUnconfigured := by decide
    obtain ⟨hlt, ha⟩ := hclass n hn
    exact writesTo_option_locked hlt ha (by rintro hu; simp [hu] at hrun) data
  · have hlt : ∀ k ∈ [0, 1, 2, 3, 4, 5], k < 6 := by decide
    have hw := writesTo_descSlot s p (hlt k hk) data
    rwa [if_pos hb] at hw

/-- Settles O14: the access classes of the slots, and the guard on the offset in the decoder, WR and RD. -/
theorem registerSpace : Obligations.RegisterSpace := by
  intro s offset data
  refine ⟨fun n hn => ?_, fun n hn => ?_, fun hout => ?_, fun bytes => rfl, fun hlt hmod => ?_⟩
  · have hclass : ∀ n ∈ [1, 2, 10, 11, 12, 13, 14, 15, 22, 23, 30, 31, 38, 39, 46, 47],
        n < 48 ∧ accessOf (regOfSlot n) = .readOnly := by decide
    obtain ⟨hlt, ha⟩ := hclass n hn
    exact writesTo_readOnly s hlt ha data
  · have hclass : ∀ n ∈ [0, 15, 22, 23, 30, 31, 38, 39, 46, 47],
        n < 48 ∧ (regOfSlot n = .cmd ∨ regOfSlot n = .reserved) := by decide
    obtain ⟨hlt, hr⟩ := hclass n hn
    have hread := readsAs_slot s hlt
    rcases hr with hr | hr <;> rw [hr] at hread <;> exact hread
  · have hslot : isSlotOffset offset = false := by
      rw [← Bool.not_eq_true, isSlotOffset_iff]
      omega
    have hnone := (regAt_none_iff offset).mpr hslot
    simp only [exec, execWr, execRd, hnone, decode, decodeWrite, hslot, Bool.false_eq_true, if_false, and_self]
  · have hreg : regAt offset = some (regOfSlot (offset.toNat / 8)) := if_pos ((isSlotOffset_iff _).mpr ⟨hmod, hlt⟩)
    exact ⟨_, (execRd_next_iff _ _ _).mpr ⟨_, hreg, rfl⟩⟩

/-! Writes to CMD. -/

theorem commandCode_eq_iff (data : Slot) (code : BitVec 8) : commandCode data = code ↔ data.toNat % 256 = code.toNat := by
  rw [← BitVec.toNat_inj, commandCode, BitVec.toNat_setWidth]

/-- A write to CMD runs the command of its low 8 bits (10_state.md R23). -/
theorem exec_wr_cmd (data : Slot) (s : State) : exec (.wr 0x000 data) s = writeCommand data s := rfl

/-- Settles O15: the command codes, and the states that accept each command. -/
theorem commandWrites : Obligations.CommandWrites := by
  intro s data
  have hcode := commandCode_eq_iff data
  simp only [exec_wr_cmd]
  refine ⟨fun h => ?_, fun h => ?_, fun h1 h2 => ?_, fun hu => ?_, fun hr => ?_, rfl⟩
  · have h1 := (hcode 1).mpr h
    exact ⟨by simp [decode, decodeWrite, isSlotOffset, isCommandWrite, h1], by rw [writeCommand, if_pos h1]; rfl⟩
  · have h2 := (hcode 2).mpr h
    exact ⟨by simp [decode, decodeWrite, isSlotOffset, isCommandWrite, h2], by simp [writeCommand, h2, exec, execFrame]⟩
  · rw [writeCommand, if_neg (mt (hcode 1).mp h1), if_neg (mt (hcode 2).mp h2)]
  · exact congrArg Host.Outcome.next (if_neg hu)
  · exact if_neg hr

/-! STATUS and CAPS. -/

theorem tierCode_le (t : Tier) : tierCode t ≤ 3 := by cases t <;> decide

theorem runCode_le (r : RunState) : runCode r ≤ 3 := by cases r <;> decide

theorem statusWord_toNat (s : State) :
    ((statusWord s).setWidth 64).toNat = runCode s.run + 4 * tierCode s.backend + 16 * s.errCode.toNat := by
  have hr := runCode_le s.run
  have ht := tierCode_le s.backend
  have he := s.errCode.isLt
  rw [statusWord, BitVec.toNat_setWidth, BitVec.toNat_ofNat]
  omega

theorem capsWord_toNat (s : State) :
    ((capsWord s).setWidth 64).toNat = tierCode s.hwcap + 4 * s.threadClass.toNat := by
  have ht := tierCode_le s.hwcap
  have hc := s.threadClass.isLt
  rw [capsWord, BitVec.toNat_setWidth, BitVec.toNat_ofNat]
  omega

/-- Settles O9: the fields of the word, and what the invariant says of BACKEND and ERRCODE in each state. -/
theorem statusFields : Obligations.StatusFields := by
  intro s hinv
  refine ⟨writesTo_readOnly s (by decide) rfl, _, readsAs_slot s (by decide : 1 < 48), ?_⟩
  have hword := statusWord_toNat s
  have hr := runCode_le s.run
  have ht := tierCode_le s.backend
  have he := s.errCode.isLt
  have herr := hinv.errCode
  have hread : readReg s (regOfSlot 1) = (statusWord s).setWidth 64 := rfl
  rw [hread, hword]
  have hbackend : (runCode s.run + 4 * tierCode s.backend + 16 * s.errCode.toNat) / 4 % 4 = tierCode s.backend := by omega
  have hcode : (runCode s.run + 4 * tierCode s.backend + 16 * s.errCode.toNat) / 16 % 16 = s.errCode.toNat := by omega
  refine ⟨?_, ?_, hcode, by omega, fun hu => ?_, fun hc => ?_, fun hne => ?_, fun heq => ?_⟩
  · rw [show _ % 4 = runCode s.run by omega]
    rfl
  · rw [hbackend]
    rfl
  · rw [hbackend, (hinv.unconfigured hu).1]
    rfl
  · obtain ⟨d, -, -, hres⟩ := hinv.configured hc
    exact hres
  · rw [if_neg hne] at herr
    rw [hcode, herr]
    rfl
  · rw [if_pos heq] at herr
    rw [hcode]
    exact herr

/-! The registers after reset. -/

/-- In the machine after reset every register but CAPS reads 0 (10_state.md R50). -/
theorem readReg_reset {r : Reg} (h : r ≠ .caps) : readReg State.reset r = 0 := by
  cases r with
  | caps => exact absurd rfl h
  | srcBase p | dstBase p | srcPitch p | dstPitch p | width p | height p => cases p <;> rfl
  | _ => rfl

/-- The reset input leaves the registers of the machine after reset, but for the straps in CAPS (70_reset_and_hazards.md R302). -/
theorem readReg_resetOp (s : State) {r : Reg} (h : r ≠ .caps) : readReg (resetOp s) r = readReg State.reset r := by
  cases r with
  | caps => exact absurd rfl h
  | _ => rfl

theorem regOfSlot_ne_caps {n : Nat} (h : n < 48) (hn : n ≠ 2) : regOfSlot n ≠ .caps := by
  have hall : ∀ n < 48, n ≠ 2 → regOfSlot n ≠ .caps := by decide
  exact hall n h hn

/-- After reset the mode registers hold 0, which is no mode (60_exceptions.md R271). -/
theorem validateCode_resetOp (s : State) : validateCode (resetOp s) = 2 := by
  simp [validateCode, resetOp, State.reset, fmtLayout, isMode]

/-- Settles O48: the state reset leaves, register by register. -/
theorem resetRegisters : Obligations.ResetRegisters := by
  intro s
  refine ⟨resetOp s, rfl, rfl, rfl, fun n h hn => ?_, rfl, rfl, rfl, rfl, ?_⟩
  · have hcaps := regOfSlot_ne_caps h hn
    rw [← readReg_reset hcaps, ← readReg_resetOp s hcaps]
    exact readsAs_slot _ h
  · rcases configureOp_cases (resetOp s) with ⟨hu, -⟩ | ⟨-, -, hc⟩ | ⟨-, d, t, hv, -⟩
    · exact absurd rfl hu
    · rw [validateCode_resetOp] at hc
      exact congrArg Host.Outcome.next hc
    · exact absurd ((validateCode_eq_zero_iff _).mpr ⟨d, hv⟩) (by rw [validateCode_resetOp]; decide)

/-- Settles O50: the state the machine starts in, register by register. -/
theorem resetState : Obligations.ResetState := by
  refine ⟨fun n h hn => ?_, rfl, rfl, rfl, rfl⟩
  rw [← readReg_reset (regOfSlot_ne_caps h hn)]
  exact readsAs_slot _ h

end Sys2Proof.Proofs.Registers

/-! What operations leave alone: the plane operations change the datapath only, whatever the descriptors hold; no operation changes
a strap (10_state.md R25); and what the predicates on configurations and frames depend on. -/

namespace Sys2Proof.Proofs.Frames

open Sys2Proof Sys2Proof.Machine Sys2Proof.Proofs.Registers

/-! Operations that change the datapath only, on every descriptor. -/

theorem maskPixel_onlyDatapath (d : Domain) (p : PlaneId) (y x : Nat) (s : State) :
    OnlyDatapath s (maskPixel d p y x s) := rfl

theorem maskGroup_onlyDatapath (d : Domain) (p : PlaneId) (y x n : Nat) (s : State) :
    OnlyDatapath s (maskGroup d p y x n s) := rfl

theorem maskPixels_onlyDatapath (d : Domain) (p : PlaneId) (y x n : Nat) (s : State) :
    OnlyDatapath s (maskPixels d p y x n s) := by
  induction n generalizing x s with
  | zero => exact OnlyDatapath.refl s
  | succ n ih => exact (maskPixel_onlyDatapath d p y x s).trans (ih _ _)

theorem maskGroups_onlyDatapath (d : Domain) (p : PlaneId) (y n x k : Nat) (s : State) :
    OnlyDatapath s (maskGroups d p y n x k s) := by
  induction k generalizing x s with
  | zero => exact OnlyDatapath.refl s
  | succ k ih => exact (maskGroup_onlyDatapath d p y x n s).trans (ih _ _)

theorem rowOp_onlyDatapath (k : Tier) (d : Domain) (p : PlaneId) (y : Nat) (s : State) :
    OnlyDatapath s (rowOp k d p y s) := by
  cases k with
  | scalar => exact maskPixels_onlyDatapath _ _ _ _ _ _
  | tier1 | tier2 | tier3 =>
    exact (maskGroups_onlyDatapath _ _ _ _ _ _ _).trans (maskPixels_onlyDatapath _ _ _ _ _ _)

theorem maskRows_onlyDatapath (d : Domain) (p : PlaneId) (y n : Nat) (s : State) :
    OnlyDatapath s (maskRows d p y n s) := by
  induction n generalizing y s with
  | zero => exact OnlyDatapath.refl s
  | succ n ih => exact (rowOp_onlyDatapath _ d p y s).trans (ih _ _)

theorem kernelOp_onlyDatapath (d : Domain) (p : PlaneId) (s : State) : OnlyDatapath s (kernelOp d p s) := by
  have hinterior := (zrowOp_onlyDatapath d p 0 s).trans (maskRows_onlyDatapath d p 1 ((s.desc p).height.toNat - 2) _)
  unfold kernelOp
  simp only
  split
  · exact hinterior.trans (zrowOp_onlyDatapath _ _ _ _)
  · exact hinterior

theorem copyRows_onlyDatapath (d : Domain) (p : PlaneId) (y n : Nat) (s : State) :
    OnlyDatapath s (copyRows d p y n s) := by
  induction n generalizing y s with
  | zero => exact OnlyDatapath.refl s
  | succ n ih => exact (copyRow_onlyDatapath d p y s).trans (ih _ _)

theorem processGroup_onlyDatapath (d : Domain) (p : PlaneId) (y x n : Nat) (s : State) :
    OnlyDatapath s (processGroup d p y x n s) := by
  unfold processGroup
  split
  · exact withMem_onlyDatapath _ _
  · split
    · exact maskPixels_onlyDatapath _ _ _ _ _ _
    · exact maskGroup_onlyDatapath _ _ _ _ _ _

/-- A step of the sequencer at a position changes the datapath and goes to a next position (10_state.md R41). -/
theorem sequencerAt_onlyDatapath (d : Domain) (q : Pos) (s : State) :
    ∃ u next, sequencerAt d q s = goTo u next ∧ OnlyDatapath s u := by
  rcases sequencerAt_cases d q s with ⟨-, -, -, he⟩ | ⟨-, -, he⟩ | he
  · exact ⟨_, _, he, processGroup_onlyDatapath _ _ _ _ _ _⟩
  · exact ⟨_, _, he, copyRow_onlyDatapath _ _ _ _⟩
  · exact ⟨_, _, he, OnlyDatapath.refl s⟩

/-- Going to a position changes STATE and pos only. -/
theorem goTo_onlyDatapath {s u : State} (h : OnlyDatapath s u) (next : Option Pos) :
    OnlyDatapath s { goTo u next with run := s.run, pos := s.pos } := by
  unfold OnlyDatapath at *
  rw [h]
  rfl

theorem onPlane_onlyDatapath {p : PlaneId} {op : Domain → Host.Outcome State Fault Refusal} {s t : State}
    (hop : ∀ d, op d = .next t → OnlyDatapath s t) (h : onPlane p op s = .next t) : OnlyDatapath s t := by
  rcases (onPlane_next_iff p op s t).mp h with ⟨-, rfl⟩ | ⟨-, d, -, -, hd⟩
  · exact OnlyDatapath.refl _
  · exact hop d hd

theorem onColourPlane_onlyDatapath {p : PlaneId} {op : Domain → Host.Outcome State Fault Refusal} {s t : State}
    (hop : ∀ d, op d = .next t → OnlyDatapath s t) (h : onColourPlane p op s = .next t) : OnlyDatapath s t :=
  onPlane_onlyDatapath hop ((onColourPlane_next_iff p op s t).mp h).2

theorem copyPlane_onlyDatapath {p : PlaneId} {s t : State}
    (h : onPlane p (fun d => .next (copyOp d p s)) s = .next t) : OnlyDatapath s t :=
  onPlane_onlyDatapath (fun d hd => by cases hd; exact copyRows_onlyDatapath d p 0 _ s) h

theorem kernelPlane_onlyDatapath {p : PlaneId} {s t : State}
    (h : onColourPlane p (fun d => .next (kernelOp d p s)) s = .next t) : OnlyDatapath s t :=
  onColourPlane_onlyDatapath (fun d hd => by cases hd; exact kernelOp_onlyDatapath d p s) h

theorem rowForm_onlyDatapath {k : Tier} {p : PlaneId} {y : Word} {s t : State} (h : rowForm k p y s = .next t) :
    OnlyDatapath s t := by
  obtain ⟨-, ⟨-, rfl⟩ | ⟨d, -, -, rfl⟩⟩ := (rowForm_next_iff k p y s t).mp h
  · exact OnlyDatapath.refl _
  · exact rowOp_onlyDatapath _ _ _ _ _

/-! The straps. -/

/-- Both straps of CAPS are kept (10_state.md R25). -/
def SameStraps (s t : State) : Prop := t.hwcap = s.hwcap ∧ t.threadClass = s.threadClass

theorem SameStraps.refl (s : State) : SameStraps s s := ⟨rfl, rfl⟩

theorem sameStraps_of_onlyDatapath {s t : State} (h : OnlyDatapath s t) : SameStraps s t := by
  unfold OnlyDatapath at h
  rw [h]
  exact SameStraps.refl s

theorem storeReg_sameStraps (s : State) (data : Slot) (r : Reg) : SameStraps s (storeReg s data r) := by
  obtain ⟨-, -, hw, hc⟩ := storeReg_keeps s data r
  exact ⟨hw, hc⟩

theorem configureOp_sameStraps (s : State) : SameStraps s (configureOp s) := by
  rcases configureOp_cases s with ⟨-, h⟩ | ⟨-, -, h⟩ | ⟨-, d, t, -, -, h⟩ <;> rw [h] <;> exact ⟨rfl, rfl⟩

theorem frameOp_sameStraps {s t : State} (h : frameOp s = .next t) : SameStraps s t := by
  rcases (frameOp_next_iff s t).mp h with ⟨-, rfl⟩ | ⟨-, d, -, -, rfl⟩
  · exact SameStraps.refl _
  · exact ⟨rfl, rfl⟩

theorem execWr_sameStraps {offset data : Slot} {s t : State} (h : execWr offset data s = .next t) : SameStraps s t := by
  obtain ⟨r, -, ⟨-, hw⟩ | ⟨-, rfl⟩⟩ := (execWr_next_iff offset data s t).mp h
  · unfold writeCommand at hw
    split at hw
    · cases hw
      exact configureOp_sameStraps s
    · split at hw
      · exact frameOp_sameStraps hw
      · cases hw
        exact SameStraps.refl s
  · rcases writeReg_cases s r data with ⟨hr, -⟩ | hr <;> rw [hr]
    · exact storeReg_sameStraps s data r
    · exact SameStraps.refl s

theorem whileUnconfigured_sameStraps {op : State → State} (hop : ∀ s, SameStraps s (op s)) {s t : State}
    (h : whileUnconfigured op s = .next t) : SameStraps s t := by
  rcases (whileUnconfigured_eq op s t).mp h with ⟨-, rfl⟩ | ⟨-, rfl⟩
  · exact hop s
  · exact SameStraps.refl _

theorem resolveOp_sameStraps (req : Int) (s : State) : SameStraps s (resolveOp req s) := by
  unfold resolveOp
  split <;> exact ⟨rfl, rfl⟩

theorem deriveOp_sameStraps (s : State) : SameStraps s (deriveOp s) := by
  unfold deriveOp
  split <;> exact ⟨rfl, rfl⟩

/-- No operation changes a strap (10_state.md R25, 70_reset_and_hazards.md R302). -/
theorem exec_sameStraps {i : Instr} {s t : State} (h : exec i s = .next t) : SameStraps s t := by
  cases i with
  | configure =>
    cases h
    exact configureOp_sameStraps s
  | frame => exact frameOp_sameStraps h
  | reset =>
    cases h
    exact ⟨rfl, rfl⟩
  | wr offset data => exact execWr_sameStraps h
  | rd offset =>
    obtain ⟨r, -, rfl⟩ := (execRd_next_iff offset s t).mp h
    exact ⟨rfl, rfl⟩
  | capAuto | capScalar | capTier1 | capTier2 | capTier3 | resolve =>
    exact whileUnconfigured_sameStraps (resolveOp_sameStraps _) h
  | validate =>
    exact whileUnconfigured_sameStraps (op := fun t => t.withResult (BitVec.ofNat 64 (validateCode t)))
      (fun _ => ⟨rfl, rfl⟩) h
  | derive => exact whileUnconfigured_sameStraps deriveOp_sameStraps h
  | untouched p =>
    simp only [exec, execUntouched] at h
    split at h <;> cases h
    exact SameStraps.refl s
  | copy p => exact sameStraps_of_onlyDatapath (copyPlane_onlyDatapath h)
  | process p | kernel p => exact sameStraps_of_onlyDatapath (kernelPlane_onlyDatapath h)
  | alphaCopy =>
    simp only [exec, execAlphaCopy] at h
    split at h
    · exact sameStraps_of_onlyDatapath (copyPlane_onlyDatapath h)
    · cases h
      exact SameStraps.refl s
  | pixU8 | pixU16b10 | pixU16b12 | pixU16b14 | pixU16b16 | pixF32 =>
    cases h
    exact ⟨rfl, rfl⟩
  | rowScalar p y | rowT1 p y | rowT2 p y | rowT3 p y => exact sameStraps_of_onlyDatapath (rowForm_onlyDatapath h)
  | zrow p y =>
    refine sameStraps_of_onlyDatapath (onColourPlane_onlyDatapath (fun d hd => ?_) h)
    split at hd <;> cases hd
    exact zrowOp_onlyDatapath _ _ _ _
  | vpix =>
    simp only [exec, execVpix] at h
    split at h <;> cases h
    exact ⟨rfl, rfl⟩

theorem sequencerStep_sameStraps {s t : State} (h : sequencerStep s = .next t) : SameStraps s t := by
  rcases (sequencerStep_next_iff s t).mp h with ⟨-, rfl⟩ | ⟨-, -, rfl⟩ | ⟨-, q, d, -, -, -, rfl⟩
  · exact SameStraps.refl _
  · exact ⟨rfl, rfl⟩
  · obtain ⟨u, next, he, hu⟩ := sequencerAt_onlyDatapath d q s
    rw [he]
    obtain ⟨hw, hc⟩ := sameStraps_of_onlyDatapath hu
    exact ⟨hw, hc⟩

theorem hostStep_sameStraps {e : HostEvent} {s t : State} (h : hostStep e s = .next t) : SameStraps s t := by
  cases e with
  | request r =>
    simp only [hostStep] at h
    split at h
    · exact exec_sameStraps h
    · cases h
  | memWrite addr b =>
    obtain ⟨-, -, rfl⟩ := (hostWrite_next_iff addr b s t).mp h
    exact ⟨rfl, rfl⟩
  | memRead addr =>
    obtain ⟨-, ⟨-, -, rfl⟩ | ⟨-, rfl⟩⟩ := (hostRead_next_iff addr s t).mp h <;> exact ⟨rfl, rfl⟩

theorem step_sameStraps {s t : State} (h : step s = .next t) : SameStraps s t := by
  rcases step_cases s with ⟨q, -, hst, -⟩ | ⟨e, rest, -, -, hst⟩ <;> rw [hst] at h
  · obtain ⟨hw, hc⟩ := sequencerStep_sameStraps h
    exact ⟨hw, hc⟩
  · obtain ⟨hw, hc⟩ := hostStep_sameStraps h
    exact ⟨hw, hc⟩

/-- Settles O10: the fields of the word; no operation and no step of the sequencer changes a strap. -/
theorem capsFields : Obligations.CapsFields := by
  intro s
  refine ⟨writesTo_readOnly s (by decide) rfl, ⟨_, readsAs_slot s (by decide : 2 < 48), ?_⟩, fun t h => step_sameStraps h⟩
  have hread : readReg s (regOfSlot 2) = (capsWord s).setWidth 64 := rfl
  have ht := tierCode_le s.hwcap
  have hc := s.threadClass.isLt
  rw [hread, capsWord_toNat s]
  refine ⟨?_, by omega, by omega⟩
  rw [show _ % 4 = tierCode s.hwcap by omega]
  rfl

/-! What the predicates on configurations and frames depend on. -/

/-- The configuration, what CONFIGURE made of it, HWCAP and the descriptors: what a FRAME runs on (43_dispatch.md R240). -/
structure SameSetup (s t : State) : Prop where
  config : SameConfiguration s t
  hwcap : t.hwcap = s.hwcap
  desc : ∀ p, t.desc p = s.desc p

theorem sameConfiguration_refl (s : State) : SameConfiguration s s := by simp [SameConfiguration]

theorem sameConfiguration_of_onlyDatapath {s t : State} (h : OnlyDatapath s t) : SameConfiguration s t := by
  unfold OnlyDatapath at h
  rw [h]
  exact sameConfiguration_refl s

theorem sameSetup_of_onlyDatapath {s t : State} (h : OnlyDatapath s t) : SameSetup s t :=
  ⟨sameConfiguration_of_onlyDatapath h, And.left (sameStraps_of_onlyDatapath h), h.desc⟩

theorem SameSetup.goTo {s t : State} (h : SameSetup s t) (next : Option Pos) : SameSetup s (goTo t next) :=
  ⟨h.config, h.hwcap, fun p => (goTo_desc t next p).trans (h.desc p)⟩

section

variable {s t : State} (h : SameConfiguration s t)

include h

theorem isAccessed_congr (p : PlaneId) : isAccessed t p = isAccessed s p := by
  obtain ⟨-, -, hy, hu, hv, -, hf, -⟩ := h
  have hpresent : isPresent t p = isPresent s p := by cases p <;> simp [isPresent, hf]
  have hmode : effMode t p = effMode s p := by cases p <;> simp [effMode, hy, hu, hv]
  rw [isAccessed, isAccessed, hpresent, hmode]

theorem fmt_congr : t.fmt = s.fmt := by
  obtain ⟨-, -, -, -, -, -, hf, -⟩ := h
  exact hf

theorem backend_congr : t.backend = s.backend := by
  obtain ⟨-, -, -, -, -, -, -, -, -, -, -, -, hback⟩ := h
  exact hback

theorem domainOf_congr : domainOf t = domainOf s := congrArg domainOfFmt (fmt_congr h)

theorem validConfig_congr (hw : t.hwcap = s.hwcap) (d : Domain) : ValidConfig t d ↔ ValidConfig s d := by
  have hd := domainOf_congr h
  obtain ⟨hlo, hhi, hy, hu, hv, hc, hf, -⟩ := h
  simp only [ValidConfig, ModesInRange, ThresholdsInRange, RequestKnown, RequestSupported, hd, hlo, hhi, hy, hu, hv, hc, hf, hw]

theorem constsDerived_congr (d : Domain) : ConstsDerived t d ↔ ConstsDerived s d := by
  obtain ⟨hlo, hhi, -, -, -, -, -, hp, hsc, hsh, hl, hh, -⟩ := h
  simp only [ConstsDerived, hlo, hhi, hp, hsc, hsh, hl, hh]

theorem constsZero_congr : ConstsZero t ↔ ConstsZero s := by
  obtain ⟨-, -, -, -, -, -, -, hp, hsc, hsh, hl, hh, -⟩ := h
  simp only [ConstsZero, hp, hsc, hsh, hl, hh]

theorem resolvesTo_congr (hw : t.hwcap = s.hwcap) (k : Tier) : ResolvesTo t k ↔ ResolvesTo s k := by
  obtain ⟨-, -, -, -, -, hc, -⟩ := h
  simp only [ResolvesTo, hc, hw]

end

section

variable {s t : State} (h : SameSetup s t)

include h

theorem frameValid_congr (d : Domain) : frameValid d t = frameValid d s := by
  have ha : isAccessed t = isAccessed s := funext (isAccessed_congr h.config)
  simp only [frameValid, accessedPlanes, ha, h.desc]

theorem hasWork_congr (p : PlaneId) : hasWork t p = hasWork s p := by
  simp only [hasWork, isAccessed_congr h.config, h.desc]

theorem posInPlane_congr (q : Pos) : PosInPlane t q ↔ PosInPlane s q := by
  simp only [PosInPlane, hasWork_congr h, h.desc]

end

end Sys2Proof.Proofs.Frames

/-! What a step can do when only the host's events are pending: the sequencer moves, or one of the host's events happens
(10_state.md R20, 43_dispatch.md R252). Every claim about all steps is a case split along `HostAction`. -/

namespace Sys2Proof.Proofs.HostActions

open Sys2Proof Sys2Proof.Machine Sys2Proof.Proofs.Registers Sys2Proof.Proofs.Frames

/-! What the host's requests decode to. -/

theorem isCommandWrite_iff (offset data : Slot) :
    isCommandWrite offset data = true ↔ offset = 0 ∧ (commandCode data = 1 ∨ commandCode data = 2) := by
  simp [isCommandWrite]

/-- A write decodes to a command, or to a register write that is no command (30_encoding.md R102). -/
theorem decodeWrite_cases {offset data : Slot} {i : Instr} (h : decodeWrite offset data = .ok i) :
    i = .configure ∨ i = .frame ∨ (i = .wr offset data ∧ isCommandWrite offset data = false) := by
  unfold decodeWrite at h
  split at h
  · split at h
    · split at h <;> cases h
      · exact .inl rfl
      · exact .inr (.inl rfl)
    · rename_i hc
      cases h
      exact .inr (.inr ⟨rfl, by simpa using hc⟩)
  · cases h

/-- A request of the host decodes to one of the operations a host can invoke (43_dispatch.md R252). -/
theorem decode_isHost_cases {r : Request} {i : Instr} (hr : r.isHost = true) (h : decode r = .ok i) :
    i = .configure ∨ i = .frame ∨ (r = .rst ∧ i = .reset) ∨
      (∃ offset data, i = .wr offset data ∧ isCommandWrite offset data = false) ∨ ∃ offset, i = .rd offset := by
  cases r with
  | write offset data =>
    rcases decodeWrite_cases h with rfl | rfl | ⟨rfl, hc⟩
    · exact .inl rfl
    · exact .inr (.inl rfl)
    · exact .inr (.inr (.inr (.inl ⟨offset, data, rfl, hc⟩)))
  | read offset =>
    simp only [decode] at h
    split at h <;> cases h
    exact .inr (.inr (.inr (.inr ⟨offset, rfl⟩)))
  | narrow offset bytes => cases h
  | rst =>
    cases h
    exact .inr (.inr (.inl ⟨rfl, rfl⟩))
  | select offset word p y => cases hr
  | fixed op p y => cases hr

/-- CMD stands at offset 0 only (10_state.md R22). -/
theorem eq_zero_of_regAt_cmd {offset : Slot} (h : regAt offset = some .cmd) : offset = 0 := by
  unfold regAt at h
  split at h
  · rename_i hs
    obtain ⟨hmod, hlt⟩ := (isSlotOffset_iff offset).mp hs
    have hreg : ∀ n < 48, regOfSlot n = .cmd → n = 0 := by decide
    have hzero := hreg (offset.toNat / 8) (by omega) (Option.some.inj h)
    exact BitVec.eq_of_toNat_eq (by simp; omega)
  · cases h

/-! The host's events. -/

/-- What an event of the host does to the state in which it happens. -/
inductive HostAction (s : State) : HostEvent → State → Prop
  | configure {r : Request} (h : decode r = .ok .configure) : HostAction s (.request r) (configureOp s)
  | frame {r : Request} (h : decode r = .ok .frame) (hr : s.run = .ready) (d : Domain) (hd : domainOf s = some d)
      (hv : frameValid d s = true) : HostAction s (.request r) (goTo s (firstPos s allPlanes))
  | reset : HostAction s (.request .rst) (resetOp s)
  | storeOption (r : Request) (reg : Reg) (data : Slot) (ha : accessOf reg = .whileUnconfigured)
      (hu : s.run = .unconfigured) : HostAction s (.request r) (storeReg s data reg)
  | storeDesc (r : Request) (reg : Reg) (data : Slot) (ha : accessOf reg = .unlessBusy) (hb : s.run ≠ .busy) :
      HostAction s (.request r) (storeReg s data reg)
  | ignored (r : Request) : HostAction s (.request r) s
  | readReg (r : Request) (v : Slot) : HostAction s (.request r) (s.withResult v)
  | readByte (addr : Nat) (v : Slot) : HostAction s (.memRead addr) (s.withResult v)
  | readDraw (addr : Nat) (v : Slot) : HostAction s (.memRead addr) (s.withResult v).nextDraw
  | memWrite (addr : Nat) (b : Byte) (ha : addr < Config.planeMemoryEnd) :
      HostAction s (.memWrite addr b) (s.withMem (memSet s.mem addr b))

theorem hostAction_writeReg (r : Request) (reg : Reg) (data : Slot) (s : State) :
    HostAction s (.request r) (writeReg s reg data) := by
  rcases writeReg_cases s reg data with ⟨h, ⟨ha, hu⟩ | ⟨ha, hb⟩⟩ | h <;> rw [h]
  · exact .storeOption r reg data ha hu
  · exact .storeDesc r reg data ha hb
  · exact .ignored r

theorem hostAction_frameOp {r : Request} (hr : decode r = .ok .frame) {s t : State} (h : frameOp s = .next t) :
    HostAction s (.request r) t := by
  rcases (frameOp_next_iff s t).mp h with ⟨-, rfl⟩ | ⟨hrun, d, hd, hv, rfl⟩
  · exact .ignored r
  · exact .frame hr hrun d hd hv

/-- A register write that is no command is stored, or changes nothing. -/
theorem hostAction_execWr (r : Request) {offset data : Slot} (hc : isCommandWrite offset data = false) {s t : State}
    (h : execWr offset data s = .next t) : HostAction s (.request r) t := by
  obtain ⟨reg, hreg, ⟨rfl, hw⟩ | ⟨-, rfl⟩⟩ := (execWr_next_iff offset data s t).mp h
  · have hcode := mt (isCommandWrite_iff offset data).mpr (by simp [hc])
    rw [eq_zero_of_regAt_cmd hreg] at hcode
    unfold writeCommand at hw
    rw [if_neg (by tauto), if_neg (by tauto)] at hw
    cases hw
    exact .ignored r
  · exact hostAction_writeReg r reg data s

theorem hostAction_request {r : Request} (hr : r.isHost = true) {i : Instr} (hi : decode r = .ok i) {s t : State}
    (h : exec i s = .next t) : HostAction s (.request r) t := by
  rcases decode_isHost_cases hr hi with rfl | rfl | ⟨rfl, rfl⟩ | ⟨offset, data, rfl, hc⟩ | ⟨offset, rfl⟩
  · cases h
    exact .configure hi
  · exact hostAction_frameOp hi h
  · cases h
    exact .reset
  · exact hostAction_execWr r hc h
  · obtain ⟨reg, -, rfl⟩ := (execRd_next_iff offset s t).mp h
    exact .readReg r _

theorem hostAction_of_hostStep {e : HostEvent} (he : e.isHost = true) {s t : State} (h : hostStep e s = .next t) :
    HostAction s e t := by
  cases e with
  | request r =>
    simp only [hostStep] at h
    split at h
    · rename_i i hi
      exact hostAction_request he hi h
    · cases h
  | memWrite addr b =>
    obtain ⟨ha, -, rfl⟩ := (hostWrite_next_iff addr b s t).mp h
    exact .memWrite addr b ha
  | memRead addr =>
    obtain ⟨-, ⟨-, -, rfl⟩ | ⟨-, rfl⟩⟩ := (hostRead_next_iff addr s t).mp h
    · exact .readDraw addr _
    · exact .readByte addr _

/-- What a step can do when only the host's events are pending: a step of the sequencer, or an action of the host. Only the
host's events stay pending. -/
theorem step_hostOnly_cases {s t : State} (hs : HostOnly s = true) (h : step s = .next t) :
    ∃ q, HostOnly (s.withInbox q) = true ∧
      ((eventNow s = none ∧ sequencerStep (s.withInbox q) = .next t) ∨
       ∃ e, eventNow s = some e ∧ HostAction (s.withInbox q) e t) := by
  rcases step_cases s with ⟨q, he, hst, -, hq⟩ | ⟨e, rest, he, hin, hst⟩
  · rw [hst] at h
    exact ⟨q, hq hs, .inl ⟨he, h⟩⟩
  · have hall : e.isHost = true ∧ (rest.all fun e => e.event.isHost) = true := by
      simpa [HostOnly, hin] using hs
    rw [hst] at h
    exact ⟨rest, hall.2, .inr ⟨e, he, hostAction_of_hostStep hall.1 h⟩⟩

/-- Settles O7: the cases of the inbox, each with the meaning of the event that is due. -/
theorem stepRunsDecoded : Obligations.StepRunsDecoded := by
  intro s rest r
  refine ⟨fun i hin hi => ?_, fun why hin hwhy => ?_, fun n e hin => ?_, fun hin => ?_, fun nbits w i hi => ?_⟩
  · simp only [step, hin, hostStep, hi]
  · simp only [step, hin, hostStep, hwhy]
  · simp only [step, hin]
  · simp only [step, hin]
  · have hdec : decode (tableRequest nbits w) = .ok i := by
      unfold decodeTableWord at hi
      cases hd : decode (tableRequest nbits w) with
      | error why => rw [hd] at hi; cases hi
      | ok j => rw [hd] at hi; cases hi; rfl
    have hstep : step (s.withFetchWord nbits w) = hostStep (.request (tableRequest nbits w)) s := rfl
    rw [hstep]
    simp only [hostStep, hdec]

/-- Settles O57: each action but the commands and reset keeps STATE, and the sequencer leaves BUSY for READY only. -/
theorem onlyListedTransitions : Obligations.OnlyListedTransitions := by
  intro s t hs hstep hne
  obtain ⟨q, -, ⟨he, hseq⟩ | ⟨e, he, hact⟩⟩ := step_hostOnly_cases hs hstep
  · refine .inr (.inr (.inl ⟨he, ?_⟩))
    have hgoTo : ∀ u next, t = goTo u next → s.run = .busy → t.run = .ready := by
      rintro u next rfl hb
      cases next with
      | none => rfl
      | some pos => exact absurd hb.symm hne
    rcases (sequencerStep_next_iff _ _).mp hseq with ⟨-, rfl⟩ | ⟨hb, -, ht⟩ | ⟨hb, pos, d, -, -, -, ht⟩
    · exact absurd rfl hne
    · exact ⟨hb, hgoTo _ _ ht hb⟩
    · obtain ⟨u, next, hu, -⟩ := sequencerAt_onlyDatapath d pos (s.withInbox q)
      exact ⟨hb, hgoTo _ _ (ht.trans hu) hb⟩
  · cases hact with
    | @configure r hdec =>
      refine .inl ⟨r, he, hdec, ?_⟩
      rcases configureOp_cases (s.withInbox q) with ⟨-, ht⟩ | ⟨hu, -, ht⟩ | ⟨hu, d, k, -, -, ht⟩ <;> rw [ht] at hne ⊢
      · exact absurd rfl hne
      · exact ⟨hu, .inr rfl⟩
      · exact ⟨hu, .inl rfl⟩
    | @frame r hdec hr d hd hv =>
      refine .inr (.inl ⟨r, he, hdec, hr, ?_⟩)
      rw [goTo_run] at hne ⊢
      split at hne
      · rename_i hsome; rw [if_pos hsome]
      · exact absurd hr.symm hne
    | reset => exact .inr (.inr (.inr ⟨he, rfl⟩))
    | storeOption r reg data | storeDesc r reg data =>
      obtain ⟨hrun, -⟩ := storeReg_keeps (s.withInbox q) data reg
      exact absurd hrun hne
    | ignored | readReg | readByte | readDraw | memWrite => exact absurd rfl hne

end Sys2Proof.Proofs.HostActions

/-! Plane memory over a reset (70_reset_and_hazards.md R301): free values in the destination footprints of the running FRAME
only. -/

namespace Sys2Proof.Proofs.ResetMemory

open Sys2Proof Sys2Proof.Machine

theorem drawRows_wf (draw : Nat) (f : Foot) (y n : Nat) (m : List Host.Cell) (hm : Memory.wf m = true) :
    Memory.wf (drawRows draw f y n m) = true := by
  induction n generalizing y m with
  | zero => exact hm
  | succ n ih => exact ih _ _ (memDraw_wf _ _ _ _ hm)

theorem drawFoots_wf (draw : Nat) (fs : List Foot) (m : List Host.Cell) (hm : Memory.wf m = true) :
    Memory.wf (drawFoots draw fs m) = true := by
  induction fs generalizing m with
  | nil => exact hm
  | cons f fs ih => exact ih _ (drawRows_wf _ _ _ _ _ hm)

theorem memByte_drawRows_outside (draw : Nat) (f : Foot) (y n : Nat) (m : List Host.Cell) (a : Nat)
    (h : ∀ z, y ≤ z → z < y + n → a < f.base + z * f.pitch ∨ f.base + z * f.pitch + f.len ≤ a) :
    memByte (drawRows draw f y n m) a = memByte m a := by
  induction n generalizing y m with
  | zero => rfl
  | succ n ih =>
    simp only [drawRows]
    rw [ih _ _ fun z h1 h2 => h z (by omega) (by omega), memByte_memDraw_outside _ _ _ _ _ (h y (by omega) (by omega))]

theorem memByte_drawFoots_outside (draw : Nat) (fs : List Foot) (m : List Host.Cell) (a : Nat)
    (h : ∀ f ∈ fs, f.contains a = false) : memByte (drawFoots draw fs m) a = memByte m a := by
  induction fs generalizing m with
  | nil => rfl
  | cons f fs ih =>
    obtain ⟨hf, hfs⟩ := List.forall_mem_cons.mp h
    simp only [drawFoots]
    rw [ih _ hfs]
    exact memByte_drawRows_outside _ _ _ _ _ _ fun z _ hz => (Foot.not_contains_iff f a).mp hf z (by omega)

theorem memAfterReset_wf (s : State) (h : Memory.wf s.mem = true) : Memory.wf (memAfterReset s) = true := by
  unfold memAfterReset
  split
  · exact drawFoots_wf _ _ _ h
  · exact h

/-- A byte that a reset changes lies in a destination footprint of the FRAME it abandons. -/
theorem memAfterReset_changed {s : State} {a : Nat} (h : memByte (memAfterReset s) a ≠ memByte s.mem a) :
    s.run = .busy ∧ ∃ d, domainOf s = some d ∧ ∃ p ∈ accessedPlanes s,
      (dstFoot d (s.desc p)).contains a = true := by
  unfold memAfterReset at h
  split at h
  · rename_i d hb hd
    refine ⟨hb, d, hd, ?_⟩
    by_contra hout
    push Not at hout
    refine h (memByte_drawFoots_outside _ _ _ _ fun f hf => ?_)
    obtain ⟨p, hp, rfl⟩ := List.mem_map.mp hf
    exact Bool.eq_false_iff.mpr (hout p hp)
  · exact absurd rfl h

end Sys2Proof.Proofs.ResetMemory

/-! Where the sequencer of a BUSY block stands and goes next (10_state.md R40, R41). -/

namespace Sys2Proof.Proofs.Sequencer

open Sys2Proof Sys2Proof.Machine

/-! Planes with work. -/

theorem isAccessed_iff (s : State) (p : PlaneId) :
    isAccessed s p = true ↔ isPresent s p = true ∧ (effMode s p = 2 ∨ effMode s p = 3) := by
  simp [isAccessed]

theorem toNat_pos_iff (w : Word) : 0 < w.toNat ↔ w ≠ 0 := by
  rw [Nat.pos_iff_ne_zero, ne_eq, ne_eq, ← BitVec.toNat_inj]
  rfl

theorem hasWork_iff (s : State) (p : PlaneId) :
    hasWork s p = true ↔ isAccessed s p = true ∧ 0 < (s.desc p).width.toNat ∧ 0 < (s.desc p).height.toNat := by
  simp only [hasWork, Bool.and_eq_true, bne_iff_ne, toNat_pos_iff, and_assoc]

/-- The sequencer stands in a plane in Process or Copy mode. -/
theorem accessed_of_inPlane {s : State} {q : Pos} (hq : PosInPlane s q) :
    q.plane ∈ accessedPlanes s ∧ (effMode s q.plane = 2 ∨ effMode s q.plane = 3) := by
  obtain ⟨hwork, -⟩ := hq
  obtain ⟨hacc, -⟩ := (hasWork_iff s q.plane).mp hwork
  obtain ⟨-, hmode⟩ := (isAccessed_iff s q.plane).mp hacc
  exact ⟨(mem_accessedPlanes s q.plane).mpr hacc, hmode⟩

/-! The next position. -/

theorem firstPos_inPlane {s : State} {planes : List PlaneId} {q : Pos} (h : firstPos s planes = some q) :
    PosInPlane s q := by
  obtain ⟨-, hwork, hrow, hcol⟩ := firstPos_some s planes q h
  obtain ⟨-, hw, hh⟩ := (hasWork_iff s q.plane).mp hwork
  exact ⟨hwork, by omega, by omega⟩

theorem afterRow_inPlane {s : State} {p : PlaneId} (hp : hasWork s p = true) {y : Nat} {q : Pos}
    (h : afterRow s p y = some q) : PosInPlane s q := by
  obtain ⟨-, hw, -⟩ := (hasWork_iff s p).mp hp
  unfold afterRow at h
  split at h
  · rename_i hy
    cases h
    exact ⟨hp, hy, hw⟩
  · exact firstPos_inPlane h

theorem afterColumns_inPlane {s : State} {p : PlaneId} (hp : hasWork s p = true) {y x n : Nat}
    (hy : y < (s.desc p).height.toNat) {q : Pos} (h : afterColumns s p y x n = some q) : PosInPlane s q := by
  unfold afterColumns at h
  split at h
  · rename_i hx
    cases h
    exact ⟨hp, hy, hx⟩
  · exact afterRow_inPlane hp h

/-- The position after one step at q: one lane group on in a Process plane, one row on in a Copy plane. -/
def nextPos (d : Domain) (s : State) (q : Pos) : Option Pos :=
  if effMode s q.plane = 3 then
    afterColumns s q.plane q.row q.col (groupWidth s.backend d (s.desc q.plane).width.toNat q.col)
  else afterRow s q.plane q.row

theorem nextPos_inPlane {d : Domain} {s : State} {q q' : Pos} (hq : PosInPlane s q) (h : nextPos d s q = some q') :
    PosInPlane s q' := by
  obtain ⟨hwork, hrow, -⟩ := hq
  unfold nextPos at h
  split at h
  · exact afterColumns_inPlane hwork hrow h
  · exact afterRow_inPlane hwork h

/-- At a sample of a plane it accesses, the sequencer writes in that row only and goes to the next position. -/
theorem sequencerAt_of_inPlane {d : Domain} {s : State} {q : Pos} (hr : descInRange d (s.desc q.plane) = true)
    (hq : PosInPlane s q) :
    ∃ u, sequencerAt d q s = goTo u (nextPos d s q) ∧ RowWritten d q.plane q.row s u := by
  obtain ⟨-, hmode⟩ := accessed_of_inPlane hq
  obtain ⟨-, hrow, hcol⟩ := hq
  have hmem : RowInMemory d (s.desc q.plane) q.row := ⟨hr, by omega, hrow⟩
  rcases hmode with hmode | hmode
  · refine ⟨copyRow d q.plane q.row s, ?_, copyRow_written _ _ _ _ hmem⟩
    simp [sequencerAt, nextPos, hmode, hrow]
  · refine ⟨_, ?_, processGroup_written _ _ _ q.col _ _ hmem (groupWidth_le s.backend d _ _ hcol)⟩
    simp [sequencerAt, nextPos, hmode, hrow, hcol]

/-- The step of the sequencer in a BUSY state that satisfies the invariant: where it stands, what it writes, and where it goes. -/
theorem sequencerStep_of_inv {s : State} (h : InstanceInv s) (hb : s.run = .busy) :
    ∃ q d u, s.pos = some q ∧ domainOf s = some d ∧ frameValid d s = true ∧ PosInPlane s q ∧
      sequencerStep s = .next (goTo u (nextPos d s q)) ∧ RowWritten d q.plane q.row s u := by
  obtain ⟨q, d, hpos, hd, hv, hq⟩ := h.busy hb
  obtain ⟨hacc, -⟩ := accessed_of_inPlane hq
  obtain ⟨hr, -⟩ := (frameValid_iff d s).mp hv q.plane hacc
  obtain ⟨u, hat, hwritten⟩ := sequencerAt_of_inPlane hr hq
  refine ⟨q, d, u, hpos, hd, hv, hq, ?_, hwritten⟩
  rw [← hat]
  exact (sequencerStep_next_iff _ _).mpr (.inr (.inr ⟨hb, q, d, hpos, hd, hr, rfl⟩))

end Sys2Proof.Proofs.Sequencer

/-! The invariant holds after reset and after every step (10_state.md R24, R30, R31, R40, R45). -/

namespace Sys2Proof.Proofs.Invariant

open Sys2Proof Sys2Proof.Machine Sys2Proof.Proofs.Registers Sys2Proof.Proofs.Frames Sys2Proof.Proofs.HostActions
  Sys2Proof.Proofs.ResetMemory Sys2Proof.Proofs.Sequencer

/-- Settles O55: every field of the invariant at the state reset gives. -/
theorem resetSatisfiesInvariant : Obligations.ResetSatisfiesInvariant where
  memory := rfl
  fmtReserved := by decide
  errCode := rfl
  unconfigured := fun _ => ⟨rfl, rfl, rfl, rfl, rfl, rfl⟩
  configured := by rintro (h | h) <;> cases h
  idle := fun _ => rfl
  busy := nofun
  hostOnly := rfl

/-! What keeps the invariant. -/

/-- ERRCODE is 0 outside ERROR. -/
theorem errCode_eq_zero {s : State} (h : InstanceInv s) (hne : s.run ≠ .error) : s.errCode = 0 := by
  have herr := h.errCode
  rwa [if_neg hne] at herr

/-- The invariant depends on the setup, STATE, ERRCODE, pos, and the form of plane memory and of the inbox. -/
theorem inv_of_sameSetup {s t : State} (h : InstanceInv s) (e : SameSetup s t) (hrun : t.run = s.run)
    (herr : t.errCode = s.errCode) (hpos : t.pos = s.pos) (hmem : Memory.wf t.mem = true) (hhost : HostOnly t = true) :
    InstanceInv t where
  memory := hmem
  fmtReserved := by
    rw [fmt_congr e.config]
    exact h.fmtReserved
  errCode := by
    rw [hrun, herr]
    exact h.errCode
  unconfigured := by
    rw [hrun, backend_congr e.config, constsZero_congr e.config]
    exact h.unconfigured
  configured := by
    simp only [hrun, backend_congr e.config, validConfig_congr e.config e.hwcap, constsDerived_congr e.config,
      resolvesTo_congr e.config e.hwcap]
    exact h.configured
  idle := by
    rw [hrun, hpos]
    exact h.idle
  busy := by
    simp only [hrun, hpos, domainOf_congr e.config, frameValid_congr e, posInPlane_congr e]
    exact h.busy
  hostOnly := hhost

/-- A configured block that goes to a position of a valid FRAME, or to IDLE, keeps the invariant. -/
theorem inv_goTo {s u : State} {next : Option Pos} {d : Domain} (h : InstanceInv s) (hc : s.run = .ready ∨ s.run = .busy)
    (hu : OnlyDatapath s u) (hmem : Memory.wf u.mem = true) (hd : domainOf s = some d) (hv : frameValid d s = true)
    (hnext : ∀ q, next = some q → PosInPlane s q) : InstanceInv (goTo u next) := by
  have e := (sameSetup_of_onlyDatapath hu).goTo next
  have herr : (goTo u next).errCode = 0 := by
    have hs := errCode_eq_zero h (by rcases hc with hc | hc <;> rw [hc] <;> decide)
    unfold OnlyDatapath at hu
    rw [← hs, hu]
    rfl
  have hhost : HostOnly (goTo u next) = HostOnly s := by
    unfold OnlyDatapath at hu
    rw [hu]
    rfl
  have hrun : (goTo u next).run = .ready ∨ (goTo u next).run = .busy := by cases next <;> simp
  exact {
    memory := hmem
    fmtReserved := by
      rw [fmt_congr e.config]
      exact h.fmtReserved
    errCode := by
      rw [if_neg (by rcases hrun with hr | hr <;> rw [hr] <;> decide)]
      exact herr
    unconfigured := by
      rcases hrun with hr | hr <;> rw [hr] <;> rintro (hx | hx) <;> cases hx
    configured := fun _ => by
      simp only [backend_congr e.config, validConfig_congr e.config e.hwcap, constsDerived_congr e.config,
        resolvesTo_congr e.config e.hwcap]
      exact h.configured hc
    idle := by
      cases next with
      | none => exact fun _ => rfl
      | some q => exact fun hne => absurd rfl hne
    busy := by
      cases next with
      | none => nofun
      | some q =>
        simp only [domainOf_congr e.config, frameValid_congr e, posInPlane_congr e]
        exact fun _ => ⟨q, d, rfl, hd, hv, hnext q rfl⟩
    hostOnly := hhost.trans h.hostOnly }

theorem inv_withInbox {s : State} (h : InstanceInv s) {q : List Pending} (hq : HostOnly (s.withInbox q) = true) :
    InstanceInv (s.withInbox q) :=
  inv_of_sameSetup h ⟨sameConfiguration_refl s, rfl, withInbox_desc s q⟩ rfl rfl rfl h.memory hq

/-- A write of an option in UNCONFIGURED. -/
theorem inv_storeOption {s : State} (h : InstanceInv s) {r : Reg} (ha : accessOf r = .whileUnconfigured)
    (hu : s.run = .unconfigured) (data : Slot) : InstanceInv (storeReg s data r) := by
  have hfmt := storeReg_fmt_lt s data ha h.fmtReserved
  have hopt := storeReg_onlyOptions s data ha
  unfold OnlyOptions at hopt
  generalize storeReg s data r = t at *
  have hrun : t.run = .unconfigured := by
    rw [hopt]
    exact hu
  have hcode : t.errCode = 0 := by
    rw [hopt]
    exact errCode_eq_zero (s := s) h (by rw [hu]; decide)
  have hidle : t.pos = none := by
    rw [hopt]
    exact h.idle (by rw [hu]; decide)
  exact {
    memory := by rw [hopt]; exact h.memory
    fmtReserved := hfmt
    errCode := by rw [if_neg (by rw [hrun]; decide)]; exact hcode
    unconfigured := fun _ => by rw [hopt]; exact h.unconfigured (.inl hu)
    configured := by rw [hrun]; rintro (hx | hx) <;> cases hx
    idle := fun _ => hidle
    busy := by rw [hrun]; nofun
    hostOnly := by rw [hopt]; exact h.hostOnly }

/-- A write of a descriptor outside BUSY. -/
theorem inv_withDesc {s : State} (h : InstanceInv s) (hb : s.run ≠ .busy) (p : PlaneId) (ds : Desc) :
    InstanceInv (s.withDesc p ds) := by
  have e : SameConfiguration s (s.withDesc p ds) := by simp [SameConfiguration]
  have hw := withDesc_hwcap s p ds
  exact {
    memory := by rw [withDesc_mem]; exact h.memory
    fmtReserved := by rw [withDesc_fmt]; exact h.fmtReserved
    errCode := by rw [withDesc_run, withDesc_errCode]; exact h.errCode
    unconfigured := by rw [withDesc_run, withDesc_backend, constsZero_congr e]; exact h.unconfigured
    configured := by
      simp only [withDesc_run, withDesc_backend, validConfig_congr e hw, constsDerived_congr e, resolvesTo_congr e hw]
      exact h.configured
    idle := by rw [withDesc_run, withDesc_pos]; exact h.idle
    busy := by rw [withDesc_run]; exact fun hbusy => absurd hbusy hb
    hostOnly := by rw [HostOnly, withDesc_inbox]; exact h.hostOnly }

/-- CONFIGURE fails with a code of 1 to 7 (60_exceptions.md R280). -/
theorem inv_raiseConfigError {s : State} (h : InstanceInv s) (hu : s.run = .unconfigured) (hz : validateCode s ≠ 0) :
    InstanceInv (raiseConfigError (validateCode s) s) where
  memory := h.memory
  fmtReserved := h.fmtReserved
  errCode := by
    have hle := validateCode_le s
    rw [raiseConfigError_run, if_pos rfl, raiseConfigError_errCode, BitVec.toNat_ofNat]
    omega
  unconfigured := fun _ => h.unconfigured (.inl hu)
  configured := by rintro (hx | hx) <;> cases hx
  idle := fun _ => h.idle (by rw [hu]; decide)
  busy := nofun
  hostOnly := h.hostOnly

/-- CONFIGURE succeeds with the constants and the backend of its configuration (43_dispatch.md R230). -/
theorem inv_enterReady {s : State} (h : InstanceInv s) (hu : s.run = .unconfigured) {d : Domain} {t : Tier}
    (hv : ValidConfig s d) (ht : resolveRequest s.capReq.toInt s.hwcap = .ok t) : InstanceInv (enterReady d t s) where
  memory := h.memory
  fmtReserved := h.fmtReserved
  errCode := errCode_eq_zero (s := s) h (by rw [hu]; decide)
  unconfigured := by rintro (hx | hx) <;> cases hx
  configured := fun _ => by
    refine ⟨d, hv, ⟨rfl, rfl, rfl, rfl, rfl⟩, ?_⟩
    rcases (resolveRequest_ok_iff _ _ _).mp ht with hauto | ⟨hreq, -⟩
    · exact .inl hauto
    · exact .inr hreq
  idle := fun _ => h.idle (by rw [hu]; decide)
  busy := nofun
  hostOnly := h.hostOnly

theorem inv_configureOp {s : State} (h : InstanceInv s) : InstanceInv (configureOp s) := by
  rcases configureOp_cases s with ⟨-, hc⟩ | ⟨hu, hz, hc⟩ | ⟨hu, d, t, hv, ht, hc⟩ <;> rw [hc]
  · exact h
  · exact inv_raiseConfigError h hu hz
  · exact inv_enterReady h hu hv ht

theorem inv_resetOp {s : State} (h : InstanceInv s) : InstanceInv (resetOp s) where
  memory := memAfterReset_wf s h.memory
  fmtReserved := resetSatisfiesInvariant.fmtReserved
  errCode := resetSatisfiesInvariant.errCode
  unconfigured := resetSatisfiesInvariant.unconfigured
  configured := by rintro (hx | hx) <;> cases hx
  idle := fun _ => rfl
  busy := nofun
  hostOnly := h.hostOnly

/-! Every step. -/

theorem inv_hostAction {s t : State} {e : HostEvent} (h : InstanceInv s) (ha : HostAction s e t) : InstanceInv t := by
  cases ha with
  | configure => exact inv_configureOp h
  | frame hdec hr d hd hv => exact inv_goTo h (.inl hr) (OnlyDatapath.refl s) h.memory hd hv fun q => firstPos_inPlane
  | reset => exact inv_resetOp h
  | storeOption r reg data ha hu => exact inv_storeOption h ha hu data
  | storeDesc r reg data ha hb =>
    obtain ⟨p, ds, hstore⟩ := storeReg_withDesc s data ha
    rw [hstore]
    exact inv_withDesc h hb p ds
  | ignored => exact h
  | readReg r v | readByte addr v | readDraw addr v =>
    exact inv_of_sameSetup h ⟨sameConfiguration_refl s, rfl, withResult_desc s v⟩ rfl rfl rfl h.memory h.hostOnly
  | memWrite addr b ha =>
    exact inv_of_sameSetup h ⟨sameConfiguration_refl s, rfl, withMem_desc s _⟩ rfl rfl rfl
      (memSet_wf s.mem addr b ha h.memory) h.hostOnly

theorem inv_sequencerStep {s t : State} (h : InstanceInv s) (hst : sequencerStep s = .next t) : InstanceInv t := by
  by_cases hb : s.run = .busy
  · obtain ⟨q, d, u, -, hd, hv, hq, hseq, hwritten⟩ := sequencerStep_of_inv h hb
    rw [hseq] at hst
    cases hst
    exact inv_goTo h (.inr hb) hwritten.frame (hwritten.canonical h.memory) hd hv fun q' => nextPos_inPlane hq
  · rcases (sequencerStep_next_iff s t).mp hst with ⟨-, rfl⟩ | ⟨hbusy, -⟩ | ⟨hbusy, -⟩
    · exact h
    · exact absurd hbusy hb
    · exact absurd hbusy hb

/-- Settles O56: the sequencer and each action of the host keep the invariant. -/
theorem invariantKept : Obligations.InvariantKept := by
  intro s t h hst
  obtain ⟨q, hq, ⟨-, hseq⟩ | ⟨e, -, hact⟩⟩ := step_hostOnly_cases h.hostOnly hst
  · exact inv_sequencerStep (inv_withInbox h hq) hseq
  · exact inv_hostAction (inv_withInbox h hq) hact

end Sys2Proof.Proofs.Invariant

/-! Who writes plane memory (10_state.md R51, 20_memory.md R66, R67). -/

namespace Sys2Proof.Proofs.Writers

open Sys2Proof Sys2Proof.Machine Sys2Proof.Proofs.Registers Sys2Proof.Proofs.Frames Sys2Proof.Proofs.HostActions
  Sys2Proof.Proofs.ResetMemory Sys2Proof.Proofs.Sequencer Sys2Proof.Proofs.Invariant

/-- A byte of a destination footprint of the running FRAME and of none of its source footprints. -/
def FrameMayWrite (s : State) (a : Nat) : Prop :=
  s.run = .busy ∧ ∃ d, domainOf s = some d ∧
    (∃ p, isPresent s p = true ∧ (effMode s p = 2 ∨ effMode s p = 3) ∧ DstByte d (s.desc p) a) ∧
    ∀ q, isPresent s q = true → (effMode s q = 2 ∨ effMode s q = 3) → ¬SrcByte d (s.desc q) a

/-- V4 keeps the destinations of a valid FRAME out of its sources (20_memory.md R70). -/
theorem frameMayWrite_of_contains {s : State} {d : Domain} {p : PlaneId} {a : Nat} (hb : s.run = .busy)
    (hd : domainOf s = some d) (hv : frameValid d s = true) (hp : p ∈ accessedPlanes s)
    (ha : (dstFoot d (s.desc p)).contains a = true) : FrameMayWrite s a := by
  obtain ⟨hpresent, hmode⟩ := (isAccessed_iff s p).mp ((mem_accessedPlanes s p).mp hp)
  refine ⟨hb, d, hd, ⟨p, hpresent, hmode, (dstFoot_contains_iff _ _ _).mp ha⟩, fun q hq hqmode hsrc => ?_⟩
  have hqacc := (mem_accessedPlanes s q).mpr ((isAccessed_iff s q).mpr ⟨hq, hqmode⟩)
  obtain ⟨-, hall⟩ := (frameValid_iff d s).mp hv p hp
  have hapart := Foot.apart_no_common _ _ (hall q hqacc).1 a ha
  rw [(srcFoot_contains_iff _ _ _).mpr hsrc] at hapart
  cases hapart

theorem sequencerStep_writes {s t : State} {a : Nat} (h : InstanceInv s) (hst : sequencerStep s = .next t)
    (hne : memByte t.mem a ≠ memByte s.mem a) : FrameMayWrite s a := by
  by_cases hb : s.run = .busy
  · obtain ⟨q, d, u, -, hd, hv, hq, hseq, hwritten⟩ := sequencerStep_of_inv h hb
    rw [hseq] at hst
    cases hst
    obtain ⟨hacc, -⟩ := accessed_of_inPlane hq
    obtain ⟨-, hrow, -⟩ := hq
    refine frameMayWrite_of_contains hb hd hv hacc ?_
    by_contra hout
    have hrows := (Foot.not_contains_iff _ _).mp (Bool.eq_false_iff.mpr hout) q.row hrow
    exact hne (hwritten.outside a (by simpa [dstAddr, dstFoot] using hrows))
  · rcases (sequencerStep_next_iff s t).mp hst with ⟨-, rfl⟩ | ⟨hbusy, -⟩ | ⟨hbusy, -⟩
    · exact absurd rfl hne
    · exact absurd hbusy hb
    · exact absurd hbusy hb

theorem configureOp_mem (s : State) : (configureOp s).mem = s.mem := by
  rcases configureOp_cases s with ⟨-, h⟩ | ⟨-, -, h⟩ | ⟨-, d, t, -, -, h⟩ <;> rw [h] <;> rfl

theorem hostAction_writes {s t : State} {e : HostEvent} {a : Nat} (h : InstanceInv s) (ha : HostAction s e t)
    (hne : memByte t.mem a ≠ memByte s.mem a) : FrameMayWrite s a ∨ ∃ b, e = .memWrite a b := by
  cases ha with
  | reset =>
    obtain ⟨hb, d, hd, p, hp, hcontains⟩ := memAfterReset_changed hne
    obtain ⟨-, d', -, hd', hv, -⟩ := h.busy hb
    rw [hd] at hd'
    cases hd'
    exact .inl (frameMayWrite_of_contains hb hd hv hp hcontains)
  | memWrite addr b =>
    rw [withMem_mem, memByte_memSet] at hne
    split at hne
    · rename_i haddr
      exact .inr ⟨b, by rw [haddr]⟩
    · exact absurd rfl hne
  | configure => exact absurd (by rw [configureOp_mem]) hne
  | storeOption r reg data | storeDesc r reg data =>
    obtain ⟨-, hmem, -⟩ := storeReg_keeps s data reg
    exact absurd (by rw [hmem]) hne
  | frame | ignored | readReg | readByte | readDraw => exact absurd rfl hne

/-- Settles O59: only the sequencer, a reset and the host's own write change a byte. -/
theorem onlyDestinationsWritten : Obligations.OnlyDestinationsWritten := by
  intro s t a h hst hne
  obtain ⟨q, hq, ⟨-, hseq⟩ | ⟨e, he, hact⟩⟩ := step_hostOnly_cases h.hostOnly hst
  · have hwrites : FrameMayWrite (s.withInbox q) a := sequencerStep_writes (inv_withInbox h hq) hseq hne
    exact .inl hwrites
  · rcases hostAction_writes (inv_withInbox h hq) hact hne with hframe | ⟨b, rfl⟩
    · exact .inl hframe
    · exact .inr ⟨b, he⟩

end Sys2Proof.Proofs.Writers

/-! The row cursors after a row operation (10_state.md R36). -/

namespace Sys2Proof.Proofs.Cursors

open Sys2Proof Sys2Proof.Machine Sys2Proof.Proofs.Frames

/-- The row cursors point to the rows around row y of plane p. -/
def AimedAt (d : Domain) (p : PlaneId) (y : Nat) (s : State) : Prop :=
  s.curUp = BitVec.ofNat 64 (srcAddr d (s.desc p) (y - 1) 0) ∧ s.curMid = BitVec.ofNat 64 (srcAddr d (s.desc p) y 0) ∧
    s.curLo = BitVec.ofNat 64 (srcAddr d (s.desc p) (y + 1) 0) ∧ s.curOut = BitVec.ofNat 64 (dstAddr d (s.desc p) y 0)

theorem maskPixel_aimed (d : Domain) (p : PlaneId) (y x : Nat) (s : State) : AimedAt d p y (maskPixel d p y x s) := by
  have hd : (maskPixel d p y x s).desc p = s.desc p := (maskPixel_onlyDatapath d p y x s).desc p
  unfold AimedAt
  rw [hd]
  exact ⟨rfl, rfl, rfl, rfl⟩

theorem maskGroup_aimed (d : Domain) (p : PlaneId) (y x n : Nat) (s : State) : AimedAt d p y (maskGroup d p y x n s) := by
  have hd : (maskGroup d p y x n s).desc p = s.desc p := (maskGroup_onlyDatapath d p y x n s).desc p
  unfold AimedAt
  rw [hd]
  exact ⟨rfl, rfl, rfl, rfl⟩

/-- A run of columns aims the cursors, or is empty and leaves them as they are. -/
theorem maskPixels_aimed (d : Domain) (p : PlaneId) (y x n : Nat) (s : State) (h : n ≠ 0 ∨ AimedAt d p y s) :
    AimedAt d p y (maskPixels d p y x n s) := by
  induction n generalizing x s with
  | zero => exact h.resolve_left (absurd rfl)
  | succ n ih => exact ih _ _ (.inr (maskPixel_aimed d p y x s))

theorem maskGroups_aimed (d : Domain) (p : PlaneId) (y n x k : Nat) (s : State) (h : k ≠ 0 ∨ AimedAt d p y s) :
    AimedAt d p y (maskGroups d p y n x k s) := by
  induction k generalizing x s with
  | zero => exact h.resolve_left (absurd rfl)
  | succ k ih => exact ih _ _ (.inr (maskGroup_aimed d p y x n s))

/-- A row with samples has a full lane group or a remainder, and either aims the cursors. -/
theorem rowOp_aimed (k : Tier) (d : Domain) (p : PlaneId) (y : Nat) (s : State) (hw : (s.desc p).width.toNat ≠ 0) :
    AimedAt d p y (rowOp k d p y s) := by
  have vector : ∀ n, AimedAt d p y (maskPixels d p y ((s.desc p).width.toNat / n * n) ((s.desc p).width.toNat % n)
      (maskGroups d p y n 0 ((s.desc p).width.toNat / n) s)) := by
    intro n
    refine maskPixels_aimed _ _ _ _ _ _ ?_
    by_cases hk : (s.desc p).width.toNat / n = 0
    · have hdiv := Nat.div_add_mod (s.desc p).width.toNat n
      rw [hk, Nat.mul_zero] at hdiv
      exact .inl (by omega)
    · exact .inr (maskGroups_aimed _ _ _ _ _ _ _ (.inl hk))
  cases k with
  | scalar => exact maskPixels_aimed _ _ _ _ _ _ (.inl hw)
  | tier1 | tier2 | tier3 => exact vector _

/-- The rows around an interior row lie in plane memory, so the cursors hold their addresses unwrapped. -/
theorem AimedAt.toNat {d : Domain} {p : PlaneId} {y : Nat} {s : State} (h : AimedAt d p y s)
    (hrow : InteriorRow d (s.desc p) y) :
    s.curUp.toNat = srcAddr d (s.desc p) (y - 1) 0 ∧ s.curMid.toNat = srcAddr d (s.desc p) y 0 ∧
      s.curLo.toNat = srcAddr d (s.desc p) (y + 1) 0 ∧ s.curOut.toNat = dstAddr d (s.desc p) y 0 := by
  obtain ⟨hup, hmid, hlo, hout⟩ := h
  obtain ⟨hr, -⟩ := (descValid_iff _ _).mp hrow.valid
  have hpos := hrow.rowBytes_pos
  have hlow := hrow.low
  have hhigh := hrow.high
  have hsrc : ∀ z < (s.desc p).height.toNat, (BitVec.ofNat 64 (srcAddr d (s.desc p) z 0)).toNat = srcAddr d (s.desc p) z 0 :=
    fun z hz => ofNat_toNat_of_le _ _ hpos (srcRow_in_memory d _ hr hrow.width z hz)
  have hdst := ofNat_toNat_of_le _ _ hpos (dstRow_in_memory d _ hr hrow.width y (by omega))
  rw [hup, hmid, hlo, hout]
  exact ⟨hsrc _ (by omega), hsrc _ (by omega), hsrc _ (by omega), hdst⟩

theorem exec_rowInstr (p : PlaneId) (y : Word) (k : Tier) (s : State) : exec (rowInstr p y k) s = rowForm k p y s := by
  cases k <;> rfl

/-- Settles O33: a row form that completes on a plane with samples ran its row. -/
theorem rowCursors : Obligations.RowCursors := by
  intro s t p y d k hd hw hexec hh
  rw [exec_rowInstr] at hexec
  obtain ⟨-, ⟨hempty, -⟩ | ⟨d', hd', hrow, rfl⟩⟩ := (rowForm_next_iff k p y s t).mp hexec
  · exact absurd ⟨hw, hh⟩ hempty
  · have hdesc := (rowOp_onlyDatapath k d' p y.toNat s).desc p
    have hcursors := (rowOp_aimed k d' p y.toNat s hrow.width).toNat (by rw [hdesc]; exact hrow)
    rw [hdesc] at hcursors
    simpa [srcAddr, dstAddr] using hcursors

end Sys2Proof.Proofs.Cursors

/-! How the sequencer position advances (10_state.md R41, 42_vector_backends.md R213, R214). -/

namespace Sys2Proof.Proofs.Advance

open Sys2Proof Sys2Proof.Machine Sys2Proof.Proofs.Frames Sys2Proof.Proofs.Sequencer

/-! The first plane with work. -/

/-- Among planes in ascending order, the one with work below which none has work is the first. -/
theorem firstPos_eq_some {s : State} {planes : List PlaneId}
    (hsorted : planes.Pairwise fun p q => planeIndex p < planeIndex q) {p : PlaneId} (hp : p ∈ planes)
    (hwork : hasWork s p = true) (hbelow : ∀ r ∈ planes, planeIndex r < planeIndex p → hasWork s r = false) :
    firstPos s planes = some { plane := p, row := 0, col := 0 } := by
  have hhead : (planes.filter (hasWork s)).head? = some p := by
    induction planes with
    | nil => cases hp
    | cons r rest ih =>
      obtain ⟨hr, hrest⟩ := List.pairwise_cons.mp hsorted
      rcases List.mem_cons.mp hp with rfl | hp'
      · rw [List.filter_cons_of_pos hwork]
        rfl
      · have hnone := hbelow r List.mem_cons_self (hr p hp')
        rw [List.filter_cons_of_neg (by simp [hnone])]
        exact ih hrest hp' fun q hq => hbelow q (List.mem_cons_of_mem r hq)
  rw [firstPos, hhead]
  rfl

theorem firstPos_eq_none {s : State} {planes : List PlaneId} (h : ∀ p ∈ planes, hasWork s p = false) :
    firstPos s planes = none := by
  have hempty : planes.filter (hasWork s) = [] := List.filter_eq_nil_iff.mpr fun p hp => by simp [h p hp]
  rw [firstPos, hempty]
  rfl

theorem mem_planesAfter (p q : PlaneId) : q ∈ planesAfter p ↔ planeIndex p < planeIndex q := by
  cases p <;> cases q <;> decide

theorem planesAfter_sorted (p : PlaneId) : (planesAfter p).Pairwise fun q r => planeIndex q < planeIndex r := by
  cases p <;> decide

/-! The next position. -/

/-- The columns one step handles: a lane group or one sample of a remainder, and a whole row of a Copy plane. -/
def columnsHandled (d : Domain) (s : State) (q : Pos) : Nat :=
  if effMode s q.plane = 2 then (s.desc q.plane).width.toNat
  else groupWidth s.backend d (s.desc q.plane).width.toNat q.col

theorem nextPos_eq_afterColumns {d : Domain} {s : State} {q : Pos} (hq : PosInPlane s q) :
    nextPos d s q = afterColumns s q.plane q.row q.col (columnsHandled d s q) := by
  obtain ⟨-, hmode | hmode⟩ := accessed_of_inPlane hq <;>
    simp [nextPos, columnsHandled, hmode, afterColumns]

theorem afterColumns_in_row {s : State} {p : PlaneId} {y x n : Nat} (h : x + n < (s.desc p).width.toNat) :
    afterColumns s p y x n = some { plane := p, row := y, col := x + n } := if_pos h

theorem afterColumns_next_row {s : State} {p : PlaneId} {y x n : Nat} (hx : (s.desc p).width.toNat ≤ x + n)
    (hy : y + 1 < (s.desc p).height.toNat) : afterColumns s p y x n = some { plane := p, row := y + 1, col := 0 } := by
  rw [afterColumns, if_neg (by omega), afterRow, if_pos hy]

theorem afterColumns_next_plane {s : State} {p : PlaneId} {y x n : Nat} (hx : (s.desc p).width.toNat ≤ x + n)
    (hy : (s.desc p).height.toNat ≤ y + 1) : afterColumns s p y x n = firstPos s (planesAfter p) := by
  rw [afterColumns, if_neg (by omega), afterRow, if_neg (by omega)]

theorem goTo_some {s t : State} {next : Option Pos} {q : Pos} (ht : t = goTo s next) (hn : next = some q) :
    t.run = .busy ∧ t.pos = some q := by
  subst ht hn
  exact ⟨rfl, rfl⟩

theorem goTo_none {s t : State} {next : Option Pos} (ht : t = goTo s next) (hn : next = none) :
    t.run = .ready ∧ t.pos = none := by
  subst ht hn
  exact ⟨rfl, rfl⟩

/-- The scalar backend has one lane (42_vector_backends.md R213). -/
theorem laneCount_eq (k : Tier) (d : Domain) :
    laneCount k d = match k with
      | .scalar => 1 | .tier1 => 16 / elemSize d | .tier2 => 32 / elemSize d | .tier3 => 64 / elemSize d := by
  cases k with
  | scalar => exact Nat.div_self (elemSize_pos d)
  | tier1 | tier2 | tier3 => rfl

/-- Settles O46: the position after the columns of this step, in the row, in the plane, and past it. -/
theorem sequencerAdvances : Obligations.SequencerAdvances := by
  intro s q d h hb hin hpos hd w hgt lanes n
  obtain ⟨q', d', u, hpos', hd', -, hq, hseq, hwritten⟩ := sequencerStep_of_inv h hb
  rw [hpos] at hpos'
  rw [hd] at hd'
  cases hpos'
  cases hd'
  have hn : columnsHandled d s q = n := by
    simp only [columnsHandled, groupWidth, laneCount_eq]
    rfl
  rw [nextPos_eq_afterColumns hq, hn] at hseq
  have hstep : step s = sequencerStep s := by simp only [step, hin]
  refine ⟨_, hstep.trans hseq, goTo_onlyDatapath hwritten.frame _, fun hx => ?_, fun hx hy => ?_,
    fun hx hy => ⟨fun p hp hwork hbelow => ?_, fun hnone => ?_⟩⟩
  · exact goTo_some rfl (afterColumns_in_row hx)
  · exact goTo_some rfl (afterColumns_next_row hx hy)
  · refine goTo_some rfl ((afterColumns_next_plane hx hy).trans ?_)
    exact firstPos_eq_some (planesAfter_sorted _) ((mem_planesAfter _ _).mpr hp) hwork
      fun r hr => hbelow r ((mem_planesAfter _ _).mp hr)
  · refine goTo_none rfl ((afterColumns_next_plane hx hy).trans ?_)
    exact firstPos_eq_none fun p hp => hnone p ((mem_planesAfter _ _).mp hp)

end Sys2Proof.Proofs.Advance

/-! The pixel, row and kernel operations as functions of the source footprint: the destination footprint holds MASK of it
(41_threshold_kernel.md R189), and what the spec leaves open does not show in the integer domains, nor in value in the float
domain (R162, R188). -/

namespace Sys2Proof.Proofs.Mask

open Sys2Proof Sys2Proof.Machine Sys2Proof.Proofs.Sequencer

/-! Rows that hold the mask. -/

/-- What a row holds depends on the source samples of the plane and on the row itself. -/
theorem rowHoldsMask_congr {d : Domain} {low high : Word} {ds : Desc} {m₁ m₂ t₁ t₂ : List Host.Cell} {y : Nat}
    (hy : y < ds.height.toNat)
    (hsrc : ∀ z x, z < ds.height.toNat → x < ds.width.toNat → srcSample d ds m₂ z x = srcSample d ds m₁ z x)
    (hdst : ∀ x, x < ds.width.toNat → dstSample d ds t₂ y x = dstSample d ds t₁ y x)
    (h : RowHoldsMask d low high ds m₁ t₁ y) : RowHoldsMask d low high ds m₂ t₂ y := by
  intro x hx
  have hrow := h x hx
  rw [hdst x hx]
  by_cases hborder : y = 0 ∨ y + 1 = ds.height.toNat
  · rwa [if_pos hborder] at hrow ⊢
  · rw [if_neg hborder] at hrow ⊢
    simp only [maskSample] at hrow ⊢
    rwa [hsrc (y - 1) x (by omega) hx, hsrc y x hy hx, hsrc (y + 1) x (by omega) hx]

/-- A sample depends on the bytes of its row. -/
theorem memRead_row_congr {m m' : List Host.Cell} {row w es x : Nat} (hx : x < w)
    (h : ∀ a, row ≤ a → a < row + w * es → memByte m' a = memByte m a) :
    memRead m' (row + x * es) es = memRead m (row + x * es) es := by
  have hcol : (x + 1) * es ≤ w * es := Nat.mul_le_mul_right _ hx
  rw [Nat.succ_mul] at hcol
  exact memRead_congr _ _ _ _ fun c hc1 hc2 => h c (by omega) (by omega)

theorem dstSample_congr {d : Domain} {ds : Desc} {m m' : List Host.Cell} {y x : Nat} (hx : x < ds.width.toNat)
    (h : ∀ a, dstAddr d ds y 0 ≤ a → a < dstAddr d ds y 0 + ds.width.toNat * elemSize d → memByte m' a = memByte m a) :
    dstSample d ds m' y x = dstSample d ds m y x := by
  rw [dstSample, dstSample, dstAddr_col]
  exact memRead_row_congr hx h

theorem srcSample_congr {d : Domain} {ds : Desc} {m m' : List Host.Cell} {y x : Nat} (hx : x < ds.width.toNat)
    (h : ∀ a, srcAddr d ds y 0 ≤ a → a < srcAddr d ds y 0 + ds.width.toNat * elemSize d → memByte m' a = memByte m a) :
    srcSample d ds m' y x = srcSample d ds m y x := by
  rw [srcSample, srcSample, srcAddr_col]
  exact congrArg (BitVec.ofNat 32) (memRead_row_congr hx h)

/-- The address is in no destination row from y0 to before y1. -/
def OutsideRows (d : Domain) (ds : Desc) (y0 y1 a : Nat) : Prop :=
  ∀ y, y0 ≤ y → y < y1 → a < dstAddr d ds y 0 ∨ dstAddr d ds y 0 + ds.width.toNat * elemSize d ≤ a

/-- The destination rows from y0 to before y1 of plane p in t's memory hold the mask of s's source; nothing else of memory, and
nothing but the datapath, differs. -/
structure RowsMasked (d : Domain) (p : PlaneId) (y0 y1 : Nat) (s t : State) : Prop where
  frame : OnlyDatapath s t
  outside : ∀ a, OutsideRows d (s.desc p) y0 y1 a → memByte t.mem a = memByte s.mem a
  rows : ∀ y, y0 ≤ y → y < y1 → RowHoldsMask d s.lowS s.highS (s.desc p) s.mem t.mem y
  canonical : Memory.wf s.mem = true → Memory.wf t.mem = true

theorem RowsMasked.refl (d : Domain) (p : PlaneId) (y : Nat) (s : State) : RowsMasked d p y y s s :=
  ⟨OnlyDatapath.refl s, fun _ _ => rfl, fun _ h1 h2 => absurd h1 (by omega), id⟩

/-- V4: the source of a valid plane is outside its destination rows (20_memory.md R70). -/
theorem outsideRows_of_srcRow {d : Domain} {ds : Desc} (hv : descValid d ds = true) (hw : ds.width.toNat ≠ 0)
    {y0 y1 z a : Nat} (h1 : y1 ≤ ds.height.toNat) (hz : z < ds.height.toNat) (ha : srcAddr d ds z 0 ≤ a)
    (ha' : a < srcAddr d ds z 0 + ds.width.toNat * elemSize d) : OutsideRows d ds y0 y1 a := by
  intro y _ hy
  have := descValid_rows_apart d ds hv hw y z (by omega) hz
  omega

/-- V1: a destination row is outside the rows after it (20_memory.md R70). -/
theorem outsideRows_of_dstRow {d : Domain} {ds : Desc} (hv : descValid d ds = true) {y0 y1 z a : Nat} (hz : z < y0)
    (ha : a < dstAddr d ds z 0 + ds.width.toNat * elemSize d) : OutsideRows d ds y0 y1 a := by
  obtain ⟨hr, -⟩ := (descValid_iff d ds).mp hv
  intro y hy _
  have := dstRows_apart d ds hr z y (by omega)
  omega

/-- Rows masked one part after the other: the second part leaves the first as it is, and the first leaves the source of the
second as it was. -/
theorem RowsMasked.trans {d : Domain} {p : PlaneId} {y0 y1 y2 : Nat} {s t u : State} (hv : descValid d (s.desc p) = true)
    (hw : (s.desc p).width.toNat ≠ 0) (h01 : y0 ≤ y1) (h12 : y1 ≤ y2) (hy2 : y2 ≤ (s.desc p).height.toNat)
    (h1 : RowsMasked d p y0 y1 s t) (h2 : RowsMasked d p y1 y2 t u) : RowsMasked d p y0 y2 s u := by
  obtain ⟨f1, o1, r1, c1⟩ := h1
  obtain ⟨f2, o2, r2, c2⟩ := h2
  rw [f1.desc] at o2
  rw [f1.desc, f1.lowS, f1.highS] at r2
  refine ⟨f1.trans f2, fun a ha => ?_, fun y hy0 hy => ?_, fun hm => c2 (c1 hm)⟩
  · rw [o2 a fun y hy hy' => ha y (by omega) hy', o1 a fun y hy hy' => ha y hy (by omega)]
  · by_cases hlt : y < y1
    · refine rowHoldsMask_congr (by omega) (fun _ _ _ _ => rfl) (fun x hx => ?_) (r1 y hy0 hlt)
      exact dstSample_congr hx fun a _ ha => o2 a (outsideRows_of_dstRow hv hlt ha)
    · refine rowHoldsMask_congr (by omega) (fun z x hz hx => ?_) (fun _ _ => rfl) (r2 y (by omega) hy)
      exact (srcSample_congr hx fun a ha ha' => o1 a (outsideRows_of_srcRow hv hw (by omega) hz ha ha')).symm

/-- A border row is zero (41_threshold_kernel.md R183). -/
theorem zrowOp_masks {d : Domain} {p : PlaneId} {y : Nat} {s : State} (hr : RowInMemory d (s.desc p) y)
    (hborder : y = 0 ∨ y + 1 = (s.desc p).height.toNat) : RowsMasked d p y (y + 1) s (zrowOp d p y s) := by
  obtain ⟨hframe, hout, hcanon⟩ := zrowOp_written d p y s hr
  refine ⟨hframe, fun a ha => hout a (ha y (Nat.le_refl y) (by omega)), fun z hz hz' x hx => ?_, hcanon⟩
  obtain rfl : z = y := by omega
  rw [if_pos hborder]
  have hcol : (x + 1) * elemSize d ≤ (s.desc p).width.toNat * elemSize d := Nat.mul_le_mul_right _ hx
  rw [Nat.succ_mul] at hcol
  refine memRead_zero _ _ _ fun c hc1 hc2 => ?_
  rw [dstAddr_col] at hc1 hc2
  rw [memByte_zrowOp, if_pos (by omega)]

/-- An interior row holds PIX of its source rows, with any backend (41_threshold_kernel.md R182, 42_vector_backends.md R210). -/
theorem rowOp_rowsMasked {d : Domain} {p : PlaneId} {y : Nat} {s : State} (k : Tier) (hrow : InteriorRow d (s.desc p) y) :
    RowsMasked d p y (y + 1) s (rowOp k d p y s) := by
  obtain ⟨hframe, hout, hsamples, hcanon⟩ := rowOp_masks k d p y s hrow
  refine ⟨hframe, fun a ha => hout a ?_, fun z hz hz' x hx => ?_, hcanon⟩
  · rw [dstAddr_col d _ y (s.desc p).width.toNat]
    exact ha y (Nat.le_refl y) (by omega)
  · obtain rfl : z = y := by omega
    have hlow := hrow.low
    have hhigh := hrow.high
    rw [if_neg (by omega)]
    exact hsamples x (Nat.zero_le x) hx

theorem maskRows_masks {d : Domain} {p : PlaneId} {y n : Nat} {s : State} (hv : descValid d (s.desc p) = true)
    (hw : (s.desc p).width.toNat ≠ 0) (hy : 1 ≤ y) (hn : y + n + 1 ≤ (s.desc p).height.toNat) :
    RowsMasked d p y (y + n) s (maskRows d p y n s) := by
  induction n generalizing y s with
  | zero => exact RowsMasked.refl d p y s
  | succ n ih =>
    have hfirst : RowsMasked d p y (y + 1) s (rowOp s.backend d p y s) := rowOp_rowsMasked _ ⟨hv, hw, hy, by omega⟩
    have hdesc := hfirst.frame.desc p
    have hrest := ih (y := y + 1) (s := rowOp s.backend d p y s) (by rwa [hdesc]) (by rwa [hdesc]) (by omega)
      (by rw [hdesc]; omega)
    rw [show y + (n + 1) = y + 1 + n by omega]
    exact hfirst.trans hv hw (by omega) (by omega) (by omega) hrest

/-- The kernel: the first row, the interior rows, and the last row where it is another one (41_threshold_kernel.md R184, R186). -/
theorem kernelOp_masks {d : Domain} {p : PlaneId} {s : State} (hv : descValid d (s.desc p) = true)
    (hw : (s.desc p).width.toNat ≠ 0) (hh : (s.desc p).height.toNat ≠ 0) :
    RowsMasked d p 0 (s.desc p).height.toNat s (kernelOp d p s) := by
  obtain ⟨hr, -⟩ := (descValid_iff _ _).mp hv
  have hzero : RowsMasked d p 0 1 s (zrowOp d p 0 s) := zrowOp_masks ⟨hr, hw, by omega⟩ (.inl rfl)
  have hdesc₀ := hzero.frame.desc p
  unfold kernelOp
  by_cases h2 : 2 ≤ (s.desc p).height.toNat
  · have hrows : RowsMasked d p 1 (1 + ((s.desc p).height.toNat - 2)) (zrowOp d p 0 s)
        (maskRows d p 1 ((s.desc p).height.toNat - 2) (zrowOp d p 0 s)) :=
      maskRows_masks (by rwa [hdesc₀]) (by rwa [hdesc₀]) (Nat.le_refl 1) (by rw [hdesc₀]; omega)
    have hinner := hzero.trans hv hw (by omega) (by omega) (by omega) hrows
    have hdesc := hinner.frame.desc p
    have hlast := zrowOp_masks (d := d) (p := p) (y := (s.desc p).height.toNat - 1)
      (s := maskRows d p 1 ((s.desc p).height.toNat - 2) (zrowOp d p 0 s)) (by rw [hdesc]; exact ⟨hr, hw, by omega⟩)
      (by rw [hdesc]; omega)
    rw [show 1 + ((s.desc p).height.toNat - 2) = (s.desc p).height.toNat - 1 by omega] at hinner
    rw [show (s.desc p).height.toNat - 1 + 1 = (s.desc p).height.toNat by omega] at hlast
    simp only [if_pos h2]
    exact hinner.trans hv hw (by omega) (by omega) (Nat.le_refl _) hlast
  · have h1 : (s.desc p).height.toNat = 1 := by omega
    simpa [h1, maskRows] using hzero

/-- A KERNEL that completes on a plane with samples leaves the mask of its source (41_threshold_kernel.md R189). -/
theorem kernel_holdsMask {s t : State} {p : PlaneId} {d : Domain} (hd : domainOf s = some d) (hne : PlaneNotEmpty (s.desc p))
    (h : exec (.kernel p) s = .next t) : HoldsMask d s.lowS s.highS (s.desc p) s.mem t.mem := by
  obtain ⟨-, hplane⟩ := (onColourPlane_next_iff _ _ _ _).mp h
  rcases (onPlane_next_iff _ _ _ _).mp hplane with ⟨hempty, -⟩ | ⟨⟨hw, hh⟩, d', hd', hv, hop⟩
  · exact absurd hne hempty
  · rw [hd] at hd'
    cases hd'
    cases hop
    have hmasks := kernelOp_masks hv ((toNat_pos_iff _).mpr hw).ne' ((toNat_pos_iff _).mpr hh).ne'
    exact fun y hy => hmasks.rows y (Nat.zero_le y) hy

/-! What the mask depends on. -/

/-- A free value does not show in an integer domain. -/
theorem pix_free_irrelevant {d : Domain} (hd : d ≠ .f32) (low high u m l free free' : Word) :
    pix d low high u m l free = pix d low high u m l free' := by
  cases d with
  | f32 => exact absurd rfl hd
  | u8 | u16b10 | u16b12 | u16b14 | u16b16 => rfl

/-- A free value chooses between the two zeros at most (40_numeric_domain.md R162). -/
theorem pixFloat_free_key (low high u m l free free' : Word) :
    f32Key (pixFloat low high u m l free) = f32Key (pixFloat low high u m l free') := by
  have hzeros : ∀ b : Bool, f32Key (if b = true then 0x80000000 else 0) = 0 := by decide
  unfold pixFloat
  simp only
  split
  · rfl
  · split
    · rfl
    · split
      · rw [hzeros, hzeros]
      · rfl

theorem pix_f32_free_key {u m l : Word} (hu : f32OutOfDomain u = false) (hm : f32OutOfDomain m = false)
    (hl : f32OutOfDomain l = false) (low high free free' : Word) :
    f32Key (pix .f32 low high u m l free) = f32Key (pix .f32 low high u m l free') := by
  simp only [pix, pixF32Value, hu, hm, hl, Bool.or_self, Bool.false_eq_true, if_false]
  exact pixFloat_free_key _ _ _ _ _ _ _

/-- The mask depends on the source footprint only (20_memory.md R66, 41_threshold_kernel.md R188). -/
theorem holdsMask_congr {d : Domain} {low high : Word} {ds : Desc} {m m' t : List Host.Cell}
    (hsame : ∀ a, SrcByte d ds a → memByte m' a = memByte m a) (h : HoldsMask d low high ds m' t) :
    HoldsMask d low high ds m t := by
  intro y hy
  refine rowHoldsMask_congr hy (fun z x hz hx => ?_) (fun _ _ => rfl) (h y hy)
  refine (srcSample_congr hx fun a ha ha' => hsame a ((srcFoot_contains_iff d ds a).mp ?_)).symm
  exact (Foot.contains_iff _ _).mpr ⟨z, hz, by simpa [srcAddr, srcFoot] using ha, by simpa [srcAddr, srcFoot] using ha'⟩

/-- Samples of two memories that hold the mask of one source: equal, or PIX of one neighbourhood with a free value each. -/
theorem holdsMask_sample_cases {d : Domain} {low high : Word} {ds : Desc} {m t t' : List Host.Cell}
    (h : HoldsMask d low high ds m t) (h' : HoldsMask d low high ds m t') {y x : Nat} (hy : y < ds.height.toNat)
    (hx : x < ds.width.toNat) :
    dstSample d ds t' y x = dstSample d ds t y x ∨
      (1 ≤ y ∧ y + 1 < ds.height.toNat ∧ ∃ free free', dstSample d ds t y x = (maskSample d low high ds m y x free).toNat ∧
        dstSample d ds t' y x = (maskSample d low high ds m y x free').toNat) := by
  have hs := h y hy x hx
  have hs' := h' y hy x hx
  by_cases hborder : y = 0 ∨ y + 1 = ds.height.toNat
  · rw [if_pos hborder] at hs hs'
    exact .inl (hs'.trans hs.symm)
  · rw [if_neg hborder] at hs hs'
    obtain ⟨free, hfree⟩ := hs
    obtain ⟨free', hfree'⟩ := hs'
    exact .inr ⟨by omega, by omega, free, free', hfree, hfree'⟩

/-- In an integer domain the mask of a source determines the samples. -/
theorem holdsMask_dstSample_unique {d : Domain} {low high : Word} {ds : Desc} {m t t' : List Host.Cell} (hd : d ≠ .f32)
    (h : HoldsMask d low high ds m t) (h' : HoldsMask d low high ds m t') {y x : Nat} (hy : y < ds.height.toNat)
    (hx : x < ds.width.toNat) : dstSample d ds t' y x = dstSample d ds t y x := by
  rcases holdsMask_sample_cases h h' hy hx with heq | ⟨-, -, free, free', hs, hs'⟩
  · exact heq
  · rw [hs, hs', maskSample, maskSample, pix_free_irrelevant hd]

/-- In the float domain the mask of a source whose samples are in-domain determines the samples in value. -/
theorem holdsMask_dstSample_key_unique {low high : Word} {ds : Desc} {m t t' : List Host.Cell}
    (hin : SourceInDomain ds m) (h : HoldsMask .f32 low high ds m t) (h' : HoldsMask .f32 low high ds m t') {y x : Nat}
    (hy : y < ds.height.toNat) (hx : x < ds.width.toNat) :
    f32Key (BitVec.ofNat 32 (dstSample .f32 ds t' y x)) = f32Key (BitVec.ofNat 32 (dstSample .f32 ds t y x)) := by
  rcases holdsMask_sample_cases h h' hy hx with heq | ⟨hlow, hhigh, free, free', hs, hs'⟩
  · rw [heq]
  · rw [hs, hs', BitVec.ofNat_toNat, BitVec.ofNat_toNat, BitVec.setWidth_eq, BitVec.setWidth_eq]
    exact pix_f32_free_key (hin _ x (by omega) hx) (hin y x hy hx) (hin _ x hhigh hx) _ _ _ _

/-- Bytes that read as the same value are the same. -/
theorem memByte_eq_of_memRead_eq {m m' : List Host.Cell} {a n : Nat} (h : memRead m' a n = memRead m a n) {i : Nat}
    (hi : i < n) : memByte m' (a + i) = memByte m (a + i) := by
  induction n generalizing a i with
  | zero => omega
  | succ n ih =>
    have hb := (memByte m a).isLt
    have hb' := (memByte m' a).isLt
    simp only [memRead] at h
    cases i with
    | zero => exact BitVec.eq_of_toNat_eq (by simp only [Nat.add_zero]; omega)
    | succ i =>
      rw [show a + (i + 1) = a + 1 + i by omega]
      exact ih (by omega) (by omega)

/-- Settles O37: both runs leave the mask of the one source, and the mask determines the samples. -/
theorem kernelReadsOnlySource : Obligations.KernelReadsOnlySource := by
  intro s t t' m' p d hd hsame hexec hexec' hne
  have hmask := kernel_holdsMask hd hne hexec
  have hmask' : HoldsMask d s.lowS s.highS (s.desc p) s.mem t'.mem := by
    have hother := kernel_holdsMask (s := s.withMem m') (p := p) hd (by rwa [withMem_desc]) hexec'
    rw [withMem_desc] at hother
    exact holdsMask_congr hsame hother
  refine ⟨fun hint a ha => ?_, fun hf hin y x hy hx => ?_⟩
  · obtain ⟨y, x, i, hy, hx, hi, rfl⟩ := ha
    exact memByte_eq_of_memRead_eq (holdsMask_dstSample_unique hint hmask hmask' hy hx) hi
  · subst hf
    exact holdsMask_dstSample_key_unique hin hmask hmask' hy hx

end Sys2Proof.Proofs.Mask

/-! Every step keeps plane memory in its canonical form (20_memory.md R60, R62): an operation leaves memory as it is, or writes
only bytes that exist, since the descriptors it runs on were checked to lie in plane memory (R70). -/

namespace Sys2Proof.Proofs.Canonical

open Sys2Proof Sys2Proof.Machine Sys2Proof.Proofs.Registers Sys2Proof.Proofs.ResetMemory Sys2Proof.Proofs.Sequencer
  Sys2Proof.Proofs.Writers Sys2Proof.Proofs.Mask

/-- Plane memory in the canonical form stays so from s to t. -/
def KeepsCanonical (s t : State) : Prop := Memory.wf s.mem = true → Memory.wf t.mem = true

theorem keepsCanonical_refl (s : State) : KeepsCanonical s s := id

theorem keepsCanonical_of_mem_eq {s t : State} (h : t.mem = s.mem) : KeepsCanonical s t := by
  unfold KeepsCanonical
  rw [h]
  exact id

theorem KeepsCanonical.trans {s t u : State} (h1 : KeepsCanonical s t) (h2 : KeepsCanonical t u) : KeepsCanonical s u :=
  fun hm => h2 (h1 hm)

/-! The plane operations. -/

/-- The rows of a copied plane lie in plane memory. -/
theorem copyRows_keepsCanonical {d : Domain} {p : PlaneId} {y n : Nat} {s : State} (hr : descInRange d (s.desc p) = true)
    (hw : (s.desc p).width.toNat ≠ 0) (hn : y + n ≤ (s.desc p).height.toNat) :
    KeepsCanonical s (copyRows d p y n s) := by
  induction n generalizing y s with
  | zero => exact keepsCanonical_refl s
  | succ n ih =>
    have hrow : RowWritten d p y s (copyRow d p y s) := copyRow_written d p y s ⟨hr, hw, by omega⟩
    have hdesc := hrow.frame.desc p
    exact KeepsCanonical.trans hrow.canonical (ih (by rwa [hdesc]) (by rwa [hdesc]) (by rw [hdesc]; omega))

/-- An operation on a plane runs only where the plane has samples and its descriptor lies in plane memory. -/
theorem onPlane_keepsCanonical {p : PlaneId} {op : Domain → Host.Outcome State Fault Refusal} {s t : State}
    (hop : ∀ d, descValid d (s.desc p) = true → (s.desc p).width.toNat ≠ 0 → (s.desc p).height.toNat ≠ 0 →
      op d = .next t → KeepsCanonical s t) (h : onPlane p op s = .next t) : KeepsCanonical s t := by
  rcases (onPlane_next_iff p op s t).mp h with ⟨-, rfl⟩ | ⟨⟨hw, hh⟩, d, -, hv, hd⟩
  · exact keepsCanonical_refl _
  · exact hop d hv ((toNat_pos_iff _).mpr hw).ne' ((toNat_pos_iff _).mpr hh).ne' hd

theorem copyPlane_keepsCanonical {p : PlaneId} {s t : State} (h : onPlane p (fun d => .next (copyOp d p s)) s = .next t) :
    KeepsCanonical s t := by
  refine onPlane_keepsCanonical (fun d hv hw _ hd => ?_) h
  obtain ⟨hr, -⟩ := (descValid_iff _ _).mp hv
  cases hd
  exact copyRows_keepsCanonical hr hw (by omega)

theorem kernelPlane_keepsCanonical {p : PlaneId} {s t : State}
    (h : onColourPlane p (fun d => .next (kernelOp d p s)) s = .next t) : KeepsCanonical s t := by
  obtain ⟨-, hplane⟩ := (onColourPlane_next_iff _ _ _ _).mp h
  refine onPlane_keepsCanonical (fun d hv hw hh hd => ?_) hplane
  cases hd
  exact (kernelOp_masks hv hw hh).canonical

theorem rowForm_keepsCanonical {k : Tier} {p : PlaneId} {y : Word} {s t : State} (h : rowForm k p y s = .next t) :
    KeepsCanonical s t := by
  obtain ⟨-, ⟨-, rfl⟩ | ⟨d, -, hrow, rfl⟩⟩ := (rowForm_next_iff k p y s t).mp h
  · exact keepsCanonical_refl _
  · exact (rowOp_masks k d p y.toNat s hrow).canonical

theorem execZrow_keepsCanonical {p : PlaneId} {y : Word} {s t : State} (h : execZrow p y s = .next t) :
    KeepsCanonical s t := by
  obtain ⟨-, hplane⟩ := (onColourPlane_next_iff _ _ _ _).mp h
  refine onPlane_keepsCanonical (fun d hv hw hh hd => ?_) hplane
  obtain ⟨hr, -⟩ := (descValid_iff _ _).mp hv
  split at hd <;> cases hd
  rename_i hborder
  have hy : y.toNat < (s.desc p).height.toNat := by
    rcases hborder with rfl | hlast
    · exact Nat.pos_of_ne_zero hh
    · omega
  exact (zrowOp_written d p y.toNat s ⟨hr, hw, hy⟩).canonical

/-! The operations that leave plane memory as it is. -/

theorem frameOp_mem {s t : State} (h : frameOp s = .next t) : t.mem = s.mem := by
  rcases (frameOp_next_iff s t).mp h with ⟨-, rfl⟩ | ⟨-, d, -, -, rfl⟩ <;> rfl

theorem execWr_mem {offset data : Slot} {s t : State} (h : execWr offset data s = .next t) : t.mem = s.mem := by
  obtain ⟨r, -, ⟨-, hw⟩ | ⟨-, rfl⟩⟩ := (execWr_next_iff offset data s t).mp h
  · unfold writeCommand at hw
    split at hw
    · cases hw
      exact configureOp_mem s
    · split at hw
      · exact frameOp_mem hw
      · cases hw
        rfl
  · rcases writeReg_cases s r data with ⟨hr, -⟩ | hr <;> rw [hr]
    obtain ⟨-, hmem, -⟩ := storeReg_keeps s data r
    exact hmem

theorem whileUnconfigured_mem {op : State → State} (hop : ∀ s, (op s).mem = s.mem) {s t : State}
    (h : whileUnconfigured op s = .next t) : t.mem = s.mem := by
  rcases (whileUnconfigured_eq op s t).mp h with ⟨-, rfl⟩ | ⟨-, rfl⟩
  · exact hop s
  · rfl

theorem resolveOp_mem (req : Int) (s : State) : (resolveOp req s).mem = s.mem := by
  unfold resolveOp
  split <;> rfl

theorem deriveOp_mem (s : State) : (deriveOp s).mem = s.mem := by
  unfold deriveOp
  split <;> rfl

/-! Every step. -/

/-- Every operation keeps the canonical form. -/
theorem exec_keepsCanonical {i : Instr} {s t : State} (h : exec i s = .next t) : KeepsCanonical s t := by
  cases i with
  | configure =>
    cases h
    exact keepsCanonical_of_mem_eq (configureOp_mem s)
  | frame => exact keepsCanonical_of_mem_eq (frameOp_mem h)
  | reset =>
    cases h
    exact memAfterReset_wf s
  | wr offset data => exact keepsCanonical_of_mem_eq (execWr_mem h)
  | rd offset =>
    obtain ⟨r, -, rfl⟩ := (execRd_next_iff offset s t).mp h
    exact keepsCanonical_of_mem_eq rfl
  | capAuto | capScalar | capTier1 | capTier2 | capTier3 | resolve =>
    exact keepsCanonical_of_mem_eq (whileUnconfigured_mem (resolveOp_mem _) h)
  | validate =>
    exact keepsCanonical_of_mem_eq
      (whileUnconfigured_mem (op := fun t => t.withResult (BitVec.ofNat 64 (validateCode t))) (fun _ => rfl) h)
  | derive => exact keepsCanonical_of_mem_eq (whileUnconfigured_mem deriveOp_mem h)
  | untouched p =>
    simp only [exec, execUntouched] at h
    split at h <;> cases h
    exact keepsCanonical_refl s
  | copy p => exact copyPlane_keepsCanonical h
  | process p | kernel p => exact kernelPlane_keepsCanonical h
  | alphaCopy =>
    simp only [exec, execAlphaCopy] at h
    split at h
    · exact copyPlane_keepsCanonical h
    · cases h
      exact keepsCanonical_refl s
  | pixU8 | pixU16b10 | pixU16b12 | pixU16b14 | pixU16b16 | pixF32 =>
    cases h
    exact keepsCanonical_of_mem_eq rfl
  | rowScalar p y | rowT1 p y | rowT2 p y | rowT3 p y => exact rowForm_keepsCanonical h
  | zrow p y => exact execZrow_keepsCanonical h
  | vpix =>
    simp only [exec, execVpix] at h
    split at h <;> cases h
    exact keepsCanonical_of_mem_eq rfl

/-- The sequencer writes at most one row of a descriptor it has checked. -/
theorem sequencerStep_keepsCanonical {s t : State} (h : sequencerStep s = .next t) : KeepsCanonical s t := by
  rcases (sequencerStep_next_iff s t).mp h with ⟨-, rfl⟩ | ⟨-, -, rfl⟩ | ⟨-, q, d, -, -, hr, rfl⟩
  · exact keepsCanonical_refl _
  · exact keepsCanonical_of_mem_eq rfl
  · obtain ⟨u, next, he, rfl | ⟨-, -, hwritten⟩⟩ := sequencerAt_written d q s hr <;> rw [he]
    · exact keepsCanonical_of_mem_eq rfl
    · exact hwritten.canonical

theorem hostStep_keepsCanonical {e : HostEvent} {s t : State} (h : hostStep e s = .next t) : KeepsCanonical s t := by
  cases e with
  | request r =>
    simp only [hostStep] at h
    split at h
    · exact exec_keepsCanonical h
    · cases h
  | memWrite addr b =>
    obtain ⟨ha, -, rfl⟩ := (hostWrite_next_iff addr b s t).mp h
    exact memSet_wf s.mem addr b ha
  | memRead addr =>
    obtain ⟨-, ⟨-, -, rfl⟩ | ⟨-, rfl⟩⟩ := (hostRead_next_iff addr s t).mp h <;> exact keepsCanonical_of_mem_eq rfl

/-- Settles O54: each step is a step of the sequencer or an event of the host, and both keep the form. -/
theorem memoryStaysCanonical : Obligations.MemoryStaysCanonical := by
  intro s t hs hst
  rcases step_cases s with ⟨q, -, heq, -⟩ | ⟨e, rest, -, -, heq⟩ <;> rw [heq] at hst
  · exact sequencerStep_keepsCanonical hst hs
  · exact hostStep_keepsCanonical hst hs

end Sys2Proof.Proofs.Canonical

/-! Plane memory byte by byte: little-endian runs (20_memory.md R61, R62), and the contract of a FRAME's descriptors (R69 to R71). -/

namespace Sys2Proof.Proofs.Bytes

open Sys2Proof Sys2Proof.Machine Sys2Proof.Proofs.Sequencer

/-! Runs of bytes. -/

/-- The lowest byte, and 256 times the run above it: the sum of the bytes by their weight. -/
theorem memRead_eq_sum (m : List Host.Cell) (a n : Nat) :
    memRead m a n = ((List.range n).map fun i => (memByte m (a + i)).toNat * 2 ^ (8 * i)).sum := by
  induction n generalizing a with
  | zero => rfl
  | succ n ih =>
    rw [memRead, ih, List.range_succ_eq_map, List.map_cons, List.sum_cons, List.map_map, ← List.sum_map_mul_left]
    congr 1
    · simp
    · congr 1
      refine List.map_congr_left fun i _ => ?_
      simp only [Function.comp_apply, Nat.succ_eq_add_one]
      rw [show a + 1 + i = a + (i + 1) by omega, show 8 * (i + 1) = 8 * i + 8 by omega, Nat.pow_add]
      ring

/-- Settles O51: the sum of the bytes of a read, and the byte a write leaves at each address. -/
theorem littleEndian : Obligations.LittleEndian := by
  intro m addr n v
  refine ⟨memRead_eq_sum m addr n, fun i hi => ?_, fun a ha => ?_⟩
  · have hweight : 256 ^ i = 2 ^ (8 * i) := by rw [Nat.pow_mul]
    rw [memByte_memWrite, if_pos (by omega), Nat.add_sub_cancel_left, hweight, BitVec.toNat_ofNat]
  · rw [memByte_memWrite, if_neg (by omega)]

/-! The contract of a FRAME. -/

theorem dstFoot_apart_srcFoot_iff (d : Domain) (ds ds' : Desc) :
    (dstFoot d ds).apart (srcFoot d ds') = true ↔ ∀ a, DstByte d ds a → ¬SrcByte d ds' a := by
  simp only [Foot.apart_iff_no_common, ← Bool.not_eq_true, dstFoot_contains_iff, srcFoot_contains_iff]

theorem dstFoot_apart_dstFoot_iff (d : Domain) (ds ds' : Desc) :
    (dstFoot d ds).apart (dstFoot d ds') = true ↔ ∀ a, DstByte d ds a → ¬DstByte d ds' a := by
  simp only [Foot.apart_iff_no_common, ← Bool.not_eq_true, dstFoot_contains_iff]

/-- V4 between two accessed planes (20_memory.md R70). -/
theorem planesApart_iff (d : Domain) (s : State) (p q : PlaneId) :
    ((dstFoot d (s.desc p)).apart (srcFoot d (s.desc q)) = true ∧
      (p = q ∨ (dstFoot d (s.desc p)).apart (dstFoot d (s.desc q)) = true)) ↔
    ∀ a, DstByte d (s.desc p) a → ¬SrcByte d (s.desc q) a ∧ (q ≠ p → ¬DstByte d (s.desc q) a) := by
  rw [dstFoot_apart_srcFoot_iff, dstFoot_apart_dstFoot_iff]
  constructor
  · rintro ⟨hsrc, heq | hdst⟩ a ha
    · exact ⟨hsrc a ha, fun hne => absurd heq.symm hne⟩
    · exact ⟨hsrc a ha, fun _ => hdst a ha⟩
  · intro h
    refine ⟨fun a ha => (h a ha).1, ?_⟩
    by_cases hpq : p = q
    · exact .inl hpq
    · exact .inr fun a ha => (h a ha).2 (Ne.symm hpq)

theorem word_toNat_eq_zero_iff (w : Word) : w.toNat = 0 ↔ w = 0 := by
  rw [← BitVec.toNat_inj]
  rfl

/-- Settles O43: the model's check of each accessed plane and of each pair, in bytes. -/
theorem frameContract : Obligations.FrameContract := by
  intro s d accessed
  have hacc : ∀ p, p ∈ accessedPlanes s ↔ accessed p := fun p => (mem_accessedPlanes s p).trans (isAccessed_iff s p)
  rw [frameValid_iff]
  simp only [hacc, planesApart_iff, descInRange_iff, word_toNat_eq_zero_iff, Config.planeMemoryEnd]
  refine forall₂_congr fun p _ => ?_
  tauto

/-- Settles O45: the check of the descriptors stands before the acceptance. -/
theorem frameOutsideContract : Obligations.FrameOutsideContract := by
  intro s d hr hd hv
  simp only [exec, execFrame, frameOp, if_pos hr, hd, hv, Bool.false_eq_true, if_false]

end Sys2Proof.Proofs.Bytes

/-! The host's accesses to plane memory, outside BUSY and during it (20_memory.md R60, R75, R77). -/

namespace Sys2Proof.Proofs.HostMemory

open Sys2Proof Sys2Proof.Machine Sys2Proof.Proofs.Sequencer Sys2Proof.Proofs.Writers

/-- A step in which an event of the host is due is that event. -/
theorem step_of_due {s : State} {e : HostEvent} {rest : List Pending} (h : s.inbox = { gap := 0, event := e } :: rest) :
    step s = hostStep e (s.withInbox rest) := by
  simp only [step, h]

/-! The bytes of a running FRAME. -/

theorem inSource_iff {s : State} {d : Domain} (hd : domainOf s = some d) (a : Nat) :
    inSource s a = true ↔
      ∃ p, (isPresent s p = true ∧ (effMode s p = 2 ∨ effMode s p = 3)) ∧ SrcByte d (s.desc p) a := by
  simp only [inSource, hd, List.any_eq_true, mem_accessedPlanes, isAccessed_iff, srcFoot_contains_iff]

theorem inDestination_iff {s : State} {d : Domain} (hd : domainOf s = some d) (a : Nat) :
    inDestination s a = true ↔
      ∃ p, (isPresent s p = true ∧ (effMode s p = 2 ∨ effMode s p = 3)) ∧ DstByte d (s.desc p) a := by
  simp only [inDestination, hd, List.any_eq_true, mem_accessedPlanes, isAccessed_iff, dstFoot_contains_iff]

/-! What an access does. -/

/-- A host write that the running FRAME does not forbid changes its byte only (20_memory.md R60). -/
theorem hostWrite_completes {s : State} {a : Nat} (b : Byte) (ha : a < 2 ^ 64)
    (hfree : s.run = .busy → inSource s a = false ∧ inDestination s a = false) :
    ∃ m, hostWrite a b s = .next (s.withMem m) ∧ memByte m a = b ∧ ∀ a', a' ≠ a → memByte m a' = memByte s.mem a' := by
  refine ⟨memSet s.mem a b, (hostWrite_next_iff _ _ _ _).mpr ⟨ha, hfree, rfl⟩, ?_, fun a' hne => ?_⟩
  · rw [memByte_memSet, if_pos rfl]
  · rw [memByte_memSet, if_neg hne]

theorem hostWrite_source {s : State} {a : Nat} (b : Byte) (ha : a < 2 ^ 64) (hb : s.run = .busy) (h : inSource s a = true) :
    hostWrite a b s = .refused .sourceWrittenWhileBusy := by
  rw [hostWrite, if_neg (show ¬Config.planeMemoryEnd ≤ a from Nat.not_le.mpr ha), if_pos ⟨hb, h⟩]

theorem hostWrite_destination {s : State} {a : Nat} (b : Byte) (ha : a < 2 ^ 64) (hb : s.run = .busy)
    (hsrc : inSource s a = false) (hdst : inDestination s a = true) :
    hostWrite a b s = .refused .destinationWrittenWhileBusy := by
  rw [hostWrite, if_neg (show ¬Config.planeMemoryEnd ≤ a from Nat.not_le.mpr ha), if_neg (by simp [hsrc]), if_pos ⟨hb, hdst⟩]

/-- A host read of a byte that the running FRAME does not write returns it (20_memory.md R60). -/
theorem hostRead_completes {s : State} {a : Nat} (ha : a < 2 ^ 64) (hfree : s.run = .busy → inDestination s a = false) :
    hostRead a s = .next (s.withResult ((memByte s.mem a).setWidth 64)) := by
  refine (hostRead_next_iff _ _ _).mpr ⟨ha, .inr ⟨?_, rfl⟩⟩
  rintro ⟨hb, hdst⟩
  rw [hfree hb] at hdst
  cases hdst

/-- A host read of a destination byte of the running FRAME returns a free value (20_memory.md R75 M3). -/
theorem hostRead_destination {s : State} {a : Nat} (ha : a < 2 ^ 64) (hb : s.run = .busy) (h : inDestination s a = true) :
    hostRead a s = .next ((s.withResult ((Config.freeByte s.draws a).setWidth 64)).nextDraw) :=
  (hostRead_next_iff _ _ _).mpr ⟨ha, .inl ⟨hb, h, rfl⟩⟩

/-- Settles O52: outside BUSY no byte is the FRAME's, and an address past the end faults first. -/
theorem hostMemoryAccess : Obligations.HostMemoryAccess := by
  intro s rest a b
  refine ⟨fun hin hb ha => ?_, fun hin hb ha => ?_, fun hin ha => ?_⟩
  · rw [step_of_due hin]
    exact hostWrite_completes (s := s.withInbox rest) b ha fun hbusy => absurd hbusy hb
  · rw [step_of_due hin]
    exact hostRead_completes (s := s.withInbox rest) ha fun hbusy => absurd hbusy hb
  · rcases hin with hin | hin <;> rw [step_of_due hin]
    · exact if_pos ha
    · exact if_pos ha

/-- Settles O53: whose byte it is decides what the access does; V4 keeps a destination byte out of the sources. -/
theorem busyOwnership : Obligations.BusyOwnership := by
  intro s rest d a b hb hd ha accessed
  have hd' : domainOf (s.withInbox rest) = some d := hd
  have hb' : (s.withInbox rest).run = .busy := hb
  have hsrc : inSource (s.withInbox rest) a = true ↔ ∃ p, accessed p ∧ SrcByte d (s.desc p) a := by
    simpa using inSource_iff hd' a
  have hdst : inDestination (s.withInbox rest) a = true ↔ ∃ p, accessed p ∧ DstByte d (s.desc p) a := by
    simpa using inDestination_iff hd' a
  refine ⟨fun hin => ?_, fun hin => ?_⟩ <;> rw [step_of_due hin]
  · refine ⟨fun p hp hc => ?_, fun p hp hc hv => ?_, fun hout => ?_⟩
    · exact hostWrite_source b ha hb' (hsrc.mpr ⟨p, hp, (srcFoot_contains_iff _ _ _).mp hc⟩)
    · have hacc := (mem_accessedPlanes s p).mpr ((isAccessed_iff s p).mpr hp)
      obtain ⟨-, d', hd'', -, hnone⟩ := frameMayWrite_of_contains hb hd hv hacc hc
      rw [hd] at hd''
      cases hd''
      refine hostWrite_destination b ha hb' (Bool.eq_false_iff.mpr fun h => ?_)
        (hdst.mpr ⟨p, hp, (dstFoot_contains_iff _ _ _).mp hc⟩)
      obtain ⟨q, ⟨hpresent, hmode⟩, hbyte⟩ := hsrc.mp h
      exact hnone q hpresent hmode hbyte
    · refine hostWrite_completes (s := s.withInbox rest) b ha fun _ => ⟨?_, ?_⟩ <;>
        refine Bool.eq_false_iff.mpr fun h => ?_
      · obtain ⟨p, hp, hbyte⟩ := hsrc.mp h
        exact And.left (hout p hp) hbyte
      · obtain ⟨p, hp, hbyte⟩ := hdst.mp h
        exact And.right (hout p hp) hbyte
  · refine ⟨fun p hp hc => ?_, fun hout => ?_⟩
    · exact ⟨_, hostRead_destination ha hb' (hdst.mpr ⟨p, hp, (dstFoot_contains_iff _ _ _).mp hc⟩)⟩
    · refine hostRead_completes (s := s.withInbox rest) ha fun _ => Bool.eq_false_iff.mpr fun h => ?_
      obtain ⟨p, hp, hbyte⟩ := hdst.mp h
      exact hout p hp hbyte

end Sys2Proof.Proofs.HostMemory

/-! Where the plane operations are refused (20_memory.md R71, 30_encoding.md R108, 41_threshold_kernel.md R182, R183,
43_dispatch.md R247, R248). -/

namespace Sys2Proof.Proofs.PlaneStops

open Sys2Proof Sys2Proof.Machine Sys2Proof.Proofs.Cursors

/-! The guards, one by one. -/

section

variable {p : PlaneId} {s : State} (hne : PlaneNotEmpty (s.desc p)) (op : Domain → Host.Outcome State Fault Refusal)

include hne

theorem onPlane_noSampleDomain (hd : domainOf s = none) : onPlane p op s = .refused .noSampleDomain := by
  simp only [onPlane, if_neg (not_or.mpr hne), hd]

theorem onPlane_outsideContract {d : Domain} (hd : domainOf s = some d) (hv : descValid d (s.desc p) = false) :
    onPlane p op s = .refused .descriptorOutsideContract := by
  simp only [onPlane, if_neg (not_or.mpr hne), hd, hv, Bool.false_eq_true, if_false]

theorem onPlane_of_valid {d : Domain} (hd : domainOf s = some d) (hv : descValid d (s.desc p) = true) :
    onPlane p op s = op d := by
  simp only [onPlane, if_neg (not_or.mpr hne), hd, hv, if_true]

end

/-- The operations a colour plane is given: KERNEL, PROCESS, ZROW and the row forms are their effect behind the guard for
colour planes (43_dispatch.md R248). -/
theorem exec_onColourPlane {p : PlaneId} {y : Word} {k : Tier} {i : Instr}
    (hi : i ∈ [Instr.kernel p, .process p, .zrow p y, rowInstr p y k]) (s : State) :
    ∃ op, exec i s = onColourPlane p op s := by
  fin_cases hi
  · exact ⟨_, rfl⟩
  · exact ⟨_, rfl⟩
  · exact ⟨_, rfl⟩
  · exact ⟨_, exec_rowInstr p y k s⟩

theorem onColourPlane_of_isColour {p : PlaneId} (hc : p.isColour = true)
    (op : Domain → Host.Outcome State Fault Refusal) (s : State) : onColourPlane p op s = onPlane p op s := if_pos hc

/-- Alpha is present where FMT.HAS_ALPHA is set (10_state.md R30, 43_dispatch.md R241). -/
theorem isPresent_alpha {s : State} (h : fmtField s 12 1 = 1) : isPresent s .a = true := by
  simp only [isPresent, fmtHasAlpha, BitVec.getLsbD, Nat.testBit_eq_decide_div_mod_eq, decide_eq_true_eq]
  exact h

theorem exec_alphaCopy_of_present {s : State} (h : isPresent s .a = true) : exec .alphaCopy s = exec (.copy .a) s := if_pos h

/-- Settles O42: the guards in their order, then the row the operation takes. -/
theorem planeOperationsStop : Obligations.PlaneOperationsStop := by
  intro s p y k
  refine ⟨fun hne hd => ⟨onPlane_noSampleDomain hne _ hd, fun hc i hi => ?_⟩,
    fun d hne hd hv => ⟨onPlane_outsideContract hne _ hd hv, fun hc i hi => ?_⟩, fun halpha hne => ?_,
    fun d hne hc hd hv => ⟨fun hy => ?_, fun hfirst hlast => ?_⟩, fun i hi => ?_⟩
  · obtain ⟨op, hop⟩ := exec_onColourPlane hi s
    rw [hop, onColourPlane_of_isColour hc, onPlane_noSampleDomain hne _ hd]
  · obtain ⟨op, hop⟩ := exec_onColourPlane hi s
    rw [hop, onColourPlane_of_isColour hc, onPlane_outsideContract hne _ hd hv]
  · rw [exec_alphaCopy_of_present (isPresent_alpha halpha)]
    exact ⟨onPlane_noSampleDomain (p := .a) hne _, fun d => onPlane_outsideContract (p := .a) hne _⟩
  · rw [exec_rowInstr, rowForm, onColourPlane_of_isColour hc, onPlane_of_valid hne _ hd hv, if_neg (by omega)]
  · have hzero : y ≠ 0 := by
      rintro rfl
      exact hfirst rfl
    have hexec : exec (.zrow p y) s = execZrow p y s := rfl
    rw [hexec, execZrow, onColourPlane_of_isColour hc, onPlane_of_valid hne _ hd hv, if_neg (by tauto)]
  · have hmem : i ∈ [Instr.kernel .a, .process .a, .zrow .a y, rowInstr .a y k] := by
      simp only [List.mem_cons] at hi ⊢
      tauto
    obtain ⟨op, hop⟩ := exec_onColourPlane hmem s
    exact hop

end Sys2Proof.Proofs.PlaneStops

/-! The encodings: which operation each selecting register's table gives, that every well-formed operation is decoded from its own
encoding and nothing else is decoded, and the sample domain a FMT word selects (30_encoding.md R100 to R111). -/

namespace Sys2Proof.Proofs.Encoding

open Sys2Proof Sys2Proof.Machine Sys2Proof.Proofs.HostActions

/-! Register accesses. -/

theorem wr_wellFormed_iff (offset data : Slot) :
    WellFormed (.wr offset data) = true ↔ isSlotOffset offset = true ∧ isCommandWrite offset data = false := by
  rw [WellFormed, Bool.and_eq_true, Bool.not_eq_true']

theorem decodeWrite_of_wellFormed {offset data : Slot} (h : WellFormed (.wr offset data) = true) :
    decodeWrite offset data = .ok (.wr offset data) := by
  obtain ⟨hs, hc⟩ := (wr_wellFormed_iff offset data).mp h
  rw [decodeWrite, if_pos hs, if_neg (by rw [hc]; decide)]

theorem isSlotOffset_of_decodeWrite {offset data : Slot} {i : Instr} (h : decodeWrite offset data = .ok i) :
    isSlotOffset offset = true := by
  by_contra hs
  rw [decodeWrite, if_neg hs] at h
  cases h

theorem decode_read_ok_iff (offset : Slot) (i : Instr) :
    decode (.read offset) = .ok i ↔ isSlotOffset offset = true ∧ i = .rd offset := by
  simp only [decode]
  split <;> simp_all [eq_comm (b := i)]

/-! The selecting registers and their tables. -/

theorem decode_select_mode {q : PlaneId} (hq : q.isColour = true) (word : Word) (p : PlaneId) (y : Word) :
    decode (.select (modeOffset q) word p y) = decodeMode q word := by
  cases q with
  | y | u | v => rfl
  | a => cases hq

theorem decode_select_capReq (word : Word) (p : PlaneId) (y : Word) :
    decode (.select 0x040 word p y) = decodeCap word := rfl

theorem decode_select_fmt (word : Word) (p : PlaneId) (y : Word) :
    decode (.select 0x048 word p y) = decodePixel word := rfl

/-- A selected operation stands in the table of one of the selecting registers (30_encoding.md R111). -/
theorem decodeSelect_cases {offset : Slot} {word : Word} {p : PlaneId} {y : Word} {i : Instr}
    (h : decodeSelect offset word p y = .ok i) :
    decodeRow word p y = .ok i ∨ (∃ q : PlaneId, q.isColour = true ∧ decodeMode q word = .ok i) ∨
      decodeCap word = .ok i ∨ decodePixel word = .ok i := by
  unfold decodeSelect at h
  split at h
  · exact .inl h
  · exact .inr (.inl ⟨.y, rfl, h⟩)
  · exact .inr (.inl ⟨.u, rfl, h⟩)
  · exact .inr (.inl ⟨.v, rfl, h⟩)
  · exact .inr (.inr (.inl h))
  · exact .inr (.inr (.inr h))
  · cases h

/-- Mode values (30_encoding.md R105). -/
theorem decodeMode_ok_iff (p : PlaneId) (word : Word) (i : Instr) :
    decodeMode p word = .ok i ↔
      (word.toInt = 1 ∧ i = .untouched p) ∨ (word.toInt = 2 ∧ i = .copy p) ∨ (word.toInt = 3 ∧ i = .process p) := by
  unfold decodeMode
  split_ifs with h1 h2 h3 <;> simp_all [eq_comm (b := i)]

theorem exists_tier_iff (P : Tier → Prop) : (∃ k, P k) ↔ P .scalar ∨ P .tier1 ∨ P .tier2 ∨ P .tier3 := by
  constructor
  · rintro ⟨k, hk⟩
    cases k <;> tauto
  · rintro (h | h | h | h) <;> exact ⟨_, h⟩

/-- Capability request values (30_encoding.md R106). -/
theorem decodeCap_ok_iff (word : Word) (i : Instr) :
    decodeCap word = .ok i ↔
      (word.toInt = -1 ∧ i = .capAuto) ∨ ∃ k : Tier, word.toInt = tierCode k ∧ i = capInstr k := by
  rw [exists_tier_iff]
  unfold decodeCap
  split_ifs with hauto h0 h1 h2 h3 <;> simp_all [tierCode, capInstr, eq_comm (b := i)]

/-- Each of the four values of a two-bit field is the code of a level (30_encoding.md R103). -/
theorem exists_tierCode_eq (b : BitVec 2) : ∃ k, b.toNat = tierCode k := by
  rw [exists_tier_iff]
  have hb := b.isLt
  simp only [tierCode]
  omega

/-- STATUS.BACKEND selects the row form (30_encoding.md R110 (f)). -/
theorem decodeRow_ok_iff (word : Word) (p : PlaneId) (y : Word) (i : Instr) :
    decodeRow word p y = .ok i ↔
      p.isColour = true ∧ ∃ k, (word.extractLsb' 2 2).toNat = tierCode k ∧ i = rowInstr p y k := by
  unfold decodeRow
  by_cases hp : p.isColour = true
  · obtain ⟨k, hk⟩ := exists_tierCode_eq (word.extractLsb' 2 2)
    rw [if_pos hp, exists_tier_iff, hk]
    cases k <;> simp [hp, tierCode, rowInstr, eq_comm]
  · simp [hp]

theorem decode_select_row {word : Word} {p : PlaneId} (hp : p.isColour = true) (y : Word) (k : Tier)
    (hk : (word.extractLsb' 2 2).toNat = tierCode k) : decode (.select 0x008 word p y) = .ok (rowInstr p y k) :=
  (decodeRow_ok_iff word p y _).mpr ⟨hp, k, hk, rfl⟩

theorem rowInstr_wellFormed (p : PlaneId) (y : Word) (k : Tier) : WellFormed (rowInstr p y k) = p.isColour := by
  cases k <;> rfl

theorem capInstr_wellFormed (k : Tier) : WellFormed (capInstr k) = true := by
  cases k <;> rfl

theorem pixInstr_wellFormed (d : Domain) : WellFormed (pixInstr d) = true := by
  cases d <;> rfl

theorem decodeMode_wellFormed {p : PlaneId} (hp : p.isColour = true) {word : Word} {i : Instr}
    (h : decodeMode p word = .ok i) : WellFormed i = true := by
  rcases (decodeMode_ok_iff p word i).mp h with ⟨-, rfl⟩ | ⟨-, rfl⟩ | ⟨-, rfl⟩ <;> exact hp

theorem decodeFixed_wellFormed {op : FixedOp} {p : PlaneId} {y : Word} {i : Instr} (h : decodeFixed op p y = .ok i) :
    WellFormed i = true := by
  cases op with
  | kernel | zrow =>
    simp only [decodeFixed] at h
    split at h <;> cases h
    assumption
  | _ => cases h; rfl

/-! FMT (30_encoding.md R108, R110 (e)). -/

/-- FMT.FLOAT of a domain (30_encoding.md R108). -/
def floatBit : Domain → Nat
  | .f32 => 1
  | .u8 | .u16b10 | .u16b12 | .u16b14 | .u16b16 => 0

theorem fmtBits_eq (w : Word) : fmtBits w = w.toNat % 2 ^ 8 := by
  simp [fmtBits, BitVec.extractLsb'_toNat]

theorem fmtFloat_iff (w : Word) : fmtFloat w = true ↔ w.toNat / 2 ^ 8 % 2 = 1 := by
  simp [fmtFloat, BitVec.getLsbD, Nat.testBit_eq_decide_div_mod_eq]

/-- A FMT word selects the domain with its FLOAT and BITS (30_encoding.md R108). -/
theorem domainOfFmt_eq_some_iff (w : Word) (d : Domain) :
    domainOfFmt w = some d ↔ w.toNat / 2 ^ 8 % 2 = floatBit d ∧ w.toNat % 2 ^ 8 = bitDepth d := by
  rw [← fmtBits_eq]
  unfold domainOfFmt
  by_cases hf : fmtFloat w = true
  · rw [if_pos hf, (fmtFloat_iff w).mp hf]
    cases d <;> simp [floatBit, bitDepth]
  · have h0 : w.toNat / 2 ^ 8 % 2 = 0 := by
      have := mt (fmtFloat_iff w).mpr hf
      omega
    rw [if_neg hf, h0]
    cases d <;> simp only [floatBit, bitDepth] <;> (repeat' split) <;> simp_all

/-- FMT[8:0] selects the pixel operation (30_encoding.md R110 (e)). -/
theorem decodePixel_ok_iff (word : Word) (i : Instr) :
    decodePixel word = .ok i ↔ ∃ d, (word.setWidth 9).toNat = 2 ^ 8 * floatBit d + bitDepth d ∧ i = pixInstr d := by
  constructor
  · intro h
    unfold decodePixel at h
    split at h <;> cases h
    · exact ⟨.u8, ‹_›, rfl⟩
    · exact ⟨.u16b10, ‹_›, rfl⟩
    · exact ⟨.u16b12, ‹_›, rfl⟩
    · exact ⟨.u16b14, ‹_›, rfl⟩
    · exact ⟨.u16b16, ‹_›, rfl⟩
    · exact ⟨.f32, ‹_›, rfl⟩
  · rintro ⟨d, hd, rfl⟩
    rw [decodePixel, hd]
    cases d <;> rfl

theorem bitDepth_lt (d : Domain) : bitDepth d < 2 ^ 8 := by cases d <;> decide

/-- FLOAT and BITS together are bits 8 to 0 of the word. -/
theorem toNat_setWidth_nine_eq_iff (w : Word) (d : Domain) :
    (w.setWidth 9).toNat = 2 ^ 8 * floatBit d + bitDepth d ↔ domainOfFmt w = some d := by
  have hb := bitDepth_lt d
  rw [domainOfFmt_eq_some_iff, BitVec.toNat_setWidth]
  omega

theorem domainOf_eq_some_iff (s : State) (d : Domain) :
    domainOf s = some d ↔ fmtField s 8 1 = floatBit d ∧ fmtField s 0 8 = bitDepth d := by
  simp [domainOf, domainOfFmt_eq_some_iff, fmtField]

/-- The check with code 5 fails where FMT selects no domain (60_exceptions.md R274). -/
theorem domainOf_eq_none_of_checkFails {s : State} (h : CheckFails s 5) : domainOf s = none := by
  rw [Option.eq_none_iff_forall_ne_some]
  intro d hd
  obtain ⟨hfloat, hbits⟩ := (domainOf_eq_some_iff s d).mp hd
  refine h ?_
  rw [hfloat, hbits]
  cases d <;> decide

/-- CONFIGURE takes the configuration error where FMT selects no domain (30_encoding.md R108, 60_exceptions.md R274). -/
theorem configureOp_error_of_domainOf_none {s : State} (hd : domainOf s = none) (hu : s.run = .unconfigured) :
    (configureOp s).run = .error := by
  rcases configureOp_cases s with ⟨hne, -⟩ | ⟨-, -, hc⟩ | ⟨-, d, t, ⟨-, -, -, -, hsome, -⟩, -⟩
  · exact absurd hu hne
  · rw [hc, raiseConfigError_run]
  · rw [hd] at hsome
    cases hsome

/-! The settled statements. -/

/-- Settles O1: each operation's own encoding, through the table of the register that selects it. -/
theorem decodeEncode : Obligations.DecodeEncode := by
  intro i hi
  cases i with
  | wr offset data => exact decodeWrite_of_wellFormed hi
  | rd offset => exact (decode_read_ok_iff _ _).mpr ⟨hi, rfl⟩
  | untouched p | copy p | process p => exact (decode_select_mode hi _ _ _).trans rfl
  | rowScalar p y => exact decode_select_row hi y .scalar rfl
  | rowT1 p y => exact decode_select_row hi y .tier1 rfl
  | rowT2 p y => exact decode_select_row hi y .tier2 rfl
  | rowT3 p y => exact decode_select_row hi y .tier3 rfl
  | kernel p | zrow p y => exact if_pos hi
  | _ => rfl

/-- Settles O2: by the kind of request, then by the table its register has. -/
theorem decodedIsWellFormed : Obligations.DecodedIsWellFormed := by
  intro r i h
  cases r with
  | write offset data =>
    have hs := isSlotOffset_of_decodeWrite h
    rcases decodeWrite_cases h with rfl | rfl | ⟨rfl, hc⟩
    · rfl
    · rfl
    · exact (wr_wellFormed_iff offset data).mpr ⟨hs, hc⟩
  | read offset =>
    obtain ⟨hs, rfl⟩ := (decode_read_ok_iff offset i).mp h
    exact hs
  | narrow offset bytes => cases h
  | rst => cases h; rfl
  | select offset word p y =>
    rcases decodeSelect_cases h with hrow | ⟨q, hq, hmode⟩ | hcap | hpix
    · obtain ⟨hp, k, -, rfl⟩ := (decodeRow_ok_iff word p y i).mp hrow
      rw [rowInstr_wellFormed, hp]
    · exact decodeMode_wellFormed hq hmode
    · obtain ⟨-, rfl⟩ | ⟨k, -, rfl⟩ := (decodeCap_ok_iff word i).mp hcap
      · rfl
      · exact capInstr_wellFormed k
    · obtain ⟨d, -, rfl⟩ := (decodePixel_ok_iff word i).mp hpix
      exact pixInstr_wellFormed d
  | fixed op p y => exact decodeFixed_wellFormed h

/-- Settles O3: a round trip for six of the words; the stray bits of a FMT word and of a STATUS word do not select. -/
theorem decodeWords : Obligations.DecodeWords :=
  ⟨decodeEncode .configure rfl, decodeEncode .frame rfl, decodeEncode (.wr 0x040 0x00000000FFFFFFFF) rfl,
    decodeEncode (.rd 0x008) rfl, decodeEncode (.process .u) rfl, decodeEncode .capAuto rfl,
    (decodePixel_ok_iff 0x810 _).mpr ⟨.u16b16, rfl, rfl⟩,
    decode_select_row rfl 7 .tier2 rfl⟩

/-- Settles O4: the tables of the three mode registers and of CAP_REQ. -/
theorem optionsSelect : Obligations.OptionsSelect := by
  intro word y p i
  rw [decode_select_capReq]
  refine ⟨fun c hc => ?_, decodeCap_ok_iff word i⟩
  obtain ⟨hcolour, hoffset⟩ : c.2.isColour = true ∧ c.1 = modeOffset c.2 := by
    fin_cases hc <;> exact ⟨rfl, rfl⟩
  rw [hoffset, decode_select_mode hcolour]
  exact decodeMode_ok_iff c.2 word i

/-- Settles O5: the pair of fields that each domain has, and CONFIGURE where no domain has the pair. -/
theorem formatSelectsDomain : Obligations.FormatSelectsDomain := by
  intro s
  refine ⟨fun hf hb => ⟨(domainOf_eq_some_iff s .u8).mpr ⟨hf, hb⟩, rfl⟩, fun c hc hf hb => ?_,
    fun hf hb => ⟨(domainOf_eq_some_iff s .f32).mpr ⟨hf, hb⟩, rfl⟩, fun hfail => ?_⟩
  · obtain ⟨hfloat, hbits, hsize⟩ : floatBit c.2 = 0 ∧ bitDepth c.2 = c.1 ∧ elemSize c.2 = 2 := by
      fin_cases hc <;> exact ⟨rfl, rfl, rfl⟩
    exact ⟨(domainOf_eq_some_iff s c.2).mpr ⟨hf.trans hfloat.symm, hb.trans hbits.symm⟩, hsize⟩
  · have hnone := domainOf_eq_none_of_checkFails hfail
    exact ⟨hnone, fun hu => ⟨configureOp s, rfl, configureOp_error_of_domainOf_none hnone hu⟩⟩

/-- Settles O6: the decoder compares bits 8 to 0 only, which are the FLOAT and BITS of a domain. -/
theorem formatSelectsPixel : Obligations.FormatSelectsPixel := by
  intro word y p i
  refine ⟨?_, fun word' hlow => ?_⟩
  · simp only [decode_select_fmt, decodePixel_ok_iff, toNat_setWidth_nine_eq_iff]
  · have hbits : word'.setWidth 9 = word.setWidth 9 := by
      rw [← BitVec.toNat_inj, BitVec.toNat_setWidth, BitVec.toNat_setWidth, hlow]
    rw [decode_select_fmt, decode_select_fmt, decodePixel, decodePixel, hbits]

end Sys2Proof.Proofs.Encoding

/-! The derived constants and the comparison bounds (40_numeric_domain.md R141 to R148): DERIVE and a successful CONFIGURE store the
constants of the domain, an integer bound is an exact product, and a float bound is one correctly rounded quotient, because
f32(threshold) and 255.0 are exact. -/

namespace Sys2Proof.Proofs.Derive

open Sys2Proof Sys2Proof.Machine Sys2Proof.Proofs.Float32

/-! What DERIVE and a successful CONFIGURE do. -/

theorem domainOf_of_validConfig {s : State} {d : Domain} (h : ValidConfig s d) : domainOf s = some d := by
  obtain ⟨-, -, -, -, hd, -, -⟩ := h
  exact hd

/-- The thresholds of a valid configuration, as naturals (60_exceptions.md R272, R273). -/
theorem thresholds_of_validConfig {s : State} {d : Domain} (h : ValidConfig s d) :
    s.thrLow.toNat ≤ s.thrHigh.toNat ∧ s.thrHigh.toNat ≤ 255 := by
  obtain ⟨-, -, ⟨⟨hlow, -⟩, hhigh, hmax⟩, hle, -, -, -⟩ := h
  have nonneg : ∀ w : Word, 0 ≤ w.toInt → w.toInt = w.toNat := fun w hw =>
    BitVec.toInt_eq_toNat_of_msb (by rw [BitVec.msb_eq_toInt, decide_eq_false (Int.not_lt.mpr hw)])
  rw [nonneg _ hlow, nonneg _ hhigh] at hle
  rw [nonneg _ hhigh] at hmax
  omega

/-- A CONFIGURE that reaches READY accepted a valid configuration (43_dispatch.md R230). -/
theorem exec_configure_ready {s t : State} (hu : s.run = .unconfigured) (h : exec .configure s = .next t)
    (hr : t.run = .ready) : ∃ d k, ValidConfig s d ∧ t = enterReady d k s := by
  obtain rfl := (next_eq_iff _ _).mp h
  rcases configureOp_cases s with ⟨hne, -⟩ | ⟨-, -, he⟩ | ⟨-, d, k, hv, -, hk⟩
  · exact absurd hu hne
  · rw [he, raiseConfigError_run] at hr
    cases hr
  · exact ⟨d, k, hv, hk⟩

/-- A CONFIGURE that reaches READY stores the constants of the domain that FMT selects (40_numeric_domain.md R147, R148). -/
theorem configure_ready_bounds {s t : State} {d : Domain} (hu : s.run = .unconfigured) (hd : domainOf s = some d)
    (h : exec .configure s = .next t) (hr : t.run = .ready) :
    ValidConfig s d ∧ t.scale = BitVec.ofNat 32 (scaleOf d) ∧ t.lowS = boundOf d s.thrLow ∧
      t.highS = boundOf d s.thrHigh := by
  obtain ⟨d', k, hv, rfl⟩ := exec_configure_ready hu h hr
  obtain rfl : d' = d := Option.some.inj ((domainOf_of_validConfig hv).symm.trans hd)
  exact ⟨hv, rfl, rfl, rfl⟩

theorem exec_derive_of_unconfigured {s : State} (hu : s.run = .unconfigured) : exec .derive s = .next (deriveOp s) :=
  (whileUnconfigured_eq deriveOp s _).mpr (.inl ⟨hu, rfl⟩)

theorem deriveOp_of_validConfig {s : State} {d : Domain} (hv : ValidConfig s d) : deriveOp s = deriveConsts d s := by
  rw [deriveOp, domainOf_of_validConfig hv, (validateCode_eq_zero_iff s).mpr ⟨d, hv⟩]
  rfl

/-- On a configuration that fails VALIDATE the five registers take free values (entry 10). -/
theorem deriveOp_of_invalid {s : State} (h : ∀ d, ¬ValidConfig s d) :
    deriveOp s = (s.withConsts (Config.freeWord s.draws 0) (Config.freeWord s.draws 1) (Config.freeWord s.draws 2)
      (Config.freeWord s.draws 3) (Config.freeWord s.draws 4)).nextDraw := by
  have hz : validateCode s ≠ 0 := fun hz =>
    let ⟨d, hv⟩ := (validateCode_eq_zero_iff s).mp hz
    h d hv
  unfold deriveOp
  split
  · contradiction
  · rfl

/-! The integer domains. -/

theorem boundOf_integer {d : Domain} (hd : d ≠ .f32) (thr : Word) :
    boundOf d thr = BitVec.ofNat 32 (thr.toNat * scaleOf d) := by
  cases d with
  | f32 => contradiction
  | _ => rfl

theorem scaleOf_le (d : Domain) : scaleOf d ≤ 257 := by cases d <;> decide

theorem scaleOf_toNat (d : Domain) : (BitVec.ofNat 32 (scaleOf d)).toNat = scaleOf d := by cases d <;> rfl

/-- The product of a threshold in range and SCALE fits its register (40_numeric_domain.md R145). -/
theorem boundOf_integer_toNat {d : Domain} (hd : d ≠ .f32) {thr : Word} (h : thr.toNat ≤ 255) :
    (boundOf d thr).toNat = thr.toNat * scaleOf d := by
  have hprod : thr.toNat * scaleOf d ≤ 255 * 257 := Nat.mul_le_mul h (scaleOf_le d)
  rw [boundOf_integer hd, BitVec.toNat_ofNat, Nat.mod_eq_of_lt (by omega)]

/-- As 32-bit patterns the signed and the unsigned product agree. -/
theorem ofInt_toInt_mul (w : Word) (n : Nat) : BitVec.ofInt 32 (w.toInt * n) = BitVec.ofNat 32 (w.toNat * n) := by
  rw [BitVec.ofInt_mul, BitVec.ofInt_toInt, BitVec.ofInt_natCast, BitVec.ofNat_mul, BitVec.ofNat_toNat, BitVec.setWidth_eq]

theorem deriveConsts_integer {d : Domain} (hd : d ≠ .f32) (s : State) :
    deriveConsts d s = { s with
      peak := BitVec.ofNat 32 (2 ^ bitDepth d - 1), scale := BitVec.ofNat 32 (scaleOf d)
      shift := BitVec.ofNat 32 (bitDepth d - 8), lowS := BitVec.ofInt 32 (s.thrLow.toInt * scaleOf d)
      highS := BitVec.ofInt 32 (s.thrHigh.toInt * scaleOf d) } := by
  rw [ofInt_toInt_mul, ofInt_toInt_mul, deriveConsts, boundOf_integer hd, boundOf_integer hd]
  cases d with
  | f32 => contradiction
  | _ => rfl

/-! The float domain. -/

/-- A value that has a pattern is rounded to that pattern. -/
theorem f32RoundMag_f32Value {q : Nat} (hq : q ≤ f32InfBits) : f32RoundMag (f32Value q) 1 = q := by
  by_contra hne
  obtain ⟨-, hnear⟩ := f32RoundMag_nearestEven (f32Value q) 1 Nat.one_pos
  have hsame : f32Value (f32RoundMag (f32Value q) 1) = f32Value q := by
    have hpref := hnear q hq (Ne.symm hne)
    unfold f32Distance at hpref
    omega
  have hle := (f32Value_le_iff _ _).mp hsame.le
  have hge := (f32Value_le_iff _ _).mp hsame.ge
  omega

/-- An integer below 2^24 has a finite pattern: its significand is shifted up to 24 bits. -/
theorem exists_f32Value_eq {i : Nat} (hi : i < 2 ^ 24) : ∃ q < f32InfBits, f32Value q = i * 2 ^ 149 := by
  rcases Nat.eq_zero_or_pos i with rfl | hpos
  · exact ⟨0, by decide, rfl⟩
  · have hlog : Nat.log2 i < 24 := (Nat.log2_lt hpos.ne').mpr hi
    have hlow : 2 ^ 23 ≤ i * 2 ^ (23 - Nat.log2 i) :=
      calc 2 ^ 23 = 2 ^ Nat.log2 i * 2 ^ (23 - Nat.log2 i) := by rw [← Nat.pow_add]; congr 1; omega
        _ ≤ i * 2 ^ (23 - Nat.log2 i) := Nat.mul_le_mul_right _ (Nat.log2_self_le hpos.ne')
    have hhigh : i * 2 ^ (23 - Nat.log2 i) ≤ 2 ^ 24 :=
      calc i * 2 ^ (23 - Nat.log2 i) ≤ 2 ^ (Nat.log2 i + 1) * 2 ^ (23 - Nat.log2 i) :=
            Nat.mul_le_mul_right _ Nat.lt_log2_self.le
        _ = 2 ^ 24 := by rw [← Nat.pow_add]; congr 1; omega
    refine ⟨(126 + Nat.log2 i) * 2 ^ 23 + i * 2 ^ (23 - Nat.log2 i), by unfold f32InfBits; omega, ?_⟩
    rw [f32Value_scaled _ _ hhigh (.inr hlow), Nat.mul_assoc, ← Nat.pow_add]
    congr 2; omega

/-- f32(i) is exact for an integer below 2^24 (00_scope.md R12). -/
theorem f32OfNat_exact {i : Nat} (hi : i < 2 ^ 24) :
    f32Finite (f32OfNat i) = true ∧ f32Sign (f32OfNat i) = false ∧ f32Mag (f32OfNat i) = i * 2 ^ 149 := by
  obtain ⟨q, hq, hv⟩ := exists_f32Value_eq hi
  have hround : f32RoundMag (i * 2 ^ 149) 1 = q := by rw [← hv, f32RoundMag_f32Value hq.le]
  have hlt : q < 2 ^ 31 := hround ▸ f32RoundMag_lt _ _
  rw [f32Finite_iff, f32Mag_eq, f32OfNat, hround, f32MagBits_pack _ _ hlt]
  exact ⟨hq, f32Sign_pack _ _ hlt, hv⟩

/-- The rounding depends on the quotient alone. -/
theorem f32RoundMag_mul_right (n d c : Nat) (hc : 0 < c) : f32RoundMag (n * c) (d * c) = f32RoundMag n d := by
  have hround : ∀ e, roundHalfEven (n * c) (e * c) = roundHalfEven n e := fun e => by
    simp only [roundHalfEven, Nat.mul_mod_mul_right, Nat.mul_div_mul_right _ _ hc, ← Nat.mul_assoc, Nat.mul_lt_mul_right hc]
  simp only [f32RoundMag, Nat.mul_div_mul_right _ _ hc, Nat.mul_right_comm d c, hround]

/-- The pattern of i / 255, rounded to nearest even. -/
def unitPattern (i : Nat) : Nat := f32RoundMag (i * 2 ^ 149) 255

theorem unitPattern_lt (i : Nat) : unitPattern i < 2 ^ 31 := f32RoundMag_lt _ _

/-- A float bound is one rounding of the exact quotient: its operands are exact (40_numeric_domain.md R146). -/
theorem boundOf_f32 {thr : Word} (h : thr.toNat ≤ 255) : boundOf .f32 thr = f32Pack false (unitPattern thr.toNat) := by
  obtain ⟨hfinite, hsign, hmag⟩ := f32OfNat_exact (i := thr.toNat) (by omega)
  have hden : f32Mag f32TwoFiftyFive = 255 * 2 ^ 149 := by decide
  have hpos : f32Sign f32TwoFiftyFive = false := by decide
  rw [boundOf, fdiv_finite _ _ hfinite (by decide) (by decide), hsign, hpos, hmag, hden,
    f32RoundMag_mul_right _ _ _ (Nat.two_pow_pos 149)]
  rfl

theorem boundOf_f32_toNat {thr : Word} (h : thr.toNat ≤ 255) : (boundOf .f32 thr).toNat = unitPattern thr.toNat := by
  rw [boundOf_f32 h, f32Pack_toNat _ _ (unitPattern_lt _), if_neg Bool.false_ne_true, Nat.add_zero]

theorem f32Key_boundOf_f32 {thr : Word} (h : thr.toNat ≤ 255) : f32Key (boundOf .f32 thr) = unitPattern thr.toNat := by
  rw [boundOf_f32 h, f32Key_pack _ _ (unitPattern_lt _), if_neg Bool.false_ne_true]

theorem boundOf_f32_nearestEven {thr : Word} (h : thr.toNat ≤ 255) :
    NearestEven (thr.toNat * 2 ^ 149) 255 (boundOf .f32 thr).toNat := by
  rw [boundOf_f32_toNat h]
  exact f32RoundMag_nearestEven _ 255 (by decide)

theorem unitPattern_mono {i j : Nat} (h : i ≤ j) : unitPattern i ≤ unitPattern j :=
  f32RoundMag_mono _ _ 255 (by decide) (Nat.mul_le_mul_right _ h)

theorem unitPattern_one : unitPattern 1 = 0x3B808081 := by decide

theorem unitPattern_254 : unitPattern 254 = 0x3F7EFEFF := by decide

theorem unitPattern_255 : unitPattern 255 = 0x3F800000 := by decide

/-- Only the threshold 0 rounds to +0.0: the pattern of 1 / 255 is already above it. -/
theorem unitPattern_eq_zero_iff (i : Nat) : unitPattern i = 0 ↔ i = 0 := by
  constructor
  · intro h
    by_contra hi
    have hmono := unitPattern_mono (Nat.one_le_iff_ne_zero.mpr hi)
    rw [h, unitPattern_one] at hmono
    omega
  · rintro rfl
    exact f32RoundMag_zero 255

/-- Of the thresholds in range only 255 rounds to 1.0: the pattern of 254 / 255 is still below it. -/
theorem unitPattern_eq_one_iff {i : Nat} (hi : i ≤ 255) : unitPattern i = 0x3F800000 ↔ i = 255 := by
  constructor
  · intro h
    by_contra hne
    have hmono := unitPattern_mono (show i ≤ 254 by omega)
    rw [h, unitPattern_254] at hmono
    omega
  · rintro rfl
    exact unitPattern_255

theorem boundOf_f32_eq_zero_iff {thr : Word} (h : thr.toNat ≤ 255) : boundOf .f32 thr = 0 ↔ thr = 0 := by
  rw [← BitVec.toNat_inj, ← BitVec.toNat_inj, boundOf_f32_toNat h]
  exact unitPattern_eq_zero_iff _

theorem boundOf_f32_eq_one_iff {thr : Word} (h : thr.toNat ≤ 255) : boundOf .f32 thr = 0x3F800000 ↔ thr = 255 := by
  rw [← BitVec.toNat_inj, ← BitVec.toNat_inj, boundOf_f32_toNat h]
  exact unitPattern_eq_one_iff h

/-! The settled statements. -/

/-- Settles O20: an accepted configuration has its thresholds in order and in range, so no product overflows. -/
theorem integerBounds : Obligations.IntegerBounds := by
  intro s t c hc hu hd h hr
  obtain ⟨hint, hmax⟩ : c.1 ≠ .f32 ∧ 255 * scaleOf c.1 = c.2 := by
    fin_cases hc <;> decide
  obtain ⟨hv, hscale, hlow, hhigh⟩ := configure_ready_bounds hu hd h hr
  obtain ⟨hle, hle255⟩ := thresholds_of_validConfig hv
  rw [hlow, hhigh, hscale, scaleOf_toNat, boundOf_integer_toNat hint (hle.trans hle255),
    boundOf_integer_toNat hint hle255, ← hmax]
  exact ⟨rfl, rfl, Nat.mul_le_mul_right _ hle, Nat.mul_le_mul_right _ hle255, rfl⟩

/-- Settles O21: each bound is the rounded quotient of its threshold by 255, and that rounding is monotone. -/
theorem floatBounds : Obligations.FloatBounds := by
  intro s t hu hd h hr
  obtain ⟨hv, -, hlow, hhigh⟩ := configure_ready_bounds hu hd h hr
  obtain ⟨hle, hhigh255⟩ := thresholds_of_validConfig hv
  have hlow255 := hle.trans hhigh255
  have hone : f32Key 0x3F800000 = unitPattern 255 := by rw [unitPattern_255]; decide
  rw [hlow, hhigh, f32Key_boundOf_f32 hlow255, f32Key_boundOf_f32 hhigh255, hone]
  refine ⟨boundOf_f32_nearestEven hlow255, boundOf_f32_nearestEven hhigh255, Int.natCast_nonneg _,
    Int.ofNat_le.mpr (unitPattern_mono hle), Int.ofNat_le.mpr (unitPattern_mono hhigh255),
    boundOf_f32_eq_zero_iff hlow255, boundOf_f32_eq_one_iff hhigh255, fun c hc => ?_⟩
  have hlisted : boundOf .f32 c.1 = c.2 := by fin_cases hc <;> decide
  exact ⟨fun heq => heq ▸ hlisted, fun heq => heq ▸ hlisted⟩

/-- Settles O24: the constants of the validated domain, in the integer domains and in F32, or free values. -/
theorem deriveConstants : Obligations.DeriveConstants := by
  intro s hu
  rw [exec_derive_of_unconfigured hu]
  refine ⟨fun c hc hv => ?_, fun hv => ?_, fun hinvalid => ?_⟩
  · obtain ⟨hint, hdepth, hscale⟩ : c.1 ≠ .f32 ∧ bitDepth c.1 = c.2.1 ∧ scaleOf c.1 = c.2.2 := by
      fin_cases hc <;> decide
    rw [deriveOp_of_validConfig hv, deriveConsts_integer hint, hdepth, hscale]
  · obtain ⟨hle, hhigh255⟩ := thresholds_of_validConfig hv
    refine ⟨boundOf .f32 s.thrLow, boundOf .f32 s.thrHigh, ?_, boundOf_f32_nearestEven (hle.trans hhigh255),
      boundOf_f32_nearestEven hhigh255⟩
    rw [deriveOp_of_validConfig hv]
    rfl
  · rw [deriveOp_of_invalid hinvalid]
    exact ⟨_, _, _, _, _, rfl⟩

end Sys2Proof.Proofs.Derive

/-! What the row forms, ZROW, KERNEL and PROCESS leave in plane memory: MASK of the source in the rows they are given, and every
other byte as it was (41_threshold_kernel.md R182 to R189, 42_vector_backends.md R216, 43_dispatch.md R243). -/

namespace Sys2Proof.Proofs.Planes

open Sys2Proof Sys2Proof.Machine Sys2Proof.Proofs.Frames Sys2Proof.Proofs.Sequencer Sys2Proof.Proofs.Cursors
  Sys2Proof.Proofs.Mask Sys2Proof.Proofs.PlaneStops

/-! Planes with and without samples. -/

theorem word_toNat_ne_zero {w : Word} (h : w ≠ 0) : w.toNat ≠ 0 := ((toNat_pos_iff w).mpr h).ne'

theorem onPlane_of_empty {p : PlaneId} {s : State} (h : (s.desc p).width = 0 ∨ (s.desc p).height = 0)
    (op : Domain → Host.Outcome State Fault Refusal) : onPlane p op s = .next s := if_pos h

theorem onColourPlane_of_empty {p : PlaneId} {s : State} (hc : p.isColour = true)
    (h : (s.desc p).width = 0 ∨ (s.desc p).height = 0) (op : Domain → Host.Outcome State Fault Refusal) :
    onColourPlane p op s = .next s := by
  rw [onColourPlane_of_isColour hc, onPlane_of_empty h]

/-- Bytes outside the footprint are outside each of its rows (20_memory.md R66). -/
theorem outsideRows_of_not_contains {d : Domain} {ds : Desc} {a : Nat} (h : (dstFoot d ds).contains a = false) :
    OutsideRows d ds 0 ds.height.toNat a := by
  intro y _ hy
  simpa [dstFoot, dstAddr] using (Foot.not_contains_iff _ _).mp h y hy

/-! One row. -/

/-- Settles O32: a row form on an interior row runs the row operation of its backend. -/
theorem rowFormsMask : Obligations.RowFormsMask := by
  intro s p y d k hc hd hv hw hlow hhigh
  have hrow : InteriorRow d (s.desc p) y.toNat := ⟨hv, word_toNat_ne_zero hw, hlow, hhigh⟩
  obtain ⟨hr, -⟩ := (descValid_iff _ _).mp hv
  have hwritten := rowOp_written k d p y.toNat s ⟨hr, hrow.width, by omega⟩
  refine ⟨rowOp k d p y.toNat s, ?_, hwritten.frame, ?_, hwritten.outside⟩
  · rw [exec_rowInstr]
    exact (rowForm_next_iff k p y s _).mpr ⟨hc, .inr ⟨d, hd, hrow, rfl⟩⟩
  · exact (rowOp_rowsMasked k hrow).rows _ (Nat.le_refl _) (Nat.lt_succ_self _)

/-- A border row that holds the mask is zero. -/
theorem rowHoldsMask_border {d : Domain} {low high : Word} {ds : Desc} {m m' : List Host.Cell} {y x : Nat}
    (h : RowHoldsMask d low high ds m m' y) (hy : y = 0 ∨ y + 1 = ds.height.toNat) (hx : x < ds.width.toNat) :
    dstSample d ds m' y x = 0 := by
  have hrow := h x hx
  rwa [if_pos hy] at hrow

/-- Settles O34: a row without columns is left as it is, and the columns of a border row become zero. -/
theorem zrowZeroes : Obligations.ZrowZeroes := by
  intro s p y d hc hd hv hh hy
  have hexec : exec (.zrow p y) s = execZrow p y s := rfl
  by_cases hw : (s.desc p).width = 0
  · refine ⟨s.mem, ?_, fun x hx => ?_, fun _ _ => rfl⟩
    · rw [hexec, execZrow, onColourPlane_of_empty hc (.inl hw)]
      rfl
    · rw [hw] at hx
      exact absurd hx (Nat.not_lt_zero x)
  · have hpos := word_toNat_ne_zero hh
    have hborder : y.toNat = 0 ∨ y.toNat + 1 = (s.desc p).height.toNat := hy.imp_left fun h => by rw [h]; rfl
    obtain ⟨hr, -⟩ := (descValid_iff _ _).mp hv
    have hmem : RowInMemory d (s.desc p) y.toNat := ⟨hr, word_toNat_ne_zero hw, by omega⟩
    have hmask := (zrowOp_masks hmem hborder).rows _ (Nat.le_refl _) (Nat.lt_succ_self _)
    refine ⟨(zrowOp d p y.toNat s).mem, ?_, fun x hx => rowHoldsMask_border hmask hborder hx,
      (zrowOp_written d p y.toNat s hmem).outside⟩
    rw [hexec, execZrow, onColourPlane_of_isColour hc, onPlane_of_valid ⟨hw, hh⟩ _ hd hv, if_pos hy]
    rfl

/-! A whole plane. -/

/-- PROCESS is KERNEL of the plane (43_dispatch.md R243). -/
theorem exec_process_eq_kernel (p : PlaneId) (s : State) : exec (.process p) s = exec (.kernel p) s := rfl

theorem exec_kernel_of_valid {s : State} {p : PlaneId} {d : Domain} (hc : p.isColour = true) (hd : domainOf s = some d)
    (hv : descValid d (s.desc p) = true) (hne : PlaneNotEmpty (s.desc p)) :
    exec (.kernel p) s = .next (kernelOp d p s) := by
  have hexec : exec (.kernel p) s = execKernel p s := rfl
  rw [hexec, execKernel, onColourPlane_of_isColour hc, onPlane_of_valid hne _ hd hv]

theorem exec_kernel_of_empty {s : State} {p : PlaneId} (hc : p.isColour = true)
    (h : (s.desc p).width = 0 ∨ (s.desc p).height = 0) : exec (.kernel p) s = .next s :=
  onColourPlane_of_empty hc h _

/-- A plane without samples has nothing to hold. -/
theorem holdsMask_of_empty {ds : Desc} (h : ds.width = 0 ∨ ds.height = 0) (d : Domain) (low high : Word)
    (m m' : List Host.Cell) : HoldsMask d low high ds m m' := by
  intro y hy x hx
  rcases h with h | h
  · rw [h] at hx
    exact absurd hx (Nat.not_lt_zero x)
  · rw [h] at hy
    exact absurd hy (Nat.not_lt_zero y)

/-- Settles O35: a plane without samples is not accessed, and the rows of any other hold MASK of the source. -/
theorem kernelComputesMask : Obligations.KernelComputesMask := by
  intro s p d hc hd hv
  simp only [exec_process_eq_kernel]
  by_cases hempty : (s.desc p).width = 0 ∨ (s.desc p).height = 0
  · have hexec := exec_kernel_of_empty hc hempty
    exact ⟨s, hexec, hexec, OnlyDatapath.refl s, holdsMask_of_empty hempty _ _ _ _ _, fun _ _ => rfl⟩
  · obtain ⟨hw, hh⟩ := not_or.mp hempty
    have hexec := exec_kernel_of_valid hc hd hv ⟨hw, hh⟩
    have hmasks := kernelOp_masks hv (word_toNat_ne_zero hw) (word_toNat_ne_zero hh)
    exact ⟨_, hexec, hexec, hmasks.frame, fun y hy => hmasks.rows y (Nat.zero_le y) hy,
      fun a ha => hmasks.outside a (outsideRows_of_not_contains ha)⟩

/-! Degenerate geometries. -/

/-- The kernel of a plane without interior rows changes plane memory only (41_threshold_kernel.md R186). -/
theorem kernelOp_of_height_le_two {d : Domain} {p : PlaneId} {s : State} (hh : (s.desc p).height.toNat ≤ 2) :
    kernelOp d p s = s.withMem (kernelOp d p s).mem := by
  have hinterior : (s.desc p).height.toNat - 2 = 0 := by omega
  unfold kernelOp
  simp only [hinterior, maskRows]
  split <;> rfl

/-- In a plane without interior rows, MASK is zero in every byte (41_threshold_kernel.md R186). -/
theorem holdsMask_zero_of_height_le_two {d : Domain} {low high : Word} {ds : Desc} {m m' : List Host.Cell}
    (h : HoldsMask d low high ds m m') (hh : ds.height.toNat ≤ 2) {a : Nat} (ha : DstByte d ds a) : memByte m' a = 0 := by
  obtain ⟨y, x, i, hy, hx, hi, rfl⟩ := ha
  have hsample : dstSample d ds m' y x = 0 := rowHoldsMask_border (h y hy) (by omega) hx
  have hblank : memRead [] (dstAddr d ds y x) (elemSize d) = 0 := memRead_zero _ _ _ fun _ _ _ => rfl
  exact memByte_eq_of_memRead_eq (m := []) (hsample.trans hblank.symm) hi

/-- Settles O39: an empty plane is not accessed, and a plane without interior rows holds a MASK of zeros. -/
theorem degenerateGeometries : Obligations.DegenerateGeometries := by
  intro s p y k
  refine ⟨fun hempty => ⟨onPlane_of_empty hempty _, fun hc => ?_⟩, fun d hc hd hv hh => ?_⟩
  · have hkernel := exec_kernel_of_empty hc hempty
    refine ⟨hkernel, hkernel, onColourPlane_of_empty hc hempty _, ?_⟩
    rw [exec_rowInstr]
    exact onColourPlane_of_empty hc hempty _
  · have htwo : (s.desc p).height.toNat ≤ 2 := by rcases hh with h | h <;> rw [h] <;> decide
    obtain ⟨t, hexec, -, -, hmask, hout⟩ := kernelComputesMask s p d hc hd hv
    have ht : t = s.withMem t.mem := by
      obtain ⟨-, hplane⟩ := (onColourPlane_next_iff _ _ _ _).mp hexec
      rcases (onPlane_next_iff _ _ _ _).mp hplane with ⟨-, rfl⟩ | ⟨-, d', -, -, hop⟩
      · rfl
      · cases hop
        exact kernelOp_of_height_le_two htwo
    refine ⟨t.mem, hexec.trans (congrArg _ ht), fun a ha => holdsMask_zero_of_height_le_two hmask htwo ha, fun a ha => hout a ?_⟩
    rwa [← Bool.not_eq_true, dstFoot_contains_iff]

end Sys2Proof.Proofs.Planes

/-! The pixel operations of the integer domains (41_threshold_kernel.md R172 to R177, R181): the exact product of the differences
selects one of three outputs, so the output is a function of the product that rises with it. -/

namespace Sys2Proof.Proofs.IntegerPixels

open Sys2Proof Sys2Proof.Machine Sys2Proof.Proofs.Derive

/-! The selection. -/

/-- The output that a scaled product selects in an integer domain of depth b, closed by the clamp (R172, 40_numeric_domain.md
R156). -/
def selectedOutput (b low high : Nat) (prod : Int) : Nat :=
  (clampInt (selectInt (2 ^ b - 1) low high prod) 0 (2 ^ b - 1)).toNat

theorem pixInt_eq_selectedOutput (b low high u m l : Nat) :
    pixInt b low high u m l = selectedOutput b low high (prodInt (b - 8) u m l) := rfl

theorem peak_nonneg (b : Nat) : (0 : Int) ≤ 2 ^ b - 1 := by
  have : (1 : Int) ≤ 2 ^ b := one_le_pow₀ (by norm_num)
  omega

section

variable {b low high : Nat} {prod : Int}

/-- ZERO (40_numeric_domain.md R153). -/
theorem selectedOutput_zero (h : prod < low) : selectedOutput b low high prod = 0 := by
  have hpeak := peak_nonneg b
  rw [selectedOutput, selectInt, if_pos h, clampInt]
  omega

/-- PEAK (40_numeric_domain.md R153). -/
theorem selectedOutput_peak (hlow : low ≤ prod) (hhigh : high < prod) : (selectedOutput b low high prod : Int) = 2 ^ b - 1 := by
  have hpeak := peak_nonneg b
  rw [selectedOutput, selectInt, if_neg (by omega), if_pos hhigh, clampInt]
  omega

/-- RAMP (40_numeric_domain.md R153, R156). -/
theorem selectedOutput_ramp (hlow : low ≤ prod) (hhigh : prod ≤ high) :
    (selectedOutput b low high prod : Int) = min (prod / 2 ^ 8) (2 ^ b - 1) := by
  have hpeak := peak_nonneg b
  rw [selectedOutput, selectInt, if_neg (by omega), if_neg (by omega), clampInt, asr]
  omega

/-- A product that is not positive selects 0, whatever the bounds (R173). -/
theorem selectedOutput_of_nonpos (h : prod ≤ 0) : selectedOutput b low high prod = 0 := by
  have hpeak := peak_nonneg b
  by_cases hlow : prod < low
  · exact selectedOutput_zero hlow
  · have hramp := selectedOutput_ramp (b := b) (low := low) (high := high) (prod := prod) (by omega) (by omega)
    omega

/-- A larger product never selects a smaller output (R181). -/
theorem selectedOutput_mono {prod' : Int} (h : prod ≤ prod') :
    selectedOutput b low high prod ≤ selectedOutput b low high prod' := by
  by_cases hlow : prod < low
  · rw [selectedOutput_zero hlow]
    exact Nat.zero_le _
  · by_cases hhigh' : high < prod'
    · have hpeak := selectedOutput_peak (b := b) (low := low) (by omega) hhigh'
      by_cases hhigh : high < prod
      · have := selectedOutput_peak (b := b) (low := low) (by omega) hhigh
        omega
      · have := selectedOutput_ramp (b := b) (low := low) (high := high) (prod := prod) (by omega) (by omega)
        omega
    · have hramp := selectedOutput_ramp (b := b) (low := low) (high := high) (prod := prod) (by omega) (by omega)
      have hramp' := selectedOutput_ramp (b := b) (low := low) (high := high) (prod := prod') (by omega) (by omega)
      omega

/-- An output is PEAK, or the upper bound of the product bounds it. -/
theorem selectedOutput_cases :
    selectedOutput b low high prod ≤ high / 2 ^ 8 ∨ (selectedOutput b low high prod : Int) = 2 ^ b - 1 := by
  by_cases hlow : prod < low
  · exact .inl (by rw [selectedOutput_zero hlow]; exact Nat.zero_le _)
  · by_cases hprod : high < prod
    · exact .inr (selectedOutput_peak (by omega) hprod)
    · have hramp := selectedOutput_ramp (b := b) (low := low) (high := high) (prod := prod) (by omega) (by omega)
      exact .inl (by omega)

end

/-! The pixel operations. -/

/-- A pixel operation completes, and changes smpOut and the draw counter only. -/
theorem exec_pixInstr (d : Domain) (s : State) :
    exec (pixInstr d) s = .next { s with
      smpOut := pix d s.lowS s.highS s.smpU s.smpM s.smpL (Config.freeWord s.draws 0), draws := s.draws + 1 } := by
  cases d <;> rfl

theorem smpOut_of_exec_pixInstr {d : Domain} {s t : State} (h : exec (pixInstr d) s = .next t) :
    t.smpOut = pix d s.lowS s.highS s.smpU s.smpM s.smpL (Config.freeWord s.draws 0) := by
  rw [exec_pixInstr] at h
  cases h
  rfl

/-- A sample as its container holds it (20_memory.md R65). -/
def container (d : Domain) (w : Word) : Nat := w.toNat % 256 ^ elemSize d

/-- The exact product of the differences of a pixel, scaled by the depth (40_numeric_domain.md R150 to R152). -/
def scaledProduct (d : Domain) (u m l : Word) : Int :=
  ((container d u : Int) - container d m) * ((container d l : Int) - container d m) / 2 ^ (bitDepth d - 8)

theorem bitDepth_le_of_integer {d : Domain} (hd : d ≠ .f32) : bitDepth d ≤ 16 := by
  cases d with
  | f32 => exact absurd rfl hd
  | u8 | u16b10 | u16b12 | u16b14 | u16b16 => decide

/-- PIX of an integer domain is what the scaled product of its containers selects (R174, R175). -/
theorem pix_toNat_of_integer {d : Domain} (hd : d ≠ .f32) (low high u m l free : Word) :
    (pix d low high u m l free).toNat = selectedOutput (bitDepth d) low.toNat high.toNat (scaledProduct d u m l) := by
  have hpix : pix d low high u m l free = BitVec.ofNat 32 (pixInt (bitDepth d) low.toNat high.toNat
      (u.toNat % 2 ^ (8 * elemSize d)) (m.toNat % 2 ^ (8 * elemSize d)) (l.toNat % 2 ^ (8 * elemSize d))) := by
    cases d with
    | f32 => exact absurd rfl hd
    | u8 | u16b10 | u16b12 | u16b14 | u16b16 => rfl
  have hwidth : 2 ^ (8 * elemSize d) = 256 ^ elemSize d := by rw [Nat.pow_mul]
  have hdepth : 2 ^ bitDepth d ≤ 2 ^ 16 := Nat.pow_le_pow_right (by decide) (bitDepth_le_of_integer hd)
  have hle := pixInt_le (bitDepth d) low.toNat high.toNat (u.toNat % 256 ^ elemSize d) (m.toNat % 256 ^ elemSize d)
    (l.toNat % 256 ^ elemSize d)
  rw [hpix, hwidth, BitVec.toNat_ofNat, Nat.mod_eq_of_lt (by omega)]
  rfl

/-- The output of the pixel operation of an integer domain. -/
theorem smpOut_toNat {d : Domain} (hd : d ≠ .f32) {s t : State} (h : exec (pixInstr d) s = .next t) :
    t.smpOut.toNat =
      selectedOutput (bitDepth d) s.lowS.toNat s.highS.toNat (scaledProduct d s.smpU s.smpM s.smpL) := by
  rw [smpOut_of_exec_pixInstr h, pix_toNat_of_integer hd]

/-- Settles O25: each row of the list is a domain's pixel operation, and the scaled product selects its output. -/
theorem pixInteger : Obligations.PixInteger := by
  intro s c hc
  obtain ⟨d, hd, rfl⟩ : ∃ d, d ≠ Domain.f32 ∧ c = (pixInstr d, bitDepth d, 256 ^ elemSize d) := by
    fin_cases hc
    exacts [⟨.u8, by decide, rfl⟩, ⟨.u16b10, by decide, rfl⟩, ⟨.u16b12, by decide, rfl⟩, ⟨.u16b14, by decide, rfl⟩,
      ⟨.u16b16, by decide, rfl⟩]
  have hout := pix_toNat_of_integer hd s.lowS s.highS s.smpU s.smpM s.smpL (Config.freeWord s.draws 0)
  refine ⟨_, exec_pixInstr d s, fun hlow => ?_, fun hlow hhigh => ?_, fun hlow hhigh => ?_⟩
  · exact BitVec.eq_of_toNat_eq (hout.trans (selectedOutput_zero hlow))
  · rw [hout]
    exact selectedOutput_peak hlow hhigh
  · rw [hout]
    exact selectedOutput_ramp hlow hhigh

/-! Monotonicity. -/

/-- A product of matching signs is the product of the magnitudes, so it rises with them. -/
theorem mul_le_mul_of_natAbs_le {a b a' b' : Int} (h : 0 ≤ a * b) (h' : 0 ≤ a' * b') (ha : a.natAbs ≤ a'.natAbs)
    (hb : b.natAbs ≤ b'.natAbs) : a * b ≤ a' * b' := by
  rw [← Int.natAbs_of_nonneg h, ← Int.natAbs_of_nonneg h', Int.natAbs_mul, Int.natAbs_mul]
  exact_mod_cast Nat.mul_le_mul ha hb

/-- Settles O27: the scaled product rises with the magnitudes of the differences, and the output with the scaled product. -/
theorem integerMonotone : Obligations.IntegerMonotone := by
  intro s s' t t' d hd hlow hhigh hexec hexec' w dU dD dU' dD' hsign hsign' hU hD
  rw [smpOut_toNat hd hexec, smpOut_toNat hd hexec', hlow, hhigh]
  exact selectedOutput_mono (Int.ediv_le_ediv (by positivity) (mul_le_mul_of_natAbs_le hsign hsign' hU hD))

/-! The outputs that can be reached. -/

/-- The largest ramp output of an integer domain (R177). -/
def rampMax (d : Domain) : Nat := 2 ^ (bitDepth d - 8) - 1

/-- With bounds derived from thresholds up to 255, the ramp ends at its largest output. -/
theorem highBound_div {d : Domain} (hd : d ≠ .f32) : 255 * scaleOf d / 2 ^ 8 = rampMax d := by
  cases d with
  | f32 => exact absurd rfl hd
  | u8 | u16b10 | u16b12 | u16b14 | u16b16 => decide

theorem rampMax_le_peak (d : Domain) : rampMax d ≤ 2 ^ bitDepth d - 1 :=
  Nat.sub_le_sub_right (Nat.pow_le_pow_right (by decide) (Nat.sub_le _ _)) 1

/-- The output of a pixel operation with bounds derived from thresholds in range (R177). -/
theorem smpOut_le_rampMax_or_peak {d : Domain} (hd : d ≠ .f32) {s t : State} {high : Nat} (hmax : high ≤ 255)
    (hhigh : s.highS.toNat = high * scaleOf d) (h : exec (pixInstr d) s = .next t) :
    t.smpOut.toNat ≤ rampMax d ∨ t.smpOut.toNat = 2 ^ bitDepth d - 1 := by
  have hpow : ((2 ^ bitDepth d : Nat) : Int) = 2 ^ bitDepth d := Nat.cast_pow 2 _
  rw [smpOut_toNat hd h]
  rcases selectedOutput_cases (b := bitDepth d) (low := s.lowS.toNat) (high := s.highS.toNat)
    (prod := scaledProduct d s.smpU s.smpM s.smpL) with hramp | hpeak
  · left
    calc _ ≤ s.highS.toNat / 2 ^ 8 := hramp
      _ ≤ 255 * scaleOf d / 2 ^ 8 := Nat.div_le_div_right (hhigh ▸ Nat.mul_le_mul_right _ hmax)
      _ = rampMax d := highBound_div hd
  · right
    omega

/-- A state with the bounds of thresholds 0 and `thr`, and two differences to a middle sample of 0. -/
def pixelState (d : Domain) (thr : Word) (u l : Nat) : State :=
  { State.reset with highS := boundOf d thr, smpU := BitVec.ofNat 32 u, smpL := BitVec.ofNat 32 l }

theorem container_ofNat {d : Domain} {n : Nat} (hn : n < 256 ^ elemSize d) : container d (BitVec.ofNat 32 n) = n := by
  have hes : 256 ^ elemSize d ≤ 256 ^ 4 := Nat.pow_le_pow_right (by decide) (elemSize_le d)
  rw [container, BitVec.toNat_ofNat, Nat.mod_eq_of_lt (show n < 2 ^ 32 by omega), Nat.mod_eq_of_lt hn]

theorem pixelState_highS {d : Domain} (hd : d ≠ .f32) {thr : Word} (h : thr.toNat ≤ 255) (u l : Nat) :
    (pixelState d thr u l).highS.toNat = thr.toNat * scaleOf d :=
  boundOf_integer_toNat hd h

/-- Every container value is the scaled product of a pixel: the depth scales it and the lower difference cancels the scale. -/
theorem scaledProduct_pixelState {d : Domain} (hd : d ≠ .f32) {n : Nat} (hn : n < 256 ^ elemSize d) :
    scaledProduct d (BitVec.ofNat 32 n) 0 (BitVec.ofNat 32 (2 ^ (bitDepth d - 8))) = n := by
  have hfactor : 2 ^ (bitDepth d - 8) < 256 ^ elemSize d := by
    cases d with
    | f32 => exact absurd rfl hd
    | u8 | u16b10 | u16b12 | u16b14 | u16b16 => decide
  have hzero : container d 0 = 0 := Nat.zero_mod _
  rw [scaledProduct, container_ofNat hn, container_ofNat hfactor, hzero, Nat.cast_zero, sub_zero, sub_zero, Nat.cast_pow]
  exact Int.mul_ediv_cancel _ (by positivity)

/-- The output a threshold selects for a scaled product that is a container value. -/
theorem exec_pixelState {d : Domain} (hd : d ≠ .f32) {thr : Word} {n : Nat} (hthr : thr.toNat ≤ 255)
    (hn : n < 256 ^ elemSize d) :
    ∃ t, exec (pixInstr d) (pixelState d thr n (2 ^ (bitDepth d - 8))) = .next t ∧
      t.smpOut.toNat = selectedOutput (bitDepth d) 0 (thr.toNat * scaleOf d) n := by
  refine ⟨_, exec_pixInstr d _, ?_⟩
  rw [smpOut_toNat hd (exec_pixInstr d _), pixelState_highS hd hthr]
  exact congrArg _ (scaledProduct_pixelState hd hn)

/-- Every output of the ramp, and PEAK, is reached: the ramp with the bound of threshold 255, PEAK with the bound of 0. -/
theorem exists_pixelState {d : Domain} (hd : d ≠ .f32) {v : Nat} (hv : v ≤ rampMax d ∨ v = 2 ^ bitDepth d - 1) :
    ∃ (thr : Word) (u l : Nat) (t : State), thr.toNat ≤ 255 ∧ exec (pixInstr d) (pixelState d thr u l) = .next t ∧
      t.smpOut.toNat = v := by
  have hpow : ((2 ^ bitDepth d : Nat) : Int) = 2 ^ bitDepth d := Nat.cast_pow 2 _
  rcases hv with hramp | hpeak
  · have hbound : v * 2 ^ 8 ≤ 255 * scaleOf d := by
      have := highBound_div hd
      omega
    have hwidth : 255 * scaleOf d < 256 ^ elemSize d := by
      cases d with
      | f32 => exact absurd rfl hd
      | u8 | u16b10 | u16b12 | u16b14 | u16b16 => decide
    obtain ⟨t, hexec, hout⟩ := exec_pixelState hd (thr := 255) (by decide) (Nat.lt_of_le_of_lt hbound hwidth)
    refine ⟨255, _, _, t, by decide, hexec, hout.trans ?_⟩
    rw [show (255 : Word).toNat = 255 from rfl]
    have hsel := selectedOutput_ramp (b := bitDepth d) (low := 0) (high := 255 * scaleOf d) (prod := (v * 2 ^ 8 : Nat))
      (by omega) (by omega)
    have := rampMax_le_peak d
    omega
  · have hwidth : 1 < 256 ^ elemSize d := Nat.one_lt_pow (elemSize_pos d).ne' (by decide)
    obtain ⟨t, hexec, hout⟩ := exec_pixelState hd (thr := 0) (by decide) hwidth
    refine ⟨0, _, _, t, by decide, hexec, hout.trans ?_⟩
    rw [show (0 : Word).toNat = 0 from rfl]
    have hsel := selectedOutput_peak (b := bitDepth d) (low := 0) (high := 0 * scaleOf d) (prod := (1 : Nat))
      (by omega) (by omega)
    omega

/-- Settles O26: the outputs with bounds derived from thresholds are those of the ramp and PEAK, and each is reached. -/
theorem reachableOutputs : Obligations.ReachableOutputs := by
  refine ⟨fun v c hc => ?_, fun s t low high _ hmax hlow hhigh hexec => ?_⟩
  · obtain ⟨d, hd, rfl⟩ : ∃ d, d ≠ Domain.f32 ∧ c = (pixInstr d, scaleOf d, rampMax d, 2 ^ bitDepth d - 1) := by
      fin_cases hc
      exacts [⟨.u8, by decide, rfl⟩, ⟨.u16b10, by decide, rfl⟩, ⟨.u16b12, by decide, rfl⟩, ⟨.u16b14, by decide, rfl⟩,
        ⟨.u16b16, by decide, rfl⟩]
    constructor
    · rintro ⟨s, t, low, high, -, hmax, -, hhigh, hexec, rfl⟩
      exact smpOut_le_rampMax_or_peak hd hmax hhigh hexec
    · intro hv
      obtain ⟨thr, u, l, t, hthr, hexec, hout⟩ := exists_pixelState hd hv
      exact ⟨pixelState d thr u l, t, 0, thr.toNat, Nat.zero_le _, hthr, (Nat.zero_mul (scaleOf d)).symm,
        pixelState_highS hd hthr u l, hexec, BitVec.eq_of_toNat_eq hout⟩
  · intro u m l prod hplow hphigh
    have hout : (t.smpOut.toNat : Int) = min (prod / 2 ^ 8) (2 ^ 16 - 1) := by
      rw [smpOut_toNat (d := .u16b16) (by decide) hexec]
      exact selectedOutput_ramp (by rw [hlow]; exact_mod_cast hplow) (by rw [hhigh]; exact_mod_cast hphigh)
    refine ⟨by omega, by omega, fun q hq => by omega⟩

end Sys2Proof.Proofs.IntegerPixels

/-! PIX.F32 (41_threshold_kernel.md R173, R178, R181): in value, its output is a function of the rounded product of the differences
that rises with it, and that product rises with the magnitudes of the differences. What a flat pixel gives in every domain
follows. -/

namespace Sys2Proof.Proofs.FloatPixels

open Sys2Proof Sys2Proof.Machine Sys2Proof.Proofs.IntegerPixels

/-! The product. -/

/-- The product of a pixel, each operation rounded once (R178). -/
def floatProduct (u m l : Word) : Word := fmul (fmul (fsub u m) (fsub l m)) f32TwoFiftyFive

/-- A sample of the domain of R178. -/
def InDomain (w : Word) : Prop := f32OutOfDomain w = false

/-- A pattern that is no NaN. -/
theorem f32IsNaN_eq_false_iff (w : Word) : f32IsNaN w = false ↔ f32MagBits w ≤ f32InfBits := by
  simp [f32IsNaN]

section

variable {u m l : Word}

theorem floatProduct_magBits_le (hu : InDomain u) (hm : InDomain m) (hl : InDomain l) :
    f32MagBits (floatProduct u m l) ≤ f32InfBits := by
  obtain ⟨hbits, -, -⟩ := floatProduct_key u m l hu hm hl _ rfl
  exact hbits

/-- The product of differences of matching sign is not negative. -/
theorem floatProduct_key_of_nonneg (hu : InDomain u) (hm : InDomain m) (hl : InDomain l)
    (h : 0 ≤ (f32Units u - f32Units m) * (f32Units l - f32Units m)) :
    f32Key (floatProduct u m l) = f32MagBits (floatProduct u m l) := by
  obtain ⟨-, hnonneg, -⟩ := floatProduct_key u m l hu hm hl _ rfl
  exact hnonneg h

/-- The product of a flat pixel is not positive (R173). -/
theorem floatProduct_key_nonpos (hu : InDomain u) (hm : InDomain m) (hl : InDomain l)
    (h : (f32Units u - f32Units m) * (f32Units l - f32Units m) ≤ 0) : f32Key (floatProduct u m l) ≤ 0 := by
  obtain ⟨-, -, hnonpos⟩ := floatProduct_key u m l hu hm hl _ rfl
  have hkey : f32Key (floatProduct u m l) = -(f32MagBits (floatProduct u m l) : Int) := hnonpos h
  omega

/-- The magnitude of the product: the differences, their product and its scaling, each rounded. -/
theorem floatProduct_magBits (hu : InDomain u) (hm : InDomain m) (hl : InDomain l) :
    f32MagBits (floatProduct u m l) = f32RoundMag (f32Value (f32RoundMag
      (f32Value (f32RoundMag (f32Units u - f32Units m).natAbs 1) * f32Value (f32RoundMag (f32Units l - f32Units m).natAbs 1))
      (2 ^ 149)) * f32Mag f32TwoFiftyFive) (2 ^ 149) := by
  have fm := f32Finite_of_inDomain m hm
  rw [floatProduct, floatProduct_eq u m l hu hm hl, f32MagBits_pack _ _ (f32RoundMag_lt _ _), f32Mag_eq (fmul _ _),
    fmul_finite _ _ (fsub_inDomain_finite u m hu hm) (fsub_inDomain_finite l m hl hm),
    f32MagBits_pack _ _ (f32RoundMag_lt _ _), f32Mag_eq, f32Mag_eq (fsub l m),
    f32MagBits_fsub u m (f32Finite_of_inDomain u hu) fm, f32MagBits_fsub l m (f32Finite_of_inDomain l hl) fm]

/-- Rounding to binary32 keeps the order of the values. -/
theorem f32Value_round_mono {n n' d : Nat} (hd : 0 < d) (h : n ≤ n') :
    f32Value (f32RoundMag n d) ≤ f32Value (f32RoundMag n' d) :=
  (f32Value_le_iff _ _).mpr (f32RoundMag_mono n n' d hd h)

/-- The magnitude of the product rises with the magnitudes of the differences (R181). -/
theorem floatProduct_magBits_mono {u' m' l' : Word} (hu : InDomain u) (hm : InDomain m) (hl : InDomain l)
    (hu' : InDomain u') (hm' : InDomain m') (hl' : InDomain l')
    (hU : (f32Units u - f32Units m).natAbs ≤ (f32Units u' - f32Units m').natAbs)
    (hD : (f32Units l - f32Units m).natAbs ≤ (f32Units l' - f32Units m').natAbs) :
    f32MagBits (floatProduct u m l) ≤ f32MagBits (floatProduct u' m' l') := by
  have hunit : 0 < 2 ^ 149 := Nat.two_pow_pos 149
  rw [floatProduct_magBits hu hm hl, floatProduct_magBits hu' hm' hl']
  refine f32RoundMag_mono _ _ _ hunit (Nat.mul_le_mul_right _ (f32Value_round_mono hunit ?_))
  exact Nat.mul_le_mul (f32Value_round_mono Nat.one_pos hU) (f32Value_round_mono Nat.one_pos hD)

end

/-! The quotient of the ramp. -/

/-- The magnitude of a quotient by 255.0: an infinity stays one (40_numeric_domain.md R163). -/
def quotientMag (mag : Nat) : Nat :=
  if mag = f32InfBits then f32InfBits else f32RoundMag (f32Value mag * 2 ^ 149) (f32Mag f32TwoFiftyFive)

theorem quotientMag_le (mag : Nat) : quotientMag mag ≤ f32InfBits := by
  unfold quotientMag
  split
  · exact Nat.le_refl _
  · exact f32RoundMag_le _ _

theorem quotientMag_zero : quotientMag 0 = 0 := by
  rw [quotientMag, if_neg (by decide)]
  exact f32RoundMag_zero _

theorem quotientMag_mono {mag mag' : Nat} (h : mag ≤ mag') (h' : mag' ≤ f32InfBits) : quotientMag mag ≤ quotientMag mag' := by
  by_cases hinf : mag' = f32InfBits
  · rw [hinf, quotientMag, quotientMag, if_pos rfl]
    exact quotientMag_le mag
  · rw [quotientMag, quotientMag, if_neg (by omega), if_neg hinf]
    exact f32RoundMag_mono _ _ _ (by decide) (Nat.mul_le_mul_right _ ((f32Value_le_iff _ _).mpr h))

theorem fdiv_twoFiftyFive_eq_pack {a : Word} (ha : f32MagBits a ≤ f32InfBits) :
    fdiv a f32TwoFiftyFive = f32Pack (f32Sign a) (quotientMag (f32MagBits a)) := by
  rw [fdiv_twoFiftyFive a ha, f32Mag_eq a, quotientMag]

theorem fdiv_twoFiftyFive_not_NaN {a : Word} (ha : f32MagBits a ≤ f32InfBits) : f32IsNaN (fdiv a f32TwoFiftyFive) = false := by
  rw [fdiv_twoFiftyFive_eq_pack ha]
  exact f32IsNaN_pack _ _ (quotientMag_le _)

theorem f32Key_fdiv_twoFiftyFive {a : Word} (ha : f32MagBits a ≤ f32InfBits) :
    f32Key (fdiv a f32TwoFiftyFive) = if f32Sign a then -(quotientMag (f32MagBits a) : Int) else quotientMag (f32MagBits a) := by
  rw [fdiv_twoFiftyFive_eq_pack ha, f32Key_pack _ _ (Nat.lt_of_le_of_lt (quotientMag_le _) (by decide))]

/-- The quotient by 255.0 of a value that is not positive is not positive. -/
theorem fdiv_twoFiftyFive_key_nonpos {a : Word} (ha : f32MagBits a ≤ f32InfBits) (h : f32Key a ≤ 0) :
    f32Key (fdiv a f32TwoFiftyFive) ≤ 0 := by
  rw [f32Key_fdiv_twoFiftyFive ha]
  unfold f32Key at h
  split
  · omega
  · rw [if_neg ‹_›] at h
    have hzero : f32MagBits a = 0 := by omega
    rw [hzero, quotientMag_zero]
    exact Int.le_refl _

/-- The quotient by 255.0 keeps the order of the values that are not negative. -/
theorem fdiv_twoFiftyFive_key_mono {a b : Word} (hb : f32MagBits b ≤ f32InfBits) (hka : f32Key a = f32MagBits a)
    (hkb : f32Key b = f32MagBits b) (h : f32MagBits a ≤ f32MagBits b) :
    f32Key (fdiv a f32TwoFiftyFive) ≤ f32Key (fdiv b f32TwoFiftyFive) := by
  have key : ∀ w, f32MagBits w ≤ f32InfBits → f32Key w = f32MagBits w →
      f32Key (fdiv w f32TwoFiftyFive) = quotientMag (f32MagBits w) := by
    intro w hw hk
    rw [f32Key_fdiv_twoFiftyFive hw]
    unfold f32Key at hk
    split
    · rw [if_pos ‹_›] at hk
      have hzero : f32MagBits w = 0 := by omega
      rw [hzero, quotientMag_zero]
      rfl
    · rfl
  rw [key a (by omega) hka, key b hb hkb]
  exact_mod_cast quotientMag_mono h hb

/-! The selection, in value. -/

/-- The output in value that a product selects: below the lower bound 0, above the upper bound 1.0, else the clamped quotient. -/
def selectedKey (low high prod : Word) : Int :=
  if flt prod low then 0 else if fgt prod high then f32Key f32One
  else max 0 (min (f32Key (fdiv prod f32TwoFiftyFive)) (f32Key f32One))

theorem f32Key_one : f32Key f32One = 0x3F800000 := by decide

/-- PIX.F32, branch by branch, on the product of a pixel (R178). -/
theorem pixFloat_eq (low high u m l free : Word) :
    pixFloat low high u m l free =
      if flt (floatProduct u m l) low then 0 else if fgt (floatProduct u m l) high then f32One
      else if floatProduct u m l = 0x80000000 then (if free.getLsbD 31 then 0x80000000 else 0)
      else fclamp01 (fdiv (floatProduct u m l) f32TwoFiftyFive) := rfl

/-- PIX.F32 in value: where the product is -0.0 the sign of the zero is open, and its clamped quotient is a zero too (R178,
40_numeric_domain.md R162). -/
theorem f32Key_pixFloat {low high u m l : Word} (free : Word) (hprod : f32MagBits (floatProduct u m l) ≤ f32InfBits) :
    f32Key (pixFloat low high u m l free) = selectedKey low high (floatProduct u m l) := by
  have hzeros : ∀ b : Bool, f32Key (if b = true then 0x80000000 else 0) = 0 := by decide
  have hquot : f32Key (fdiv 0x80000000 f32TwoFiftyFive) ≤ 0 := fdiv_twoFiftyFive_key_nonpos (by decide) (by decide)
  rw [pixFloat_eq, selectedKey]
  split
  · rfl
  · split
    · rfl
    · split
      · rename_i hneg
        rw [hzeros, hneg]
        omega
      · exact f32Key_fclamp01 _ (fdiv_twoFiftyFive_not_NaN hprod)

theorem selectedKey_bounds (low high prod : Word) : 0 ≤ selectedKey low high prod ∧ selectedKey low high prod ≤ f32Key f32One := by
  have hone := f32Key_one
  unfold selectedKey
  split
  · omega
  · split <;> omega

/-- What is below a bound stays below it when it falls. -/
theorem flt_mono {a b low : Word} (ha : f32MagBits a ≤ f32InfBits) (h : f32Key a ≤ f32Key b) (hlt : flt b low = true) :
    flt a low = true := by
  have hnan := (f32IsNaN_eq_false_iff a).mpr ha
  simp only [flt, Bool.and_eq_true, Bool.not_eq_true', decide_eq_true_eq] at hlt ⊢
  obtain ⟨⟨-, hlow⟩, hkey⟩ := hlt
  exact ⟨⟨hnan, hlow⟩, by omega⟩

/-- What is above a bound stays above it when it rises. -/
theorem fgt_mono {a b high : Word} (hb : f32MagBits b ≤ f32InfBits) (h : f32Key a ≤ f32Key b) (hgt : fgt a high = true) :
    fgt b high = true := by
  have hnan := (f32IsNaN_eq_false_iff b).mpr hb
  simp only [fgt, flt, Bool.and_eq_true, Bool.not_eq_true', decide_eq_true_eq] at hgt ⊢
  obtain ⟨⟨hhigh, -⟩, hkey⟩ := hgt
  exact ⟨⟨hhigh, hnan⟩, by omega⟩

/-- A larger product that is not negative never selects a smaller output (R181). -/
theorem selectedKey_mono {a b low high : Word} (hb : f32MagBits b ≤ f32InfBits) (hka : f32Key a = f32MagBits a)
    (hkb : f32Key b = f32MagBits b) (h : f32MagBits a ≤ f32MagBits b) : selectedKey low high a ≤ selectedKey low high b := by
  have hkey : f32Key a ≤ f32Key b := by omega
  by_cases hlow : flt a low = true
  · have hzero : selectedKey low high a = 0 := by rw [selectedKey, if_pos hlow]
    rw [hzero]
    exact (selectedKey_bounds low high b).1
  · have hlow' : ¬flt b low = true := fun hlt => hlow (flt_mono (by omega) hkey hlt)
    by_cases hhigh' : fgt b high = true
    · have hone : selectedKey low high b = f32Key f32One := by rw [selectedKey, if_neg hlow', if_pos hhigh']
      rw [hone]
      exact (selectedKey_bounds low high a).2
    · have hhigh : ¬fgt a high = true := fun hgt => hhigh' (fgt_mono hb hkey hgt)
      have hquot := fdiv_twoFiftyFive_key_mono hb hka hkb h
      rw [selectedKey, selectedKey, if_neg hlow, if_neg hlow', if_neg hhigh, if_neg hhigh']
      omega

/-- A product that is not positive selects a zero under an upper bound that is not negative (R173). -/
theorem selectedKey_of_nonpos {a low high : Word} (ha : f32MagBits a ≤ f32InfBits) (h : f32Key a ≤ 0)
    (hhigh : 0 ≤ f32Key high) : selectedKey low high a = 0 := by
  have hnot : ¬fgt a high = true := by
    simp only [fgt, flt, Bool.and_eq_true, decide_eq_true_eq]
    omega
  have hquot := fdiv_twoFiftyFive_key_nonpos ha h
  have hone := f32Key_one
  rw [selectedKey, if_neg hnot]
  split <;> omega

/-! The settled statements. -/

theorem pix_f32_of_inDomain {u m l : Word} (hu : InDomain u) (hm : InDomain m) (hl : InDomain l) (low high free : Word) :
    pix .f32 low high u m l free = pixFloat low high u m l free := by
  have hout : (f32OutOfDomain u || f32OutOfDomain m || f32OutOfDomain l) = false := by rw [hu, hm, hl]; rfl
  simp only [pix, pixF32Value, hout, Bool.false_eq_true, if_false]

/-- The output of PIX.F32 in value, for samples in the domain. -/
theorem f32Key_pix_f32 {u m l : Word} (hu : InDomain u) (hm : InDomain m) (hl : InDomain l) (low high free : Word) :
    f32Key (pix .f32 low high u m l free) = selectedKey low high (floatProduct u m l) := by
  rw [pix_f32_of_inDomain hu hm hl]
  exact f32Key_pixFloat free (floatProduct_magBits_le hu hm hl)

/-- Settles O29: the branches of PIX.F32, one by one. -/
theorem pixFloat : Obligations.PixFloat := by
  intro s prod
  refine ⟨_, exec_pixInstr .f32 s, fun hu hm hl => ?_⟩
  have hprod : floatProduct s.smpU s.smpM s.smpL = prod := rfl
  rw [pix_f32_of_inDomain hu hm hl, pixFloat_eq, hprod]
  refine ⟨fun hlow => ?_, fun hlow hhigh => ?_, fun hlow hhigh hneg => ?_, fun hlow hhigh hneg => ?_⟩
  · rw [if_pos hlow]
  · rw [hlow, if_neg Bool.false_ne_true, if_pos hhigh]
    rfl
  · rw [hlow, hhigh, if_neg Bool.false_ne_true, if_neg Bool.false_ne_true, if_pos hneg]
    split
    · exact .inr rfl
    · exact .inl rfl
  · rw [hlow, hhigh, if_neg Bool.false_ne_true, if_neg Bool.false_ne_true, if_neg hneg]
    rfl

/-- Settles O60: the product rises with the magnitudes of the differences, and the output in value with the product. -/
theorem floatMonotone : Obligations.FloatMonotone := by
  intro s s' t t' hlow hhigh hdom hexec hexec' dU dD dU' dD' hsign hsign' hU hD
  obtain ⟨hu, hm, hl, hu', hm', hl'⟩ : InDomain s.smpU ∧ InDomain s.smpM ∧ InDomain s.smpL ∧
      InDomain s'.smpU ∧ InDomain s'.smpM ∧ InDomain s'.smpL := by
    simpa [InDomain] using hdom
  rw [smpOut_of_exec_pixInstr (d := .f32) hexec, smpOut_of_exec_pixInstr (d := .f32) hexec', f32Key_pix_f32 hu hm hl,
    f32Key_pix_f32 hu' hm' hl', hlow, hhigh]
  exact selectedKey_mono (floatProduct_magBits_le hu' hm' hl') (floatProduct_key_of_nonneg hu hm hl hsign)
    (floatProduct_key_of_nonneg hu' hm' hl' hsign') (floatProduct_magBits_mono hu hm hl hu' hm' hl' hU hD)

/-- Settles O28: the product of a flat pixel is not positive, and such a product selects a zero in every domain. -/
theorem flatPixelsGiveZero : Obligations.FlatPixelsGiveZero := by
  intro s d w dU dD
  refine ⟨fun hd hflat => ?_, fun hd hflat hu hm hl hhigh => ?_⟩
  · have hprod : scaledProduct d s.smpU s.smpM s.smpL ≤ 0 := Int.ediv_nonpos_of_nonpos_of_neg hflat (by positivity)
    have hzero : pix d s.lowS s.highS s.smpU s.smpM s.smpL (Config.freeWord s.draws 0) = 0 :=
      BitVec.eq_of_toNat_eq ((pix_toNat_of_integer hd _ _ _ _ _ _).trans (selectedOutput_of_nonpos hprod))
    rw [exec_pixInstr, hzero]
  · subst hd
    refine ⟨_, exec_pixInstr .f32 s, ?_⟩
    rw [f32Key_pix_f32 hu hm hl]
    exact selectedKey_of_nonpos (floatProduct_magBits_le hu hm hl) (floatProduct_key_nonpos hu hm hl hflat) hhigh

end Sys2Proof.Proofs.FloatPixels

/-! VPIX is PIX in every lane, and the lanes do not interact (42_vector_backends.md R215). -/

namespace Sys2Proof.Proofs.VectorPixels

open Sys2Proof Sys2Proof.Machine Sys2Proof.Proofs.Mask

theorem exec_vpix_of_domain {s : State} {d : Domain} (hd : domainOf s = some d) : exec .vpix s = .next (vpixOp d s) := by
  have hexec : exec .vpix s = execVpix s := rfl
  rw [hexec, execVpix, hd]

theorem exec_vpix_of_no_domain {s : State} (hd : domainOf s = none) : exec .vpix s = .refused .noSampleDomain := by
  have hexec : exec .vpix s = execVpix s := rfl
  rw [hexec, execVpix, hd]

theorem vpixOp_length {s : State} {n : Nat} (hu : s.vecU.length = n) (hm : s.vecM.length = n) (hl : s.vecLo.length = n)
    (d : Domain) : (vpixOp d s).vecOut.length = n :=
  (pixLanes_length d _ _ _ 0 _ _ _ (hm.trans hu.symm) (hl.trans hu.symm)).trans hu

/-- Lane j after VPIX, from lane j of the operands, the domain and the bounds. -/
theorem vpixOp_lane {s : State} {n : Nat} (hlu : s.vecU.length = n) (hlm : s.vecM.length = n) (hll : s.vecLo.length = n)
    {j : Nat} {u m l : Word} (hu : s.vecU[j]? = some u) (hm : s.vecM[j]? = some m) (hl : s.vecLo[j]? = some l) (d : Domain) :
    (vpixOp d s).vecOut[j]? = some (pix d s.lowS s.highS u m l (Config.freeWord s.draws j)) := by
  obtain ⟨hju, rfl⟩ := List.getElem?_eq_some_iff.mp hu
  obtain ⟨hjm, rfl⟩ := List.getElem?_eq_some_iff.mp hm
  obtain ⟨hjl, rfl⟩ := List.getElem?_eq_some_iff.mp hl
  have hj : j < (vpixOp d s).vecOut.length := by rwa [vpixOp_length hlu hlm hll d, ← hlu]
  have hlane := pixLanes_getElem d s.lowS s.highS s.draws 0 _ _ _ j hju hjm hjl hj
  rw [Nat.zero_add] at hlane
  exact List.getElem?_eq_some_iff.mpr ⟨hj, hlane⟩

/-- Settles O31: a lane's result is PIX of its own operands, and in an integer domain the lane's free value does not show. -/
theorem vpixLanes : Obligations.VpixLanes := by
  intro s n hlu hlm hll
  refine ⟨fun d hd => ?_, exec_vpix_of_no_domain⟩
  refine ⟨(vpixOp d s).vecOut, exec_vpix_of_domain hd, vpixOp_length hlu hlm hll d, fun j u m l o hu hm hl ho => ?_⟩
  obtain rfl : pix d s.lowS s.highS u m l (Config.freeWord s.draws j) = o :=
    Option.some.inj ((vpixOp_lane hlu hlm hll hu hm hl d).symm.trans ho)
  refine ⟨⟨_, rfl⟩, fun s' t' hint hlu' hlm' hll' hfmt hlow hhigh hu' hm' hl' hexec => ?_⟩
  have hd' : domainOf s' = some d := (congrArg domainOfFmt hfmt).trans hd
  rw [exec_vpix_of_domain hd'] at hexec
  cases hexec
  rw [vpixOp_lane hlu' hlm' hll' hu' hm' hl' d, hlow, hhigh, pix_free_irrelevant hint]

end Sys2Proof.Proofs.VectorPixels

/-! Every backend stores what the scalar backend stores (42_vector_backends.md R210): each leaves PIX of the source in the rows it
is given and every other byte as it was, and PIX determines the samples, in value where the spec leaves the sign of a zero open
(40_numeric_domain.md R162). -/

namespace Sys2Proof.Proofs.Backends

open Sys2Proof Sys2Proof.Machine Sys2Proof.Proofs.Cursors Sys2Proof.Proofs.Mask Sys2Proof.Proofs.Planes

/-! Samples. -/

/-- Equal containers in the integer domains, equal values in the float domain (42_vector_backends.md R210). -/
def SameSample (d : Domain) (v v' : Nat) : Prop :=
  (d ≠ .f32 → v' = v) ∧ (d = .f32 → f32Key (BitVec.ofNat 32 v') = f32Key (BitVec.ofNat 32 v))

theorem SameSample.of_eq {d : Domain} {v v' : Nat} (h : v' = v) : SameSample d v v' :=
  ⟨fun _ => h, fun _ => by rw [h]⟩

/-- PIX of one neighbourhood, whatever the free values. -/
theorem sameSample_maskSample {d : Domain} {ds : Desc} {m : List Host.Cell} (hin : d = .f32 → SourceInDomain ds m) {y x : Nat}
    (hlow : 1 ≤ y) (hhigh : y + 1 < ds.height.toNat) (hx : x < ds.width.toNat) (low high free free' : Word) :
    SameSample d (maskSample d low high ds m y x free).toNat (maskSample d low high ds m y x free').toNat := by
  refine ⟨fun hint => ?_, fun hf => ?_⟩
  · rw [maskSample, maskSample, pix_free_irrelevant hint]
  · have hdom := hin hf
    subst hf
    rw [BitVec.ofNat_toNat, BitVec.ofNat_toNat, BitVec.setWidth_eq, BitVec.setWidth_eq]
    exact pix_f32_free_key (hdom _ x (by omega) hx) (hdom y x (by omega) hx) (hdom _ x hhigh hx) _ _ _ _

/-- The mask of a source determines the samples of a row. -/
theorem sameSample_of_rowHoldsMask {d : Domain} {low high : Word} {ds : Desc} {m t t' : List Host.Cell}
    (hin : d = .f32 → SourceInDomain ds m) {y x : Nat} (hy : y < ds.height.toNat) (hx : x < ds.width.toNat)
    (h : RowHoldsMask d low high ds m t y) (h' : RowHoldsMask d low high ds m t' y) :
    SameSample d (dstSample d ds t y x) (dstSample d ds t' y x) := by
  by_cases hborder : y = 0 ∨ y + 1 = ds.height.toNat
  · exact .of_eq ((rowHoldsMask_border h' hborder hx).trans (rowHoldsMask_border h hborder hx).symm)
  · have hs := h x hx
    have hs' := h' x hx
    rw [if_neg hborder] at hs hs'
    obtain ⟨free, hfree⟩ := hs
    obtain ⟨free', hfree'⟩ := hs'
    rw [hfree, hfree']
    exact sameSample_maskSample hin (by omega) (by omega) hx _ _ _ _

/-! The rows an operation masks. -/

/-- m' differs from m in the destination of a plane only: the given rows hold the mask of the source in m, the samples of the
other rows are those of m. -/
structure MaskInRows (d : Domain) (low high : Word) (ds : Desc) (rows : Nat → Prop) (m m' : List Host.Cell) : Prop where
  outside : SameOutside (dstFoot d ds) m m'
  masked : ∀ y, y < ds.height.toNat → rows y → RowHoldsMask d low high ds m m' y
  kept : ∀ y x, y < ds.height.toNat → x < ds.width.toNat → ¬rows y → dstSample d ds m' y x = dstSample d ds m y x

/-- Nothing is written in a plane without samples. -/
theorem MaskInRows.of_empty {d : Domain} {low high : Word} {ds : Desc} (h : ¬PlaneNotEmpty ds) (rows : Nat → Prop)
    (m : List Host.Cell) : MaskInRows d low high ds rows m m := by
  have hempty : ds.width = 0 ∨ ds.height = 0 := by
    simpa [PlaneNotEmpty, or_iff_not_imp_left] using h
  exact ⟨fun _ _ => rfl, fun y hy _ => holdsMask_of_empty hempty d low high m m y hy, fun _ _ _ _ _ => rfl⟩

/-- The samples of a plane after two operations on the same rows of the same source. -/
theorem MaskInRows.sameSample {d : Domain} {low high : Word} {ds : Desc} {rows : Nat → Prop} {m t t' : List Host.Cell}
    (h : MaskInRows d low high ds rows m t) (h' : MaskInRows d low high ds rows m t')
    (hin : d = .f32 → SourceInDomain ds m) {y x : Nat} (hy : y < ds.height.toNat) (hx : x < ds.width.toNat) :
    SameSample d (dstSample d ds t y x) (dstSample d ds t' y x) := by
  by_cases hrow : rows y
  · exact sameSample_of_rowHoldsMask hin hy hx (h.masked y hy hrow) (h'.masked y hy hrow)
  · exact .of_eq ((h'.kept y x hy hx hrow).trans (h.kept y x hy hx hrow).symm)

theorem MaskInRows.outside_unique {d : Domain} {low high : Word} {ds : Desc} {rows : Nat → Prop} {m t t' : List Host.Cell}
    (h : MaskInRows d low high ds rows m t) (h' : MaskInRows d low high ds rows m t') {a : Nat}
    (ha : (dstFoot d ds).contains a = false) : memByte t' a = memByte t a :=
  (h'.outside a ha).trans (h.outside a ha).symm

/-- In an integer domain the rows determine every byte. -/
theorem MaskInRows.memByte_unique {d : Domain} {low high : Word} {ds : Desc} {rows : Nat → Prop} {m t t' : List Host.Cell}
    (hint : d ≠ .f32) (h : MaskInRows d low high ds rows m t) (h' : MaskInRows d low high ds rows m t') (a : Nat) :
    memByte t' a = memByte t a := by
  by_cases ha : (dstFoot d ds).contains a = true
  · obtain ⟨y, x, i, hy, hx, hi, rfl⟩ := (dstFoot_contains_iff d ds a).mp ha
    obtain ⟨hsample, -⟩ := h.sameSample h' (absurd · hint) hy hx
    exact memByte_eq_of_memRead_eq (hsample hint) hi
  · exact h.outside_unique h' (Bool.eq_false_iff.mpr ha)

/-! The operations. -/

/-- The rows of a plane do not overlap, so an operation on one row leaves the samples of the others as they are
(20_memory.md R70 V1). -/
theorem dstSample_of_sameOutsideRow {d : Domain} {ds : Desc} (hr : descInRange d ds = true) {m m' : List Host.Cell} {y z x : Nat}
    (h : SameOutsideRange (dstAddr d ds y 0) (ds.width.toNat * elemSize d) m m') (hzy : z ≠ y) (hx : x < ds.width.toNat) :
    dstSample d ds m' z x = dstSample d ds m z x := by
  refine dstSample_congr hx fun a ha ha' => h a ?_
  rcases Nat.lt_or_gt_of_ne hzy with hlt | hgt
  · exact .inl (ha'.trans_le (dstRows_apart d ds hr z y hlt))
  · exact .inr ((dstRows_apart d ds hr y z hgt).trans ha)

/-- A row form that completes masks its row, with any backend (42_vector_backends.md R216). -/
theorem rowInstr_maskInRows {s t : State} {p : PlaneId} {y : Word} {d : Domain} {k : Tier} (hd : domainOf s = some d)
    (h : exec (rowInstr p y k) s = .next t) :
    MaskInRows d s.lowS s.highS (s.desc p) (· = y.toNat) s.mem t.mem := by
  rw [exec_rowInstr] at h
  obtain ⟨-, ⟨hempty, rfl⟩ | ⟨d', hd', hrow, rfl⟩⟩ := (rowForm_next_iff k p y s t).mp h
  · exact .of_empty hempty _ _
  · obtain rfl : d' = d := Option.some.inj (hd'.symm.trans hd)
    obtain ⟨hr, -⟩ := (descValid_iff _ _).mp hrow.valid
    have hheight := hrow.high
    have hwritten := (rowOp_written k d' p y.toNat s ⟨hr, hrow.width, by omega⟩).outside
    refine ⟨fun a ha => hwritten a ?_, fun z _ hz => ?_, fun z x _ hx hz => dstSample_of_sameOutsideRow hr hwritten hz hx⟩
    · exact outsideRows_of_not_contains ha y.toNat (Nat.zero_le _) (by omega)
    · subst hz
      exact (rowOp_rowsMasked k hrow).rows _ (Nat.le_refl _) (Nat.lt_succ_self _)

/-- A KERNEL that completes masks every row of its plane, with any backend (41_threshold_kernel.md R189). -/
theorem kernel_maskInRows {s t : State} {p : PlaneId} {d : Domain} (hd : domainOf s = some d)
    (h : exec (.kernel p) s = .next t) : MaskInRows d s.lowS s.highS (s.desc p) (fun _ => True) s.mem t.mem := by
  obtain ⟨hc, hplane⟩ := (onColourPlane_next_iff _ _ _ _).mp h
  rcases (onPlane_next_iff _ _ _ _).mp hplane with ⟨hempty, rfl⟩ | ⟨-, d', hd', hv, -⟩
  · exact .of_empty hempty _ _
  · obtain rfl : d' = d := Option.some.inj (hd'.symm.trans hd)
    obtain ⟨t', hexec, -, -, hmask, hout⟩ := kernelComputesMask s p d' hc hd hv
    obtain rfl : t' = t := Host.Outcome.next.inj (hexec.symm.trans h)
    exact ⟨hout, fun y hy _ => hmask y hy, fun _ _ _ _ hrow => absurd trivial hrow⟩

/-- Settles O36: both runs mask the same rows of one source, which determines what they leave. -/
theorem tiersEqualScalar : Obligations.TiersEqualScalar := by
  intro s t t0 p y d k hd hruns
  obtain ⟨rows, h, h0⟩ : ∃ rows, MaskInRows d s.lowS s.highS (s.desc p) rows s.mem t.mem ∧
      MaskInRows d s.lowS s.highS (s.desc p) rows s.mem t0.mem := by
    rcases hruns with ⟨hk, hscalar⟩ | ⟨hk, hscalar⟩
    · exact ⟨_, kernel_maskInRows (s := { s with backend := k }) hd hk,
        kernel_maskInRows (s := { s with backend := .scalar }) hd hscalar⟩
    · exact ⟨_, rowInstr_maskInRows hd hk, rowInstr_maskInRows (k := .scalar) hd hscalar⟩
  refine ⟨fun hint => h0.memByte_unique hint h, fun hf hin => ⟨fun a ha => h0.outside_unique h ha, fun z x hz hx => ?_⟩⟩
  obtain ⟨-, hvalue⟩ := h0.sameSample h (fun _ => hin) hz hx
  exact hvalue hf

end Sys2Proof.Proofs.Backends

/-! CONFIGURE and its parts (43_dispatch.md R230 to R236): VALIDATE finds the lowest failing check, a valid configuration enters
READY with its constants and its level, and RESOLVE and the request forms answer with the level or the error of R236. -/

namespace Sys2Proof.Proofs.Configure

open Sys2Proof Sys2Proof.Machine Sys2Proof.Proofs.Derive Sys2Proof.Proofs.Encoding

/-! The seven checks. -/

theorem fmtLayout_eq (s : State) : fmtLayout s.fmt = fmtField s 9 2 := by
  simp [fmtLayout, fmtField, BitVec.extractLsb'_toNat, Nat.shiftRight_eq_div_pow]

theorem modes_fail_iff (s : State) :
    (!(isMode s.modeY.toInt && isMode s.modeU.toInt && isMode s.modeV.toInt)) = true ↔ CheckFails s 2 := by
  simp only [Bool.not_eq_true', ← Bool.not_eq_true, Bool.and_eq_true, isMode_iff, CheckFails, ModesInRange, and_assoc]

theorem thresholds_fail_iff (s : State) :
    (!(isThreshold s.thrLow.toInt && isThreshold s.thrHigh.toInt)) = true ↔ CheckFails s 3 := by
  simp only [Bool.not_eq_true', ← Bool.not_eq_true, Bool.and_eq_true, isThreshold_iff, CheckFails, ThresholdsInRange, and_assoc]

/-- The check with code 5 fails exactly where FMT selects no domain (30_encoding.md R108, 60_exceptions.md R274). -/
theorem checkFails_five_iff (s : State) : CheckFails s 5 ↔ domainOf s = none := by
  refine ⟨domainOf_eq_none_of_checkFails, fun hd hpasses => ?_⟩
  have hnone : ∀ d, ¬(fmtField s 8 1 = floatBit d ∧ fmtField s 0 8 = bitDepth d) := fun d h => by
    rw [← domainOf_eq_some_iff, hd] at h
    cases h
  rcases hpasses with ⟨hfloat, hbits⟩ | h
  · simp only [List.mem_cons, List.not_mem_nil, or_false] at hbits
    rcases hbits with h | h | h | h | h
    · exact hnone .u8 ⟨hfloat, h⟩
    · exact hnone .u16b10 ⟨hfloat, h⟩
    · exact hnone .u16b12 ⟨hfloat, h⟩
    · exact hnone .u16b14 ⟨hfloat, h⟩
    · exact hnone .u16b16 ⟨hfloat, h⟩
  · exact hnone .f32 h

/-- The error of a request is the code of its failing check (60_exceptions.md R275, R276). -/
theorem resolveRequest_error_iff_checkFails (s : State) (code : Nat) :
    resolveRequest s.capReq.toInt s.hwcap = .error code ↔ (code = 6 ∨ code = 7) ∧ CheckFails s code := by
  rw [resolveRequest_error_iff]
  constructor
  · rintro (⟨rfl, h⟩ | ⟨rfl, hk, hs⟩)
    · exact ⟨.inl rfl, h⟩
    · exact ⟨.inr rfl, hk, not_le.mpr hs⟩
  · rintro ⟨rfl | rfl, h⟩
    · exact .inl ⟨rfl, h⟩
    · obtain ⟨hk, hs⟩ := h
      exact .inr ⟨rfl, hk, not_le.mp hs⟩

open Classical in
/-- VALIDATE evaluates the checks in the order of their codes (43_dispatch.md R231). -/
theorem validateCode_eq (s : State) :
    validateCode s =
      if CheckFails s 1 then 1 else if CheckFails s 2 then 2 else if CheckFails s 3 then 3 else if CheckFails s 4 then 4
      else if CheckFails s 5 then 5 else if CheckFails s 6 then 6 else if CheckFails s 7 then 7 else 0 := by
  have hlayout : fmtLayout s.fmt ≠ 0 ↔ CheckFails s 1 := by rw [fmtLayout_eq]; rfl
  unfold validateCode
  refine ite_congr (propext hlayout) (fun _ => rfl) fun _ => ?_
  refine ite_congr (propext (modes_fail_iff s)) (fun _ => rfl) fun _ => ?_
  refine ite_congr (propext (thresholds_fail_iff s)) (fun _ => rfl) fun h3 => ?_
  refine ite_congr (propext ⟨fun h => ⟨not_not.mp h3, h⟩, fun h => h.2⟩) (fun _ => rfl) fun _ => ?_
  cases hd : domainOf s with
  | none => rw [if_pos ((checkFails_five_iff s).mpr hd)]
  | some d =>
    rw [if_neg (mt (checkFails_five_iff s).mp (by rw [hd]; nofun))]
    have herror := resolveRequest_error_iff_checkFails s
    cases hr : resolveRequest s.capReq.toInt s.hwcap with
    | error code =>
      obtain ⟨rfl | rfl, hfails⟩ := (herror code).mp hr
      · rw [if_pos hfails]
      · rw [if_neg fun h6 => h6 hfails.1, if_pos hfails]
    | ok t =>
      have hpass : ∀ code, code = 6 ∨ code = 7 → ¬CheckFails s code := fun code hcode hfails => by
        rw [(herror code).mpr ⟨hcode, hfails⟩] at hr
        cases hr
      rw [if_neg (hpass 6 (.inl rfl)), if_neg (hpass 7 (.inr rfl))]

theorem checkFails_code {s : State} {c : Nat} (h : CheckFails s c) : 1 ≤ c ∧ c ≤ 7 := by
  match c, h with
  | 1, _ | 2, _ | 3, _ | 4, _ | 5, _ | 6, _ | 7, _ => decide

theorem validateCode_of_lowest {s : State} {c : Nat} (h : CheckFails s c) (hlow : ∀ c', c' < c → ¬CheckFails s c') :
    validateCode s = c := by
  obtain ⟨h1, h7⟩ := checkFails_code h
  rw [validateCode_eq]
  interval_cases c <;> simp [h, hlow]

theorem validateCode_of_pass {s : State} (h : ∀ c, ¬CheckFails s c) : validateCode s = 0 := by
  simp [validateCode_eq, h]

/-! VALIDATE and CONFIGURE. -/

theorem whileUnconfigured_of_unconfigured {s : State} (hu : s.run = .unconfigured) (op : State → State) :
    whileUnconfigured op s = .next (op s) := (whileUnconfigured_eq op s _).mpr (.inl ⟨hu, rfl⟩)

theorem whileUnconfigured_of_configured {s : State} (hu : s.run ≠ .unconfigured) (op : State → State) :
    whileUnconfigured op s = .next s := (whileUnconfigured_eq op s _).mpr (.inr ⟨hu, rfl⟩)

theorem exec_validate_of_unconfigured {s : State} (hu : s.run = .unconfigured) :
    exec .validate s = .next (s.withResult (BitVec.ofNat 64 (validateCode s))) :=
  whileUnconfigured_of_unconfigured hu fun t => t.withResult (BitVec.ofNat 64 (validateCode t))

/-- Settles O16: the checks are evaluated in the order of their codes. -/
theorem validateReturnsLowest : Obligations.ValidateReturnsLowest := by
  intro s hu
  rw [exec_validate_of_unconfigured hu]
  refine ⟨fun c hc hlow => ?_, fun hpass => ?_⟩
  · rw [validateCode_of_lowest hc hlow]
  · rw [validateCode_of_pass hpass]
    rfl

theorem requestSupported_of_validConfig {s : State} {d : Domain} (h : ValidConfig s d) : RequestSupported s := by
  obtain ⟨-, -, -, -, -, -, hs⟩ := h
  exact hs

/-- A request that is not above HWCAP resolves (43_dispatch.md R235). -/
theorem resolveRequest_of_resolvesTo {s : State} {t : Tier} (ht : ResolvesTo s t) (hs : RequestSupported s) :
    resolveRequest s.capReq.toInt s.hwcap = .ok t := by
  refine (resolveRequest_ok_iff _ _ _).mpr (ht.imp id fun hreq => ⟨hreq, ?_⟩)
  rw [RequestSupported, hreq] at hs
  exact Int.ofNat_le.mp hs

/-- CONFIGURE of a valid configuration (43_dispatch.md R230). -/
theorem exec_configure_of_validConfig {s : State} {d : Domain} {t : Tier} (hu : s.run = .unconfigured)
    (hv : ValidConfig s d) (ht : ResolvesTo s t) : exec .configure s = .next (enterReady d t s) := by
  have hd := domainOf_of_validConfig hv
  refine congrArg Host.Outcome.next ?_
  rcases configureOp_cases s with ⟨hne, -⟩ | ⟨-, hz, -⟩ | ⟨-, d', t', hv', ht', hc⟩
  · exact absurd hu hne
  · exact absurd ((validateCode_eq_zero_iff s).mpr ⟨d, hv⟩) hz
  · rw [resolveRequest_of_resolvesTo ht (requestSupported_of_validConfig hv)] at ht'
    cases ht'
    rw [domainOf_of_validConfig hv'] at hd
    cases hd
    exact hc

/-- CONFIGURE of an invalid configuration takes the error of its lowest failing check (60_exceptions.md R278, R280). -/
theorem exec_configure_of_lowest {s : State} {c : Nat} (hu : s.run = .unconfigured) (h : CheckFails s c)
    (hlow : ∀ c', c' < c → ¬CheckFails s c') : exec .configure s = .next (raiseConfigError c s) := by
  have hcode := validateCode_of_lowest h hlow
  obtain ⟨hpos, -⟩ := checkFails_code h
  refine congrArg Host.Outcome.next ?_
  rcases configureOp_cases s with ⟨hne, -⟩ | ⟨-, -, hc⟩ | ⟨-, d, t, hv, -⟩
  · exact absurd hu hne
  · rw [hc, hcode]
  · have hz := (validateCode_eq_zero_iff s).mpr ⟨d, hv⟩
    omega

/-- Settles O18: the constants of an integer domain, with the products as they are in 32 bits. -/
theorem configureInteger : Obligations.ConfigureInteger := by
  intro s t c hc hu hv ht
  obtain ⟨hint, hdepth, hscale⟩ : c.1 ≠ .f32 ∧ bitDepth c.1 = c.2.1 ∧ scaleOf c.1 = c.2.2 := by
    fin_cases hc <;> decide
  rw [exec_configure_of_validConfig hu hv ht, enterReady, deriveConsts_integer hint, hdepth, hscale]

/-- Settles O19: each bound is one rounding of its threshold over 255. -/
theorem configureFloat : Obligations.ConfigureFloat := by
  intro s t hu hv ht
  obtain ⟨hle, hhigh255⟩ := thresholds_of_validConfig hv
  exact ⟨boundOf .f32 s.thrLow, boundOf .f32 s.thrHigh, exec_configure_of_validConfig hu hv ht,
    boundOf_f32_nearestEven (hle.trans hhigh255), boundOf_f32_nearestEven hhigh255⟩

/-- A configuration whose other checks pass fails the checks of its request only (43_dispatch.md R236). -/
theorem checks_below_six_pass {s : State} {d : Domain} (hl : fmtLayout s.fmt = 0) (hm : ModesInRange s)
    (ht : ThresholdsInRange s) (hle : s.thrLow.toInt ≤ s.thrHigh.toInt) (hd : domainOf s = some d) :
    ∀ c, c < 6 → ¬CheckFails s c := by
  intro c hc hfails
  match c, hc, hfails with
  | 1, _, h => exact h ((fmtLayout_eq s).symm.trans hl)
  | 2, _, h => exact h hm
  | 3, _, h => exact h ht
  | 4, _, h => exact absurd h.2 (not_lt.mpr hle)
  | 5, _, h =>
    rw [domainOf_eq_none_of_checkFails h] at hd
    cases hd

/-- Settles O22: the request resolves to a level, or fails with the code of its own check, since every other check passes. -/
theorem resolutionTable : Obligations.ResolutionTable := by
  intro s d hu hl hm hthr hle hd
  cases hr : resolveRequest s.capReq.toInt s.hwcap with
  | ok k =>
    have hk := Registers.tierCode_le k
    have hcases := (resolveRequest_ok_iff _ _ _).mp hr
    have hv : ValidConfig s d := by
      refine ⟨hl, hm, hthr, hle, hd, ?_, ?_⟩
      · unfold RequestKnown
        omega
      · unfold RequestSupported
        omega
    refine ⟨_, exec_configure_of_validConfig hu hv (hcases.imp id And.left), fun hauto => ⟨rfl, ?_⟩,
      fun h0 _ => ⟨rfl, ?_⟩, fun habove _ => by omega, fun hout => by omega⟩
    · rcases hcases with ⟨-, rfl⟩ | ⟨hreq, -⟩
      · rfl
      · omega
    · rcases hcases with ⟨hreq, -⟩ | ⟨hreq, -⟩
      · omega
      · exact hreq.symm
  | error code =>
    obtain ⟨hcode, hfails⟩ := (resolveRequest_error_iff_checkFails s code).mp hr
    have hlow : ∀ c, c < code → ¬CheckFails s c := fun c hc => by
      by_cases h6 : c < 6
      · exact checks_below_six_pass hl hm hthr hle hd c h6
      · obtain ⟨rfl, rfl⟩ : c = 6 ∧ code = 7 := by omega
        exact not_not.mpr hfails.1
    have hcases := (resolveRequest_error_iff _ _ _).mp hr
    have hhw := Registers.tierCode_le s.hwcap
    refine ⟨_, exec_configure_of_lowest hu hfails hlow, fun hauto => by omega, fun h0 hle => by omega,
      fun habove h3 => ?_, fun hout => ?_⟩
    · obtain rfl : code = 7 := by omega
      rfl
    · obtain rfl : code = 6 := by omega
      rfl

/-! RESOLVE and the request forms. -/

theorem resolveOp_of_ok {req : Int} {s : State} {t : Tier} (h : resolveRequest req s.hwcap = .ok t) :
    resolveOp req s = s.withResult (BitVec.ofNat 64 (tierCode t)) := by rw [resolveOp, h]

theorem resolveOp_of_error {req : Int} {s : State} {code : Nat} (h : resolveRequest req s.hwcap = .error code) :
    resolveOp req s = raiseConfigError code s := by rw [resolveOp, h]

/-- The request form of a level is RESOLVE with the level's code (43_dispatch.md R235). -/
theorem exec_capInstr (k : Tier) (s : State) : exec (capInstr k) s = whileUnconfigured (resolveOp (tierCode k)) s := by
  cases k <;> rfl

/-- Settles O23: the levels and the errors of R236, and no part of CONFIGURE outside UNCONFIGURED. -/
theorem partsOfConfigure : Obligations.PartsOfConfigure := by
  intro s k
  refine ⟨fun hu => ?_, fun hu i hi => ?_⟩
  · have hresolve : exec .resolve s = .next (resolveOp s.capReq.toInt s) := whileUnconfigured_of_unconfigured hu _
    have hfail : ∀ code, code = 6 ∨ code = 7 → CheckFails s code → exec .resolve s = .next (raiseConfigError code s) :=
      fun code hcode hfails => by
        rw [hresolve, resolveOp_of_error ((resolveRequest_error_iff_checkFails s code).mpr ⟨hcode, hfails⟩)]
    rw [exec_capInstr, whileUnconfigured_of_unconfigured hu]
    refine ⟨?_, fun hle => ?_, fun hlt => ?_, fun ht hs => ?_, hfail 6 (.inl rfl), hfail 7 (.inr rfl)⟩
    · have hauto : exec .capAuto s = .next (resolveOp (-1) s) := whileUnconfigured_of_unconfigured hu _
      rw [hauto, resolveOp_of_ok ((resolveRequest_ok_iff _ _ _).mpr (.inl ⟨rfl, rfl⟩))]
    · rw [resolveOp_of_ok ((resolveRequest_ok_iff _ _ _).mpr (.inr ⟨rfl, hle⟩))]
    · have hk := Registers.tierCode_le k
      rw [resolveOp_of_error ((resolveRequest_error_iff _ _ 7).mpr (.inr ⟨rfl, by omega, Int.ofNat_lt.mpr hlt⟩))]
      rfl
    · rw [hresolve, resolveOp_of_ok (resolveRequest_of_resolvesTo ht hs)]
  · obtain ⟨op, hop⟩ : ∃ op, exec i s = whileUnconfigured op s := by
      fin_cases hi
      · exact ⟨fun t => t.withResult (BitVec.ofNat 64 (validateCode t)), rfl⟩
      all_goals exact ⟨_, rfl⟩
    rw [hop, whileUnconfigured_of_configured hu]

end Sys2Proof.Proofs.Configure

/-! COPY, ALPHA.COPY and UNTOUCHED (43_dispatch.md R245 to R247): COPY leaves the source's bytes in the destination rows and every
other byte as it was, ALPHA.COPY is COPY of plane 3 when alpha is present, UNTOUCHED makes no access. -/

namespace Sys2Proof.Proofs.Copy

open Sys2Proof Sys2Proof.Machine Sys2Proof.Proofs.Sequencer Sys2Proof.Proofs.Mask Sys2Proof.Proofs.PlaneStops
  Sys2Proof.Proofs.Planes

/-! Rows that are copied. -/

/-- COPY changes plane memory only (43_dispatch.md R245). -/
theorem copyRows_eq_withMem (d : Domain) (p : PlaneId) (y n : Nat) (s : State) :
    copyRows d p y n s = s.withMem (copyRows d p y n s).mem := by
  induction n generalizing y s with
  | zero => rfl
  | succ n ih =>
    change copyRows d p (y + 1) n (copyRow d p y s) = s.withMem (copyRows d p (y + 1) n (copyRow d p y s)).mem
    rw [ih]
    rfl

/-- The destination rows from y0 to before y1 in m' hold the source rows in m, byte by byte; no other byte differs. -/
structure RowsCopied (d : Domain) (ds : Desc) (y0 y1 : Nat) (m m' : List Host.Cell) : Prop where
  outside : ∀ a, OutsideRows d ds y0 y1 a → memByte m' a = memByte m a
  rows : ∀ y i, y0 ≤ y → y < y1 → i < ds.width.toNat * elemSize d →
    memByte m' (dstAddr d ds y 0 + i) = memByte m (srcAddr d ds y 0 + i)

theorem copyRow_copies {d : Domain} {p : PlaneId} {y : Nat} {s : State} (hv : descValid d (s.desc p) = true)
    (hw : (s.desc p).width.toNat ≠ 0) (hy : y < (s.desc p).height.toNat) :
    RowsCopied d (s.desc p) y (y + 1) s.mem (copyRow d p y s).mem := by
  refine ⟨fun a ha => ?_, fun z i hz hz' hi => ?_⟩
  · have hrow := ha y (Nat.le_refl y) (Nat.lt_succ_self y)
    rw [memByte_copyRow d p y s hv hw hy, if_neg (by omega)]
  · obtain rfl : z = y := by omega
    rw [memByte_copyRow d p z s hv hw hy, if_pos (by omega), Nat.add_sub_cancel_left]

/-- Rows copied one part after the other: the second part leaves the first as it is, and the first leaves the source of the
second as it was. -/
theorem RowsCopied.trans {d : Domain} {ds : Desc} {y0 y1 y2 : Nat} {m m' m'' : List Host.Cell} (hv : descValid d ds = true)
    (hw : ds.width.toNat ≠ 0) (h01 : y0 ≤ y1) (h12 : y1 ≤ y2) (hy2 : y2 ≤ ds.height.toNat)
    (h1 : RowsCopied d ds y0 y1 m m') (h2 : RowsCopied d ds y1 y2 m' m'') : RowsCopied d ds y0 y2 m m'' := by
  refine ⟨fun a ha => ?_, fun y i hy0 hy hi => ?_⟩
  · rw [h2.outside a fun y hy hy' => ha y (by omega) hy', h1.outside a fun y hy hy' => ha y hy (by omega)]
  · by_cases hlt : y < y1
    · rw [h2.outside _ (outsideRows_of_dstRow hv hlt (by omega)), h1.rows y i hy0 hlt hi]
    · rw [h2.rows y i (by omega) hy hi,
        h1.outside _ (outsideRows_of_srcRow hv hw (by omega) (hy.trans_le hy2) (Nat.le_add_right _ _) (by omega))]

theorem copyRows_copies {d : Domain} {p : PlaneId} {y n : Nat} {s : State} (hv : descValid d (s.desc p) = true)
    (hw : (s.desc p).width.toNat ≠ 0) (hn : y + n ≤ (s.desc p).height.toNat) :
    RowsCopied d (s.desc p) y (y + n) s.mem (copyRows d p y n s).mem := by
  induction n generalizing y s with
  | zero => exact ⟨fun _ _ => rfl, fun z i hz hz' _ => absurd hz (by omega)⟩
  | succ n ih =>
    have hdesc : (copyRow d p y s).desc p = s.desc p := withMem_desc s _ p
    have hrest := ih (y := y + 1) (s := copyRow d p y s) (by rwa [hdesc]) (by rwa [hdesc]) (by rw [hdesc]; omega)
    rw [hdesc, show y + 1 + n = y + (n + 1) by omega] at hrest
    exact (copyRow_copies hv hw (by omega)).trans hv hw (by omega) (by omega) hn hrest

/-! A whole plane. -/

/-- A plane without samples has no byte to hold. -/
theorem holdsCopy_of_empty {ds : Desc} (h : ds.width = 0 ∨ ds.height = 0) (d : Domain) (m m' : List Host.Cell) :
    HoldsCopy d ds m m' := by
  intro y i hy hi
  rcases h with h | h
  · rw [h] at hi
    exact absurd hi (by simp)
  · rw [h] at hy
    exact absurd hy (Nat.not_lt_zero y)

/-- The copy of a plane with samples: its bytes, and no other (43_dispatch.md R245). -/
theorem copyOp_copies {d : Domain} {p : PlaneId} {s : State} (hv : descValid d (s.desc p) = true)
    (hne : PlaneNotEmpty (s.desc p)) :
    HoldsCopy d (s.desc p) s.mem (copyOp d p s).mem ∧ SameOutside (dstFoot d (s.desc p)) s.mem (copyOp d p s).mem := by
  have hcopied := copyRows_copies (y := 0) hv (word_toNat_ne_zero hne.1) (Nat.le_of_eq (Nat.zero_add _))
  rw [Nat.zero_add] at hcopied
  exact ⟨fun y i hy hi => hcopied.rows y i (Nat.zero_le y) hy hi,
    fun a ha => hcopied.outside a (outsideRows_of_not_contains ha)⟩

/-- Settles O38: a plane without samples is not accessed, and the rows of any other are copied one after the other. -/
theorem copyBytes : Obligations.CopyBytes := by
  intro s p d hd hv
  by_cases hempty : (s.desc p).width = 0 ∨ (s.desc p).height = 0
  · exact ⟨s.mem, onPlane_of_empty hempty _, holdsCopy_of_empty hempty _ _ _, fun _ _ => rfl⟩
  · have hne : PlaneNotEmpty (s.desc p) := not_or.mp hempty
    obtain ⟨hcopy, hout⟩ := copyOp_copies hv hne
    refine ⟨(copyOp d p s).mem, ?_, hcopy, hout⟩
    exact (onPlane_of_valid hne _ hd hv).trans (congrArg Host.Outcome.next (copyRows_eq_withMem d p 0 _ s))

/-! Planes that are left alone, and alpha. -/

/-- Settles O40: UNTOUCHED of a colour plane is the state it is given. -/
theorem untouchedNoAccess : Obligations.UntouchedNoAccess := by
  intro s p hc
  exact if_pos hc

/-- Alpha is absent where FMT.HAS_ALPHA is clear (10_state.md R30, 43_dispatch.md R241). -/
theorem isPresent_alpha_eq_false {s : State} (h : fmtField s 12 1 = 0) : isPresent s .a = false := by
  simpa [isPresent, fmtHasAlpha, BitVec.getLsbD, Nat.testBit_eq_decide_div_mod_eq, fmtField] using h

/-- Settles O41: FMT alone says whether alpha is present, and with alpha present ALPHA.COPY is COPY of plane 3. -/
theorem alphaCopied : Obligations.AlphaCopied := by
  intro s y u v
  refine ⟨fun halpha => ⟨?_, fun d hd hv => ?_⟩, fun halpha => ?_, rfl, rfl⟩
  · exact exec_alphaCopy_of_present (isPresent_alpha (s := { s with modeY := y, modeU := u, modeV := v }) halpha)
  · rw [exec_alphaCopy_of_present (isPresent_alpha halpha)]
    exact copyBytes s .a d hd hv
  · exact if_neg (Bool.eq_false_iff.mp (isPresent_alpha_eq_false halpha))

end Sys2Proof.Proofs.Copy

/-! A FRAME as the plane operations it stands for (43_dispatch.md R240, R249, R250): the sequencer, one lane group, border group or
copied row a step, ends where KERNEL of each Process plane and COPY of each Copy plane, in the order of the planes, end. Their
effects do not meet, because the descriptors keep V4 (20_memory.md R70). -/

namespace Sys2Proof.Proofs.FrameRun

open Sys2Proof Sys2Proof.Machine Sys2Proof.Proofs.Frames Sys2Proof.Proofs.Sequencer Sys2Proof.Proofs.Mask
  Sys2Proof.Proofs.Advance Sys2Proof.Proofs.Planes Sys2Proof.Proofs.Copy

/-! Runs. -/

/-- Some number of steps leads from s to t. -/
def Reaches (s t : State) : Prop := ∃ n, Host.Core.run Sys2Proof.core n s = .next t

theorem Reaches.refl (s : State) : Reaches s s := ⟨0, rfl⟩

/-- A run of one more step completes exactly when the step does and the run goes on from there. -/
theorem run_succ_next_iff (M : Host.Core) (n : Nat) (s u : M.State) :
    M.run (n + 1) s = .next u ↔ ∃ t, M.step s = .next t ∧ M.run n t = .next u := by
  rw [Host.Core.run]
  cases M.step s <;> simp

theorem Reaches.head {s t u : State} (h : step s = .next t) (h' : Reaches t u) : Reaches s u := by
  obtain ⟨n, hn⟩ := h'
  exact ⟨n + 1, (run_succ_next_iff Sys2Proof.core n s u).mpr ⟨t, h, hn⟩⟩

theorem Reaches.trans {s t u : State} (h : Reaches s t) (h' : Reaches t u) : Reaches s u := by
  obtain ⟨n, hn⟩ := h
  induction n generalizing s with
  | zero =>
    obtain rfl : s = t := Host.Outcome.next.inj hn
    exact h'
  | succ n ih =>
    obtain ⟨s', hstep, hrest⟩ := (run_succ_next_iff Sys2Proof.core n s t).mp hn
    exact .head hstep (ih hrest)

/-! The datapath does not see STATE and pos. -/

theorem maskPixel_goTo (d : Domain) (p : PlaneId) (y x : Nat) (u : State) (r : Option Pos) :
    maskPixel d p y x (goTo u r) = goTo (maskPixel d p y x u) r := by cases p <;> rfl

theorem maskGroup_goTo (d : Domain) (p : PlaneId) (y x n : Nat) (u : State) (r : Option Pos) :
    maskGroup d p y x n (goTo u r) = goTo (maskGroup d p y x n u) r := by cases p <;> rfl

theorem copyRow_goTo (d : Domain) (p : PlaneId) (y : Nat) (u : State) (r : Option Pos) :
    copyRow d p y (goTo u r) = goTo (copyRow d p y u) r := by cases p <;> rfl

theorem maskPixels_goTo (d : Domain) (p : PlaneId) (y x n : Nat) (u : State) (r : Option Pos) :
    maskPixels d p y x n (goTo u r) = goTo (maskPixels d p y x n u) r := by
  induction n generalizing x u with
  | zero => rfl
  | succ n ih => rw [maskPixels, maskPixel_goTo, ih, maskPixels]

theorem processGroup_goTo (d : Domain) (p : PlaneId) (y x n : Nat) (u : State) (r : Option Pos) :
    processGroup d p y x n (goTo u r) = goTo (processGroup d p y x n u) r := by
  have hbackend : (goTo u r).backend = u.backend := rfl
  simp only [processGroup, goTo_desc, hbackend, maskPixels_goTo, maskGroup_goTo, goTo_mem, apply_ite (goTo · r)]
  rfl

/-! Positions depend on the setup of a FRAME only. -/

section

variable {s t : State} (h : SameSetup s t)

include h

theorem effMode_congr (p : PlaneId) : effMode t p = effMode s p := by
  obtain ⟨-, -, hy, hu, hv, -⟩ := h.config
  cases p <;> simp only [effMode, hy, hu, hv]

theorem firstPos_congr (planes : List PlaneId) : firstPos t planes = firstPos s planes := by
  have hwork : hasWork t = hasWork s := funext (hasWork_congr h)
  simp only [firstPos, hwork]

theorem afterRow_congr (p : PlaneId) (y : Nat) : afterRow t p y = afterRow s p y := by
  simp only [afterRow, h.desc, firstPos_congr h]

theorem afterColumns_congr (p : PlaneId) (y x n : Nat) : afterColumns t p y x n = afterColumns s p y x n := by
  simp only [afterColumns, h.desc, afterRow_congr h]

end

/-- The position of column x of row y of plane p, or where the sequencer goes when the row has no such column. -/
def columnPos (s : State) (p : PlaneId) (y x : Nat) : Option Pos := afterColumns s p y x 0

/-- The position of row y of plane p, or where the sequencer goes when the plane has no such row. -/
def rowPos (s : State) (p : PlaneId) (y : Nat) : Option Pos :=
  if y < (s.desc p).height.toNat then some { plane := p, row := y, col := 0 } else firstPos s (planesAfter p)

theorem afterColumns_eq_columnPos (s : State) (p : PlaneId) (y x n : Nat) :
    afterColumns s p y x n = columnPos s p y (x + n) := rfl

theorem afterRow_eq_rowPos (s : State) (p : PlaneId) (y : Nat) : afterRow s p y = rowPos s p (y + 1) := rfl

theorem columnPos_of_lt {s : State} {p : PlaneId} {y x : Nat} (h : x < (s.desc p).width.toNat) :
    columnPos s p y x = some { plane := p, row := y, col := x } := if_pos h

theorem columnPos_width (s : State) (p : PlaneId) (y : Nat) :
    columnPos s p y (s.desc p).width.toNat = rowPos s p (y + 1) := if_neg (Nat.lt_irrefl _)

theorem rowPos_of_lt {s : State} {p : PlaneId} {y : Nat} (h : y < (s.desc p).height.toNat) :
    rowPos s p y = some { plane := p, row := y, col := 0 } := if_pos h

theorem rowPos_height (s : State) (p : PlaneId) :
    rowPos s p (s.desc p).height.toNat = firstPos s (planesAfter p) := if_neg (Nat.lt_irrefl _)

/-! One step. -/

/-- What a FRAME in progress runs on: a base state with no pending host event, whose plane p lies in plane memory. -/
structure Running (s : State) (d : Domain) (p : PlaneId) : Prop where
  inbox : s.inbox = []
  domain : domainOf s = some d
  inRange : descInRange d (s.desc p) = true
  width : (s.desc p).width.toNat ≠ 0
  height : (s.desc p).height.toNat ≠ 0

section

variable {s u : State} {d : Domain} {p : PlaneId} (h : Running s d p) (hu : OnlyDatapath s u)

include h hu

theorem step_at {y x : Nat} :
    step (goTo u (some { plane := p, row := y, col := x })) =
      .next (sequencerAt d { plane := p, row := y, col := x } (goTo u (some { plane := p, row := y, col := x }))) := by
  have hinbox : u.inbox = [] := by
    unfold OnlyDatapath at hu
    rw [hu]
    exact h.inbox
  have hstep : ∀ r, step (goTo u r) = sequencerStep (goTo u r) := fun r => by
    have hr : (goTo u r).inbox = [] := hinbox
    simp only [step, hr]
  rw [hstep]
  refine (sequencerStep_next_iff _ _).mpr (.inr (.inr ⟨rfl, _, d, rfl, ?_, ?_, rfl⟩))
  · rw [goTo_domainOf, hu.domainOf, h.domain]
  · rw [goTo_desc, hu.desc, h.inRange]

/-- A step in a Process plane handles a group of columns (10_state.md R41). -/
theorem step_process (hm : effMode s p = 3) {y x n : Nat} (hy : y < (s.desc p).height.toNat)
    (hx : x < (s.desc p).width.toNat) (hn : groupWidth s.backend d (s.desc p).width.toNat x = n) :
    step (goTo u (columnPos s p y x)) = .next (goTo (processGroup d p y x n u) (columnPos s p y (x + n))) := by
  have e := (sameSetup_of_onlyDatapath hu).goTo (some { plane := p, row := y, col := x })
  have hbackend := backend_congr e.config
  rw [columnPos_of_lt hx, step_at h hu]
  simp only [sequencerAt, e.desc, effMode_congr e, hm, hy, hx, and_self, if_true, hbackend, hn, afterColumns_congr e,
    processGroup_goTo, afterColumns_eq_columnPos]
  rfl

/-- A step in a Copy plane handles a row (10_state.md R41). -/
theorem step_copy (hm : effMode s p = 2) {y : Nat} (hy : y < (s.desc p).height.toNat) :
    step (goTo u (rowPos s p y)) = .next (goTo (copyRow d p y u) (rowPos s p (y + 1))) := by
  have e := (sameSetup_of_onlyDatapath hu).goTo (some { plane := p, row := y, col := 0 })
  have hne : (2 : Int) ≠ 3 := by decide
  rw [rowPos_of_lt hy, step_at h hu]
  simp only [sequencerAt, e.desc, effMode_congr e, hm, hy, hne, and_false, if_false, and_self, if_true, afterRow_congr e,
    copyRow_goTo, afterRow_eq_rowPos]
  rfl

end

/-! One row. -/

/-- Zeros in n columns from x of row y of the destination (41_threshold_kernel.md R183). -/
def zeroColumns (d : Domain) (p : PlaneId) (y x n : Nat) (u : State) : State :=
  u.withMem (memZero u.mem (dstAddr d (u.desc p) y x) (n * elemSize d))

theorem zrowOp_eq_zeroColumns (d : Domain) (p : PlaneId) (y : Nat) (u : State) :
    zrowOp d p y u = zeroColumns d p y 0 (u.desc p).width.toNat u := rfl

theorem memZero_add (m : List Host.Cell) (a n k : Nat) : memZero m a (n + k) = memZero (memZero m a n) (a + n) k := by
  induction n generalizing m a with
  | zero => rw [Nat.zero_add, memZero, Nat.add_zero]
  | succ n ih => rw [Nat.succ_add, memZero, ih, memZero, Nat.add_assoc, Nat.add_comm 1 n]

theorem zeroColumns_add (d : Domain) (p : PlaneId) (y x n k : Nat) (u : State) :
    zeroColumns d p y x (n + k) u = zeroColumns d p y (x + n) k (zeroColumns d p y x n u) := by
  have haddr : dstAddr d (u.desc p) y (x + n) = dstAddr d (u.desc p) y x + n * elemSize d := by
    simp only [dstAddr, Nat.add_mul, Nat.add_assoc]
  simp only [zeroColumns, withMem_desc, withMem_mem, haddr, Nat.add_mul, memZero_add]
  rfl

theorem processGroup_border {d : Domain} {p : PlaneId} {y : Nat} {u : State}
    (hy : y = 0 ∨ y + 1 = (u.desc p).height.toNat) (x n : Nat) :
    processGroup d p y x n u = zeroColumns d p y x n u := if_pos hy

theorem processGroup_pixel {d : Domain} {p : PlaneId} {y : Nat} {u : State}
    (hy : ¬(y = 0 ∨ y + 1 = (u.desc p).height.toNat)) (x : Nat) :
    processGroup d p y x 1 u = maskPixel d p y x u := by
  rw [processGroup, if_neg hy, if_pos (.inr rfl)]
  rfl

theorem processGroup_lanes {d : Domain} {p : PlaneId} {y n : Nat} {u : State}
    (hy : ¬(y = 0 ∨ y + 1 = (u.desc p).height.toNat)) (hb : u.backend ≠ .scalar) (hn : n ≠ 1) (x : Nat) :
    processGroup d p y x n u = maskGroup d p y x n u := by
  rw [processGroup, if_neg hy, if_neg (not_or.mpr ⟨hb, hn⟩)]

/-- A tier has several lanes (42_vector_backends.md R213). -/
theorem laneCount_ne_one {k : Tier} (hk : k ≠ .scalar) (d : Domain) : laneCount k d ≠ 1 := by
  cases k with
  | scalar => contradiction
  | tier1 | tier2 | tier3 => cases d <;> decide

/-- A tier's row is its full lane groups, then the remainder on the scalar path (42_vector_backends.md R214, R216). -/
theorem rowOp_of_tier {k : Tier} (hk : k ≠ .scalar) (d : Domain) (p : PlaneId) (y : Nat) (u : State) :
    rowOp k d p y u =
      maskPixels d p y ((u.desc p).width.toNat / laneCount k d * laneCount k d) ((u.desc p).width.toNat % laneCount k d)
        (maskGroups d p y (laneCount k d) 0 ((u.desc p).width.toNat / laneCount k d) u) := by
  cases k with
  | scalar => contradiction
  | tier1 | tier2 | tier3 => rfl

section

variable {s u : State} {d : Domain} {p : PlaneId} (h : Running s d p) (hm : effMode s p = 3)

include h hm

/-- The sequencer handles the columns of a border row group by group; together they are one run of zeros. -/
theorem reaches_zeroColumns (hu : OnlyDatapath s u) {y x k : Nat} (hy : y < (s.desc p).height.toNat)
    (hborder : y = 0 ∨ y + 1 = (s.desc p).height.toNat) (hx : x + k = (s.desc p).width.toNat) :
    Reaches (goTo u (columnPos s p y x)) (goTo (zeroColumns d p y x k u) (rowPos s p (y + 1))) := by
  induction k using Nat.strong_induction_on generalizing x u with
  | _ k ih =>
    rcases Nat.eq_zero_or_pos k with rfl | hk
    · obtain rfl : x = (s.desc p).width.toNat := hx
      rw [columnPos_width, zeroColumns, Nat.zero_mul]
      exact .refl _
    · have hpos := groupWidth_pos s.backend d (s.desc p).width.toNat x
      have hle := groupWidth_le s.backend d (s.desc p).width.toNat x (by omega)
      have hstep := step_process h hu hm hy (show x < _ by omega) rfl
      generalize groupWidth s.backend d (s.desc p).width.toNat x = n at *
      rw [processGroup_border (by rw [hu.desc]; exact hborder)] at hstep
      have hrest := ih (k - n) (by omega) (u := zeroColumns d p y x n u) (hu.trans (withMem_onlyDatapath _ _))
        (show x + n + (k - n) = _ by omega)
      rw [← zeroColumns_add, Nat.add_sub_cancel' (by omega)] at hrest
      exact .head hstep hrest

theorem reaches_zrowOp (hu : OnlyDatapath s u) {y : Nat} (hy : y < (s.desc p).height.toNat)
    (hborder : y = 0 ∨ y + 1 = (s.desc p).height.toNat) :
    Reaches (goTo u (rowPos s p y)) (goTo (zrowOp d p y u) (rowPos s p (y + 1))) := by
  have hrow := reaches_zeroColumns h hm hu hy hborder (Nat.zero_add (s.desc p).width.toNat)
  rwa [columnPos_of_lt (Nat.pos_of_ne_zero h.width), ← rowPos_of_lt hy, ← hu.desc, ← zrowOp_eq_zeroColumns] at hrow

/-- Columns where no lane group fits go one at a time. -/
theorem reaches_maskPixels (hu : OnlyDatapath s u) {y x k : Nat} (hlow : 1 ≤ y) (hhigh : y + 2 ≤ (s.desc p).height.toNat)
    (hx : x + k = (s.desc p).width.toNat)
    (hone : ∀ z, x ≤ z → groupWidth s.backend d (s.desc p).width.toNat z = 1) :
    Reaches (goTo u (columnPos s p y x)) (goTo (maskPixels d p y x k u) (rowPos s p (y + 1))) := by
  induction k generalizing x u with
  | zero =>
    obtain rfl : x = (s.desc p).width.toNat := hx
    rw [columnPos_width]
    exact .refl _
  | succ k ih =>
    have hstep := step_process h hu hm (show y < _ by omega) (show x < _ by omega) (hone x (Nat.le_refl x))
    rw [processGroup_pixel (by rw [hu.desc]; omega)] at hstep
    exact .head hstep (ih (hu.trans (maskPixel_onlyDatapath d p y x u)) (by omega) fun z hz => hone z (by omega))

/-- Full lane groups, as far as they fit. -/
theorem reaches_maskGroups (hb : s.backend ≠ .scalar) (hu : OnlyDatapath s u) {y x k : Nat} (hlow : 1 ≤ y)
    (hhigh : y + 2 ≤ (s.desc p).height.toNat) (hx : x + k * laneCount s.backend d ≤ (s.desc p).width.toNat) :
    Reaches (goTo u (columnPos s p y x))
      (goTo (maskGroups d p y (laneCount s.backend d) x k u) (columnPos s p y (x + k * laneCount s.backend d))) := by
  induction k generalizing x u with
  | zero =>
    rw [Nat.zero_mul, Nat.add_zero]
    exact .refl _
  | succ k ih =>
    have hpos := laneCount_pos s.backend d
    rw [Nat.succ_mul] at hx ⊢
    have hfits : groupWidth s.backend d (s.desc p).width.toNat x = laneCount s.backend d := if_pos (by omega)
    have hstep := step_process h hu hm (show y < _ by omega) (show x < _ by omega) hfits
    rw [processGroup_lanes (by rw [hu.desc]; omega) (by rwa [hu.backend]) (laneCount_ne_one hb d)] at hstep
    have hrest := ih (hu.trans (maskGroup_onlyDatapath d p y x (laneCount s.backend d) u))
      (show x + laneCount s.backend d + k * laneCount s.backend d ≤ _ by omega)
    rw [show x + laneCount s.backend d + k * laneCount s.backend d = x + (k * laneCount s.backend d + laneCount s.backend d) by
      omega] at hrest
    exact .head hstep hrest

/-- The steps of an interior row together are the row operation of the backend (41_threshold_kernel.md R182,
42_vector_backends.md R216). -/
theorem reaches_rowOp (hu : OnlyDatapath s u) {y : Nat} (hlow : 1 ≤ y) (hhigh : y + 2 ≤ (s.desc p).height.toNat) :
    Reaches (goTo u (rowPos s p y)) (goTo (rowOp u.backend d p y u) (rowPos s p (y + 1))) := by
  rw [rowPos_of_lt (show y < (s.desc p).height.toNat by omega), ← columnPos_of_lt (Nat.pos_of_ne_zero h.width), hu.backend]
  by_cases hb : s.backend = .scalar
  · have hrow := reaches_maskPixels h hm hu hlow hhigh (Nat.zero_add _) fun z _ => by
      rw [hb, groupWidth, laneCount_eq, ite_self]
    rw [hb, rowOp]
    simpa only [hu.desc] using hrow
  · have hdiv := Nat.div_add_mod' (s.desc p).width.toNat (laneCount s.backend d)
    have hmod := Nat.mod_lt (s.desc p).width.toNat (laneCount_pos s.backend d)
    have hgroups := reaches_maskGroups h hm hb hu hlow hhigh
      (show 0 + (s.desc p).width.toNat / laneCount s.backend d * laneCount s.backend d ≤ _ by omega)
    rw [Nat.zero_add] at hgroups
    have hrest := reaches_maskPixels h hm (hu.trans (maskGroups_onlyDatapath d p y (laneCount s.backend d) 0
      ((s.desc p).width.toNat / laneCount s.backend d) u)) hlow hhigh hdiv fun z hz => if_neg (by omega)
    rw [rowOp_of_tier hb, hu.desc]
    exact hgroups.trans hrest

/-! One plane. -/

theorem reaches_maskRows (hu : OnlyDatapath s u) {y n : Nat} (hy : 1 ≤ y) (hn : y + n + 1 ≤ (s.desc p).height.toNat) :
    Reaches (goTo u (rowPos s p y)) (goTo (maskRows d p y n u) (rowPos s p (y + n))) := by
  induction n generalizing y u with
  | zero => exact .refl _
  | succ n ih =>
    have hrest := ih (hu.trans (rowOp_onlyDatapath u.backend d p y u)) (show 1 ≤ y + 1 by omega) (by omega)
    rw [show y + 1 + n = y + (n + 1) by omega] at hrest
    exact (reaches_rowOp h hm hu hy (by omega)).trans hrest

/-- The steps of a Process plane together are KERNEL (43_dispatch.md R243). -/
theorem reaches_kernelOp (hu : OnlyDatapath s u) :
    Reaches (goTo u (rowPos s p 0)) (goTo (kernelOp d p u) (firstPos s (planesAfter p))) := by
  have hh := h.height
  have hfirst := reaches_zrowOp h hm hu (Nat.pos_of_ne_zero hh) (.inl rfl)
  have hu₁ := hu.trans (zrowOp_onlyDatapath d p 0 u)
  rw [← rowPos_height, kernelOp]
  simp only [hu.desc]
  by_cases h2 : 2 ≤ (s.desc p).height.toNat
  · have hinner := reaches_maskRows h hm hu₁ (Nat.le_refl 1) (show 1 + ((s.desc p).height.toNat - 2) + 1 ≤ _ by omega)
    have hu₂ := hu₁.trans (maskRows_onlyDatapath d p 1 ((s.desc p).height.toNat - 2) (zrowOp d p 0 u))
    have hlast := reaches_zrowOp h hm hu₂ (show (s.desc p).height.toNat - 1 < _ by omega) (by omega)
    rw [show 1 + ((s.desc p).height.toNat - 2) = (s.desc p).height.toNat - 1 by omega] at hinner
    rw [show (s.desc p).height.toNat - 1 + 1 = (s.desc p).height.toNat by omega] at hlast
    rw [if_pos h2]
    exact (hfirst.trans hinner).trans hlast
  · have h1 : (s.desc p).height.toNat = 1 := by omega
    simpa [h1, maskRows] using hfirst

end

section

variable {s u : State} {d : Domain} {p : PlaneId} (h : Running s d p) (hm : effMode s p = 2)

include h hm

theorem reaches_copyRows (hu : OnlyDatapath s u) {y n : Nat} (hn : y + n ≤ (s.desc p).height.toNat) :
    Reaches (goTo u (rowPos s p y)) (goTo (copyRows d p y n u) (rowPos s p (y + n))) := by
  induction n generalizing y u with
  | zero => exact .refl _
  | succ n ih =>
    have hrest := ih (hu.trans (copyRow_onlyDatapath d p y u)) (y := y + 1) (by omega)
    rw [show y + 1 + n = y + (n + 1) by omega] at hrest
    exact .head (step_copy h hu hm (by omega)) hrest

/-- The steps of a Copy plane together are COPY (43_dispatch.md R245). -/
theorem reaches_copyOp (hu : OnlyDatapath s u) :
    Reaches (goTo u (rowPos s p 0)) (goTo (copyOp d p u) (firstPos s (planesAfter p))) := by
  have hrows := reaches_copyRows h hm hu (Nat.le_of_eq (Nat.zero_add (s.desc p).height.toNat))
  rwa [Nat.zero_add, rowPos_height, ← hu.desc] at hrows

end

/-! The planes in order. -/

/-- What a FRAME does with a plane: KERNEL in Process mode, COPY in Copy mode, no access to any other plane or to one without
samples (43_dispatch.md R243 to R247). -/
def planeOp (d : Domain) (u : State) (p : PlaneId) : State :=
  if hasWork u p then (if effMode u p = 3 then kernelOp d p u else copyOp d p u) else u

/-- The plane operations of a FRAME one after the other. -/
def runPlanes (d : Domain) (planes : List PlaneId) (u : State) : State := planes.foldl (planeOp d) u

theorem planeOp_onlyDatapath (d : Domain) (u : State) (p : PlaneId) : OnlyDatapath u (planeOp d u p) := by
  unfold planeOp
  split
  · split
    · exact kernelOp_onlyDatapath d p u
    · exact copyRows_onlyDatapath d p 0 _ u
  · exact .refl u

theorem firstPos_cons_of_work {s : State} {p : PlaneId} (hwork : hasWork s p = true) (planes : List PlaneId) :
    firstPos s (p :: planes) = some { plane := p, row := 0, col := 0 } := by
  rw [firstPos, List.filter_cons_of_pos hwork]
  rfl

theorem firstPos_cons_of_no_work {s : State} {p : PlaneId} (hwork : ¬hasWork s p = true) (planes : List PlaneId) :
    firstPos s (p :: planes) = firstPos s planes := by
  rw [firstPos, List.filter_cons_of_neg hwork, firstPos]

section

variable {s u : State} {d : Domain} (hin : s.inbox = []) (hd : domainOf s = some d) (hv : frameValid d s = true)
  (hu : OnlyDatapath s u)

include hin hd hv hu

/-- The sequencer's steps in a plane together are the plane's operation. -/
theorem reaches_planeOp (p : PlaneId) :
    Reaches (goTo u (firstPos s (p :: planesAfter p))) (goTo (planeOp d u p) (firstPos s (planesAfter p))) := by
  have e := sameSetup_of_onlyDatapath hu
  rw [planeOp, hasWork_congr e, effMode_congr e]
  by_cases hwork : hasWork s p = true
  · obtain ⟨hacc, hw, hh⟩ := (hasWork_iff s p).mp hwork
    obtain ⟨-, hmode⟩ := (isAccessed_iff s p).mp hacc
    obtain ⟨hr, -⟩ := (frameValid_iff d s).mp hv p ((mem_accessedPlanes s p).mpr hacc)
    have hrun : Running s d p := ⟨hin, hd, hr, hw.ne', hh.ne'⟩
    rw [if_pos hwork, firstPos_cons_of_work hwork, ← rowPos_of_lt hh]
    rcases hmode with hm | hm
    · rw [if_neg (by rw [hm]; decide)]
      exact reaches_copyOp hrun hm hu
    · rw [if_pos hm]
      exact reaches_kernelOp hrun hm hu
  · rw [if_neg hwork, firstPos_cons_of_no_work hwork]
    exact .refl _

/-- The steps of a FRAME lead from its first position to IDLE (43_dispatch.md R250). -/
theorem reaches_runPlanes : Reaches (goTo u (firstPos s allPlanes)) (goTo (runPlanes d allPlanes u) none) := by
  have huY := hu.trans (planeOp_onlyDatapath d u .y)
  have huU := huY.trans (planeOp_onlyDatapath d _ .u)
  have huV := huU.trans (planeOp_onlyDatapath d _ .v)
  have hY := reaches_planeOp hin hd hv hu .y
  have hU := reaches_planeOp hin hd hv huY .u
  have hV := reaches_planeOp hin hd hv huU .v
  have hA := reaches_planeOp hin hd hv huV .a
  exact ((hY.trans hU).trans hV).trans hA

end

/-! What a plane holds depends on the bytes of its footprints. -/

theorem dstByte_of_row {d : Domain} {ds : Desc} {y a : Nat} (hy : y < ds.height.toNat) (ha : dstAddr d ds y 0 ≤ a)
    (ha' : a < dstAddr d ds y 0 + ds.width.toNat * elemSize d) : DstByte d ds a :=
  (dstFoot_contains_iff d ds a).mp
    ((Foot.contains_iff _ _).mpr ⟨y, hy, by simpa [dstAddr, dstFoot] using ha, by simpa [dstAddr, dstFoot] using ha'⟩)

theorem srcByte_of_row {d : Domain} {ds : Desc} {y a : Nat} (hy : y < ds.height.toNat) (ha : srcAddr d ds y 0 ≤ a)
    (ha' : a < srcAddr d ds y 0 + ds.width.toNat * elemSize d) : SrcByte d ds a :=
  (srcFoot_contains_iff d ds a).mp
    ((Foot.contains_iff _ _).mpr ⟨y, hy, by simpa [srcAddr, srcFoot] using ha, by simpa [srcAddr, srcFoot] using ha'⟩)

/-- Plane p of m' holds what its mode asks for of the source in s: MASK in Process mode, the bytes in Copy mode
(43_dispatch.md R249). -/
def PlaneDone (d : Domain) (s : State) (p : PlaneId) (m' : List Host.Cell) : Prop :=
  (effMode s p = 3 → HoldsMask d s.lowS s.highS (s.desc p) s.mem m') ∧
    (effMode s p = 2 → HoldsCopy d (s.desc p) s.mem m')

theorem PlaneDone.congr_dst {d : Domain} {s : State} {p : PlaneId} {m m' : List Host.Cell} (h : PlaneDone d s p m)
    (hsame : ∀ a, DstByte d (s.desc p) a → memByte m' a = memByte m a) : PlaneDone d s p m' := by
  obtain ⟨hmask, hcopy⟩ := h
  refine ⟨fun hm y hy => ?_, fun hm y i hy hi => ?_⟩
  · refine rowHoldsMask_congr hy (fun _ _ _ _ => rfl) (fun x hx => ?_) (hmask hm y hy)
    exact dstSample_congr hx fun a ha ha' => hsame a (dstByte_of_row hy ha ha')
  · rw [hsame _ (dstByte_of_row hy (Nat.le_add_right _ _) (by omega)), hcopy hm y i hy hi]

theorem PlaneDone.congr_src {d : Domain} {s t : State} {p : PlaneId} {m' : List Host.Cell} (h : PlaneDone d t p m')
    (hst : OnlyDatapath s t) (hsame : ∀ a, SrcByte d (s.desc p) a → memByte t.mem a = memByte s.mem a) :
    PlaneDone d s p m' := by
  unfold PlaneDone at h
  rw [effMode_congr (sameSetup_of_onlyDatapath hst), hst.desc, hst.lowS, hst.highS] at h
  obtain ⟨hmask, hcopy⟩ := h
  refine ⟨fun hm => holdsMask_congr hsame (hmask hm), fun hm y i hy hi => ?_⟩
  rw [hcopy hm y i hy hi, hsame _ (srcByte_of_row hy (Nat.le_add_right _ _) (by omega))]

/-! What the planes of a FRAME hold. -/

/-- From s to t the accessed planes among these are done, every byte outside their destinations is as it was, and nothing but the
datapath differs. -/
structure PlanesDone (d : Domain) (planes : List PlaneId) (s t : State) : Prop where
  frame : OnlyDatapath s t
  done : ∀ p ∈ planes, isAccessed s p = true → PlaneDone d s p t.mem
  outside : ∀ a, (∀ p ∈ planes, isAccessed s p = true → (dstFoot d (s.desc p)).contains a = false) →
    memByte t.mem a = memByte s.mem a

/-- The planes of two lists without a common plane, one list after the other: V4 keeps a destination out of every source and out
of every other destination (20_memory.md R70). -/
theorem PlanesDone.append {d : Domain} {ps qs : List PlaneId} {s t u : State} (hv : frameValid d s = true)
    (hdisjoint : List.Disjoint ps qs) (h1 : PlanesDone d ps s t) (h2 : PlanesDone d qs t u) :
    PlanesDone d (ps ++ qs) s u := by
  have hacc : ∀ p, isAccessed t p = isAccessed s p := isAccessed_congr (sameConfiguration_of_onlyDatapath h1.frame)
  have hdone := h2.done
  have hout := h2.outside
  simp only [hacc, h1.frame.desc] at hdone hout
  have hapart : ∀ p q, isAccessed s p = true → isAccessed s q = true →
      (dstFoot d (s.desc p)).apart (srcFoot d (s.desc q)) = true ∧
        (p = q ∨ (dstFoot d (s.desc p)).apart (dstFoot d (s.desc q)) = true) := fun p q hp hq =>
    ((frameValid_iff d s).mp hv p ((mem_accessedPlanes s p).mpr hp)).2 q ((mem_accessedPlanes s q).mpr hq)
  refine ⟨h1.frame.trans h2.frame, fun p hmem hp => ?_, fun a ha => ?_⟩
  · rcases List.mem_append.mp hmem with hmem | hmem
    · refine (h1.done p hmem hp).congr_dst fun a ha => hout a fun q hqs hq => ?_
      obtain ⟨-, rfl | hdst⟩ := hapart p q hp hq
      · exact absurd hqs (hdisjoint hmem)
      · exact Foot.apart_no_common _ _ hdst a ((dstFoot_contains_iff d _ a).mpr ha)
    · refine (hdone p hmem hp).congr_src h1.frame fun a ha => h1.outside a fun q _ hq => ?_
      obtain ⟨hsrc, -⟩ := hapart q p hq hp
      by_contra hcontains
      have hnot := Foot.apart_no_common _ _ hsrc a (Bool.not_eq_false _ ▸ hcontains)
      rw [(srcFoot_contains_iff d _ a).mpr ha] at hnot
      cases hnot
  · rw [hout a fun p hmem => ha p (List.mem_append_right ps hmem),
      h1.outside a fun p hmem => ha p (List.mem_append_left qs hmem)]

/-- One plane with its operation. -/
theorem planeOp_done {d : Domain} {s : State} (hv : frameValid d s = true) (p : PlaneId) :
    PlanesDone d [p] s (planeOp d s p) := by
  have hframe := planeOp_onlyDatapath d s p
  by_cases hwork : hasWork s p = true
  · obtain ⟨hacc, hw, hh⟩ := (hasWork_iff s p).mp hwork
    obtain ⟨-, hmode⟩ := (isAccessed_iff s p).mp hacc
    have hvalid := descValid_of_frameValid d s hv p ((mem_accessedPlanes s p).mpr hacc)
    obtain ⟨hdone, hout⟩ : PlaneDone d s p (planeOp d s p).mem ∧
        SameOutside (dstFoot d (s.desc p)) s.mem (planeOp d s p).mem := by
      rw [planeOp, if_pos hwork]
      rcases hmode with hm | hm
      · rw [if_neg (by rw [hm]; decide)]
        obtain ⟨hcopy, hout⟩ := copyOp_copies hvalid ⟨(toNat_pos_iff _).mp hw, (toNat_pos_iff _).mp hh⟩
        exact ⟨⟨fun h3 => absurd (hm.symm.trans h3) (by decide), fun _ => hcopy⟩, hout⟩
      · rw [if_pos hm]
        have hmasks := kernelOp_masks hvalid hw.ne' hh.ne'
        exact ⟨⟨fun _ y hy => hmasks.rows y (Nat.zero_le y) hy, fun h2 => absurd (hm.symm.trans h2) (by decide)⟩,
          fun a ha => hmasks.outside a (outsideRows_of_not_contains ha)⟩
    refine ⟨hframe, fun q hq _ => ?_, fun a ha => hout a (ha p List.mem_cons_self hacc)⟩
    obtain rfl := List.mem_singleton.mp hq
    exact hdone
  · have hsame : planeOp d s p = s := if_neg hwork
    refine ⟨hframe, fun q hq hacc => ?_, fun a _ => by rw [hsame]⟩
    obtain rfl := List.mem_singleton.mp hq
    have hempty : (s.desc q).width = 0 ∨ (s.desc q).height = 0 := by
      by_contra hne
      obtain ⟨hw, hh⟩ := not_or.mp hne
      exact hwork ((hasWork_iff s q).mpr ⟨hacc, (toNat_pos_iff _).mpr hw, (toNat_pos_iff _).mpr hh⟩)
    exact ⟨fun _ => holdsMask_of_empty hempty _ _ _ _ _, fun _ => holdsCopy_of_empty hempty _ _ _⟩

theorem runPlanes_done {d : Domain} {planes : List PlaneId} (hnodup : planes.Nodup) {s : State}
    (hv : frameValid d s = true) : PlanesDone d planes s (runPlanes d planes s) := by
  induction planes generalizing s with
  | nil => exact ⟨.refl s, fun _ hp => absurd hp List.not_mem_nil, fun _ _ => rfl⟩
  | cons p planes ih =>
    obtain ⟨hp, hrest⟩ := List.nodup_cons.mp hnodup
    have hfirst := planeOp_done hv p
    have hv' : frameValid d (planeOp d s p) = true := by
      rw [frameValid_congr (sameSetup_of_onlyDatapath hfirst.frame), hv]
    exact hfirst.append hv (List.singleton_disjoint.mpr hp) (ih hrest hv')

/-! The command. -/

theorem exec_frame_of_valid {s : State} {d : Domain} (hr : s.run = .ready) (hd : domainOf s = some d)
    (hv : frameValid d s = true) : exec .frame s = .next (goTo s (firstPos s allPlanes)) :=
  (frameOp_next_iff s _).mpr (.inr ⟨hr, d, hd, hv, rfl⟩)

theorem allPlanes_sorted : allPlanes.Pairwise fun p q => planeIndex p < planeIndex q := by decide

theorem mem_allPlanes (p : PlaneId) : p ∈ allPlanes := by cases p <;> decide

/-- Settles O44: the acceptance goes to the first position of the planes in order, if there is one. -/
theorem frameAccepted : Obligations.FrameAccepted := by
  intro s d hr hd hv
  rw [exec_frame_of_valid hr hd hv]
  refine ⟨fun p hwork hbelow => ?_, fun hnone => ?_⟩
  · rw [firstPos_eq_some allPlanes_sorted (mem_allPlanes p) hwork fun q _ => hbelow q]
    rfl
  · rw [firstPos_eq_none fun p _ => hnone p]
    rfl

/-- A FRAME that is complete leaves READY and IDLE as they were before the command. -/
theorem goTo_none_onlyDatapath {s u : State} (hr : s.run = .ready) (hp : s.pos = none) (hu : OnlyDatapath s u) :
    OnlyDatapath s (goTo u none) := by
  have h := goTo_onlyDatapath hu none
  rwa [hr, hp] at h

/-- The write of the FRAME command, as the next event of the host. -/
theorem step_frameCommand (s : State) :
    step (s.withInbox (asPending [.write 0x000 0x0000000000000002])) = exec .frame (s.withInbox []) := rfl

/-- Settles O47: the sequencer ends where the plane operations in order end, and these leave what R249 asks for. -/
theorem frameRunsToCompletion : Obligations.FrameRunsToCompletion := by
  intro s d hr hp hd hv
  have e : SameSetup s (s.withInbox []) := ⟨sameConfiguration_refl s, rfl, withInbox_desc s []⟩
  have hd' : domainOf (s.withInbox []) = some d := hd
  have hv' : frameValid d (s.withInbox []) = true := (frameValid_congr e d).trans hv
  obtain ⟨hframe, hdone, hout⟩ := runPlanes_done (show allPlanes.Nodup by decide) hv'
  obtain ⟨n, hn⟩ : Reaches (s.withInbox (asPending [.write 0x000 0x0000000000000002]))
      (goTo (runPlanes d allPlanes (s.withInbox [])) none) :=
    .head ((step_frameCommand s).trans (exec_frame_of_valid hr hd' hv'))
      (reaches_runPlanes rfl hd' hv' (OnlyDatapath.refl _))
  simp only [PlaneDone, isAccessed_congr e.config, effMode_congr e, e.desc, isAccessed_iff] at hdone hout
  refine ⟨n, _, hn, goTo_none_onlyDatapath hr hp hframe, fun p hpresent hm => ?_, fun p hpresent hm => ?_, fun a ha => ?_⟩
  · obtain ⟨hmask, -⟩ := hdone p (mem_allPlanes p) ⟨hpresent, .inr hm⟩
    exact hmask hm
  · obtain ⟨-, hcopy⟩ := hdone p (mem_allPlanes p) ⟨hpresent, .inl hm⟩
    exact hcopy hm
  · exact hout a fun p _ hacc => ha p hacc.1 hacc.2

end Sys2Proof.Proofs.FrameRun

/-! A failing CONFIGURE (60_exceptions.md R278, R280, R281): it enters ERROR with the lowest failing code, and ERROR accepts no
command. -/

namespace Sys2Proof.Proofs.ErrorState

open Sys2Proof Sys2Proof.Machine Sys2Proof.Proofs.Registers Sys2Proof.Proofs.Configure

/-- A state that is neither UNCONFIGURED nor READY ignores both commands and every write to CMD (10_state.md R23, R45). -/
theorem commands_ignored {s : State} (hu : s.run ≠ .unconfigured) (hr : s.run ≠ .ready) (data : Slot) :
    exec .configure s = .next s ∧ exec .frame s = .next s ∧ exec (.wr 0x000 data) s = .next s := by
  obtain ⟨hwrite1, hwrite2, hwriteOther, hconfigure, hframe, -⟩ := commandWrites s data
  refine ⟨hconfigure hu, hframe hr, ?_⟩
  by_cases h1 : data.toNat % 256 = 1
  · obtain ⟨-, hwrite⟩ := hwrite1 h1
    exact hwrite.trans (hconfigure hu)
  by_cases h2 : data.toNat % 256 = 2
  · obtain ⟨-, hwrite⟩ := hwrite2 h2
    exact hwrite.trans (hframe hr)
  · exact hwriteOther h1 h2

/-- ERROR accepts no command: only reset leaves it (60_exceptions.md R281). -/
theorem commands_ignored_raiseConfigError (s : State) (code : Nat) (data : Slot) :
    let t := raiseConfigError code s
    exec .configure t = .next t ∧ exec .frame t = .next t ∧ exec (.wr 0x000 data) t = .next t :=
  commands_ignored (by rw [raiseConfigError_run]; decide) (by rw [raiseConfigError_run]; decide) data

/-- Settles O17: CONFIGURE raises the code of the lowest failing check, and the ERROR state it enters ignores the commands. -/
theorem errorEntry : Obligations.ErrorEntry := by
  intro s c hu hfails hlow
  exact ⟨raiseConfigError c s, exec_configure_of_lowest hu hfails hlow, rfl, commands_ignored_raiseConfigError s c⟩

end Sys2Proof.Proofs.ErrorState

/-! The bytes a reset may change (70_reset_and_hazards.md R301, R302): those of the destination footprints of the FRAME it
abandons. -/

namespace Sys2Proof.Proofs.ResetMemory

open Sys2Proof Sys2Proof.Machine Sys2Proof.Proofs.Sequencer

theorem memAfterReset_of_not_busy {s : State} (h : s.run ≠ .busy) : memAfterReset s = s.mem := by
  unfold memAfterReset
  split
  · contradiction
  · rfl

/-- Settles O49: a byte that a reset changes lies in a destination footprint of an accessed plane. -/
theorem resetMemory : Obligations.ResetMemory := by
  intro s
  refine ⟨resetOp s, rfl, memAfterReset_of_not_busy, fun a hout => ?_⟩
  by_contra hne
  obtain ⟨-, d, hd, p, hp, hin⟩ := memAfterReset_changed hne
  obtain ⟨hpresent, hmode⟩ := (isAccessed_iff s p).mp ((mem_accessedPlanes s p).mp hp)
  rw [hout d p hd hpresent hmode] at hin
  cases hin

end Sys2Proof.Proofs.ResetMemory

/-! The registers that are locked (70_reset_and_hazards.md R312, R314): outside UNCONFIGURED no operation but reset changes the
configuration or what CONFIGURE made of it, and during BUSY none changes a descriptor. -/

namespace Sys2Proof.Proofs.Locks

open Sys2Proof Sys2Proof.Machine Sys2Proof.Proofs.Registers Sys2Proof.Proofs.Frames Sys2Proof.Proofs.HostActions
  Sys2Proof.Proofs.Encoding

/-! Requests for a reset. -/

/-- None of the tables of the selecting registers holds RESET (30_encoding.md R111). -/
theorem decodeSelect_ne_reset (offset : Slot) (word : Word) (p : PlaneId) (y : Word) :
    decodeSelect offset word p y ≠ .ok .reset := by
  intro h
  rcases decodeSelect_cases h with hrow | ⟨q, -, hmode⟩ | hcap | hpixel
  · obtain ⟨-, k, -, hk⟩ := (decodeRow_ok_iff _ _ _ _).mp hrow
    cases k <;> cases hk
  · rcases (decodeMode_ok_iff _ _ _).mp hmode with ⟨-, hi⟩ | ⟨-, hi⟩ | ⟨-, hi⟩ <;> cases hi
  · rcases (decodeCap_ok_iff _ _).mp hcap with ⟨-, hi⟩ | ⟨k, -, hk⟩
    · cases hi
    · cases k <;> cases hk
  · obtain ⟨d, -, hd⟩ := (decodePixel_ok_iff _ _).mp hpixel
    cases d <;> cases hd

theorem decodeFixed_ne_reset (op : FixedOp) (p : PlaneId) (y : Word) : decodeFixed op p y ≠ .ok .reset := by
  intro h
  cases op with
  | kernel | zrow =>
    simp only [decodeFixed] at h
    split at h <;> cases h
  | _ => cases h

/-- Only the reset input requests a reset (70_reset_and_hazards.md R300). -/
theorem eq_rst_of_decode_reset {r : Request} (h : decode r = .ok .reset) : r = .rst := by
  cases r with
  | rst => rfl
  | write offset data => rcases decodeWrite_cases h with hi | hi | ⟨hi, -⟩ <;> cases hi
  | read offset =>
    obtain ⟨-, hi⟩ := (decode_read_ok_iff _ _).mp h
    cases hi
  | narrow offset bytes => cases h
  | select offset word p y => exact absurd h (decodeSelect_ne_reset offset word p y)
  | fixed op p y => exact absurd h (decodeFixed_ne_reset op p y)

/-! What keeps the locked registers. -/

/-- The registers locked in s read the same in t. -/
structure KeepsLocked (s t : State) : Prop where
  config : s.run ≠ .unconfigured → SameConfiguration s t
  desc : s.run = .busy → ∀ p, t.desc p = s.desc p

theorem KeepsLocked.of_sameSetup {s t : State} (h : SameSetup s t) : KeepsLocked s t :=
  ⟨fun _ => h.config, fun _ => h.desc⟩

theorem KeepsLocked.of_onlyDatapath {s t : State} (h : OnlyDatapath s t) : KeepsLocked s t :=
  .of_sameSetup (sameSetup_of_onlyDatapath h)

theorem KeepsLocked.refl (s : State) : KeepsLocked s s := .of_onlyDatapath (OnlyDatapath.refl s)

theorem KeepsLocked.withResult (s : State) (v : Slot) : KeepsLocked s (s.withResult v) :=
  .of_sameSetup ⟨sameConfiguration_refl s, rfl, withResult_desc s v⟩

theorem KeepsLocked.nextDraw {s t : State} (h : KeepsLocked s t) : KeepsLocked s t.nextDraw :=
  ⟨h.config, fun hb p => (nextDraw_desc t p).trans (h.desc hb p)⟩

/-- In UNCONFIGURED no register is locked. -/
theorem KeepsLocked.of_unconfigured {s : State} (hu : s.run = .unconfigured) (t : State) : KeepsLocked s t :=
  ⟨fun h => absurd hu h, fun hb => by rw [hu] at hb; cases hb⟩

/-- Outside BUSY no descriptor is locked. -/
theorem KeepsLocked.withDesc {s : State} (hb : s.run ≠ .busy) (p : PlaneId) (ds : Desc) :
    KeepsLocked s (s.withDesc p ds) :=
  ⟨fun _ => by simp [SameConfiguration], fun h => absurd h hb⟩

/-- The locks do not see the pending events. -/
theorem KeepsLocked.of_withInbox {s t : State} {q : List Pending} (h : KeepsLocked (s.withInbox q) t) :
    KeepsLocked s t :=
  ⟨h.config, fun hb p => (h.desc hb p).trans (withInbox_desc s q p)⟩

/-! The operations. -/

theorem configureOp_keepsLocked (s : State) : KeepsLocked s (configureOp s) := by
  rcases configureOp_cases s with ⟨-, h⟩ | ⟨hu, -⟩ | ⟨hu, -⟩
  · rw [h]
    exact .refl s
  · exact .of_unconfigured hu _
  · exact .of_unconfigured hu _

theorem frameOp_keepsLocked {s t : State} (h : frameOp s = .next t) : KeepsLocked s t := by
  rcases (frameOp_next_iff s t).mp h with ⟨-, rfl⟩ | ⟨-, d, -, -, rfl⟩
  · exact .refl _
  · exact .of_sameSetup ((sameSetup_of_onlyDatapath (OnlyDatapath.refl s)).goTo _)

/-- A write is stored only where its access class is not locked (10_state.md R22, R33). -/
theorem writeReg_keepsLocked (s : State) (r : Reg) (data : Slot) : KeepsLocked s (writeReg s r data) := by
  rcases writeReg_cases s r data with ⟨hw, ⟨-, hu⟩ | ⟨ha, hb⟩⟩ | hw <;> rw [hw]
  · exact .of_unconfigured hu _
  · obtain ⟨p, ds, hstore⟩ := storeReg_withDesc s data ha
    rw [hstore]
    exact .withDesc hb p ds
  · exact .refl s

theorem execWr_keepsLocked {offset data : Slot} {s t : State} (h : execWr offset data s = .next t) : KeepsLocked s t := by
  obtain ⟨r, -, ⟨-, hw⟩ | ⟨-, rfl⟩⟩ := (execWr_next_iff offset data s t).mp h
  · unfold writeCommand at hw
    split at hw
    · cases hw
      exact configureOp_keepsLocked s
    · split at hw
      · exact frameOp_keepsLocked hw
      · cases hw
        exact .refl s
  · exact writeReg_keepsLocked s r data

/-- A part of CONFIGURE requested by itself runs only where nothing is locked. -/
theorem whileUnconfigured_keepsLocked {op : State → State} {s t : State} (h : whileUnconfigured op s = .next t) :
    KeepsLocked s t := by
  rcases (whileUnconfigured_eq op s t).mp h with ⟨hu, -⟩ | ⟨-, rfl⟩
  · exact .of_unconfigured hu _
  · exact .refl _

theorem exec_keepsLocked {i : Instr} (hi : i ≠ .reset) {s t : State} (h : exec i s = .next t) : KeepsLocked s t := by
  cases i with
  | configure =>
    cases h
    exact configureOp_keepsLocked s
  | frame => exact frameOp_keepsLocked h
  | reset => exact absurd rfl hi
  | wr offset data => exact execWr_keepsLocked h
  | rd offset =>
    obtain ⟨r, -, rfl⟩ := (execRd_next_iff offset s t).mp h
    exact .withResult s _
  | capAuto | capScalar | capTier1 | capTier2 | capTier3 | resolve | derive => exact whileUnconfigured_keepsLocked h
  | validate =>
    exact whileUnconfigured_keepsLocked (op := fun t => t.withResult (BitVec.ofNat 64 (validateCode t))) h
  | untouched p =>
    simp only [exec, execUntouched] at h
    split at h <;> cases h
    exact .refl s
  | copy p => exact .of_onlyDatapath (copyPlane_onlyDatapath h)
  | process p | kernel p => exact .of_onlyDatapath (kernelPlane_onlyDatapath h)
  | alphaCopy =>
    simp only [exec, execAlphaCopy] at h
    split at h
    · exact .of_onlyDatapath (copyPlane_onlyDatapath h)
    · cases h
      exact .refl s
  | pixU8 | pixU16b10 | pixU16b12 | pixU16b14 | pixU16b16 | pixF32 =>
    cases h
    exact .of_onlyDatapath (withPixel_onlyDatapath s _)
  | rowScalar p y | rowT1 p y | rowT2 p y | rowT3 p y => exact .of_onlyDatapath (rowForm_onlyDatapath h)
  | zrow p y =>
    refine .of_onlyDatapath (onColourPlane_onlyDatapath (fun d hd => ?_) h)
    split at hd <;> cases hd
    exact zrowOp_onlyDatapath _ _ _ _
  | vpix =>
    simp only [exec, execVpix] at h
    split at h <;> cases h
    exact .of_onlyDatapath (withVector_onlyDatapath s _)

/-! Every step. -/

theorem sequencerStep_keepsLocked {s t : State} (h : sequencerStep s = .next t) : KeepsLocked s t := by
  rcases (sequencerStep_next_iff s t).mp h with ⟨-, rfl⟩ | ⟨-, -, rfl⟩ | ⟨-, q, d, -, -, -, rfl⟩
  · exact .refl _
  · exact .of_sameSetup ((sameSetup_of_onlyDatapath (OnlyDatapath.refl s)).goTo none)
  · obtain ⟨u, next, he, hu⟩ := sequencerAt_onlyDatapath d q s
    rw [he]
    exact .of_sameSetup ((sameSetup_of_onlyDatapath hu).goTo next)

theorem hostStep_keepsLocked {e : HostEvent} (he : e ≠ .request .rst) {s t : State} (h : hostStep e s = .next t) :
    KeepsLocked s t := by
  cases e with
  | request r =>
    simp only [hostStep] at h
    split at h
    · rename_i i hi
      refine exec_keepsLocked ?_ h
      rintro rfl
      exact he (congrArg _ (eq_rst_of_decode_reset hi))
    · cases h
  | memWrite addr b =>
    obtain ⟨-, -, rfl⟩ := (hostWrite_next_iff addr b s t).mp h
    exact .of_onlyDatapath (withMem_onlyDatapath s _)
  | memRead addr =>
    obtain ⟨-, ⟨-, -, rfl⟩ | ⟨-, rfl⟩⟩ := (hostRead_next_iff addr s t).mp h
    · exact (KeepsLocked.withResult s _).nextDraw
    · exact .withResult s _

/-- Settles O58: a step of the sequencer and every event but a reset keep the locked registers. -/
theorem registersLocked : Obligations.RegistersLocked := by
  intro s t hrst hst
  have hkeeps : KeepsLocked s t := by
    rcases step_cases s with ⟨q, -, heq, -⟩ | ⟨e, rest, he, -, heq⟩ <;> rw [heq] at hst
    · exact (sequencerStep_keepsLocked hst).of_withInbox
    · refine (hostStep_keepsLocked ?_ hst).of_withInbox
      rintro rfl
      exact hrst he
  exact ⟨hkeeps.config, hkeeps.desc⟩

end Sys2Proof.Proofs.Locks
